-- ==== Sys2Proof/Word.lean ====
section
/-! DEFINITION. The bit-vector types of the machine: what the spec treats as bits of a fixed width. -/

namespace Sys2Proof

/-- A byte (20_memory.md R64). -/
abbrev Byte := BitVec 8

/-- A 16-bit segment selector (20_memory.md R70) or other 16-bit half word. -/
abbrev Selector := BitVec 16

/-- A 32-bit register, linear address or offset (10_state.md R20, R23; 20_memory.md R61). -/
abbrev Word := BitVec 32

/-- The 8 bytes of a descriptor or gate as one number (20_memory.md R74, R77). -/
abbrev Desc := BitVec 64

end Sys2Proof
end

