-- ==== Sys2Proof/Syntax.lean ====
section
/-! DEFINITION. The instructions of spec/opcode_table.json, one constructor a row, and their operands. -/

namespace Sys2Proof

/-- The eight general registers, in the order of their encoding numbers 0 to 7 (10_state.md R20). -/
inductive Reg where
  | eax | ecx | edx | ebx | esp | ebp | esi | edi
  deriving DecidableEq, Repr

/-- The displacement that `mod` 00, 01 and 10 add to a register form (30_encoding.md R123, R125). -/
inductive Disp where
  | none
  | d8 (v : Byte)
  | d32 (v : Word)
  deriving DecidableEq, Repr

/-- A memory operand: one constructor for each kind of row of 30_encoding.md R123 and R124.
The scale is the 2-bit field of the SIB byte, kept even where there is no index. The index register
`esp` (number 100b) stands for "no index". -/
inductive MemOp where
  | base (r : Reg) (d : Disp)
  | abs (d : Word)
  | sib (scale : BitVec 2) (index : Reg) (base : Reg) (d : Disp)
  | sibAbs (scale : BitVec 2) (index : Reg) (d : Word)
  deriving DecidableEq, Repr

/-- An `r/m16` operand: `mod = 11b` names a register, any other `mod` a memory operand (R122). -/
inductive RegMem where
  | reg (r : Reg)
  | mem (m : MemOp)
  deriving DecidableEq, Repr

/-- The instructions in scope (00_scope.md R3), one constructor per row of the opcode table. -/
inductive Instr where
  /-- `JMP ptr16:32`, R128, R174. -/
  | jmpPtr (sel : Selector) (off : Word)
  /-- `JMP m16:32`, R129, R174. -/
  | jmpMem (m : MemOp)
  /-- `CALL ptr16:32`, R130, R175. -/
  | callPtr (sel : Selector) (off : Word)
  /-- `CALL m16:32`, R131, R175. -/
  | callMem (m : MemOp)
  /-- `IRET`, R132, R180. -/
  | iret
  /-- `INT n`, R133, R182. -/
  | intN (n : Byte)
  /-- `LTR r/m16`, R134, R150. -/
  | ltr (src : RegMem)
  /-- `STR r/m16`, R135, R151. -/
  | str (dst : RegMem)
  deriving DecidableEq, Repr

end Sys2Proof
end

