-- ==== Sys2Proof/WellFormed.lean ====
section
/-! DEFINITION. Which instruction terms have an encoding of their own (30_encoding.md R123, R124). -/

namespace Sys2Proof

/-- A memory operand that the ModRM and SIB bytes can say: `rm = 100b` announces a SIB byte, so ESP is no
plain base register; EBP without a displacement is the code of `disp32` (`mod = 00b`, R123, R124). -/
def MemOp.wellFormed : MemOp → Bool
  | .base r d => r != .esp && !(r == .ebp && d == .none)
  | .abs _ => true
  | .sib _ _ b d => !(b == .ebp && d == .none)
  | .sibAbs _ _ _ => true

/-- An `r/m16` operand that the encoding can say. -/
def RegMem.wellFormed : RegMem → Bool
  | .reg _ => true
  | .mem m => m.wellFormed

/-- An instruction that the encoding can say. -/
def Instr.wellFormed : Instr → Bool
  | .jmpPtr _ _ => true
  | .jmpMem m => m.wellFormed
  | .callPtr _ _ => true
  | .callMem m => m.wellFormed
  | .iret => true
  | .intN _ => true
  | .ltr rm => rm.wellFormed
  | .str rm => rm.wellFormed

end Sys2Proof
end

