-- ==== Sys2Proof/Decode.lean ====
section
/-! DEFINITION. Decoding and encoding of the eight instruction forms (30_encoding.md), and the byte-order helpers. -/

namespace Sys2Proof

/-! ### Byte order (20_memory.md R65) -/

/-- The number whose byte `i` is the `i`-th of the list: little-endian. -/
def leNat : List Byte → Nat
  | [] => 0
  | b :: bs => b.toNat + 256 * leNat bs

/-- The low `n` bytes of a number, least significant first. -/
def leBytes : Nat → Nat → List Byte
  | 0, _ => []
  | n + 1, v => BitVec.ofNat 8 v :: leBytes n (v / 256)

/-! ### Register numbers (10_state.md R20) -/

/-- The encoding number of a general register. -/
def Reg.num : Reg → Nat
  | .eax => 0 | .ecx => 1 | .edx => 2 | .ebx => 3 | .esp => 4 | .ebp => 5 | .esi => 6 | .edi => 7

/-- The general register of a 3-bit field. -/
def Reg.ofNum : Nat → Reg
  | 0 => .eax | 1 => .ecx | 2 => .edx | 3 => .ebx | 4 => .esp | 5 => .ebp | 6 => .esi | _ => .edi

/-! ### Decoding -/

/-- What the decoder says of the first bytes of an instruction. -/
inductive Decoded where
  /-- The bytes begin with this instruction (a row of opcode_table.json). -/
  | instr (i : Instr)
  /-- The bytes are too few to tell: the fetch reads one more (R136). -/
  | more
  /-- `FF /3` or `FF /5` with `mod = 11b`: an illegal form, `#UD` (R129, R131). -/
  | illegal
  /-- The first byte is a prefix: refused as `PrefixNotModelled` (R121). -/
  | prefixByte
  /-- No row matches: refused as `OpcodeNotModelled` (R137). -/
  | noRow
  deriving DecidableEq, Repr

/-- The prefix bytes of R121. -/
def isPrefixByte (b : Nat) : Bool :=
  [0x26, 0x2E, 0x36, 0x3E, 0x64, 0x65, 0x66, 0x67, 0xF0, 0xF2, 0xF3].contains b

/-- The displacement after a ModRM or SIB byte: none, one byte or four, by `mod` (R123).
`none` when the bytes do not suffice. -/
def decodeDisp (mod : Nat) (bs : List Byte) : Option Disp :=
  match mod, bs with
  | 0, _ => some .none
  | 1, b :: _ => some (.d8 b)
  | 2, b0 :: b1 :: b2 :: b3 :: _ => some (.d32 (BitVec.ofNat 32 (leNat [b0, b1, b2, b3])))
  | _, _ => none

/-- Four displacement bytes with no register (R123, R124). -/
def decodeDisp32 : List Byte → Option Word
  | b0 :: b1 :: b2 :: b3 :: _ => some (BitVec.ofNat 32 (leNat [b0, b1, b2, b3]))
  | _ => none

/-- The operand after a SIB byte (R124). -/
def decodeSib (mod : Nat) (sib : Byte) (bs : List Byte) : Option MemOp :=
  let scale : BitVec 2 := BitVec.ofNat 2 (sib.toNat / 64)
  let index := Reg.ofNum (sib.toNat / 8 % 8)
  let base := Reg.ofNum (sib.toNat % 8)
  if mod = 0 ∧ base = .ebp then (decodeDisp32 bs).map (.sibAbs scale index)
  else (decodeDisp mod bs).map (.sib scale index base)

/-- The memory operand that `mod` (not 11b), `rm` and the bytes after the ModRM byte say (R123).
`none` when the bytes do not suffice. -/
def decodeMem (mod rm : Nat) (bs : List Byte) : Option MemOp :=
  if rm = 4 then
    match bs with
    | [] => none
    | sib :: rest => decodeSib mod sib rest
  else if mod = 0 ∧ rm = 5 then (decodeDisp32 bs).map .abs
  else (decodeDisp mod bs).map (.base (Reg.ofNum rm))

/-- An instruction whose operand may still lack bytes. -/
def Decoded.ofOption (f : α → Instr) : Option α → Decoded
  | none => .more
  | some a => .instr (f a)

/-- The far pointer immediate `ptr16:32`: offset, then selector (R126). -/
def decodeFarPtr (f : Selector → Word → Instr) : List Byte → Decoded
  | o0 :: o1 :: o2 :: o3 :: s0 :: s1 :: _ =>
    .instr (f (BitVec.ofNat 16 (leNat [s0, s1])) (BitVec.ofNat 32 (leNat [o0, o1, o2, o3])))
  | _ => .more

/-- A memory-only operand: `mod = 11b` is illegal (R129, R131). -/
def decodeMemOnly (f : MemOp → Instr) (modrm : Nat) (bs : List Byte) : Decoded :=
  if modrm / 64 = 3 then .illegal
  else Decoded.ofOption f (decodeMem (modrm / 64) (modrm % 8) bs)

/-- An `r/m16` operand (R122). -/
def decodeRegMem (f : RegMem → Instr) (modrm : Nat) (bs : List Byte) : Decoded :=
  if modrm / 64 = 3 then .instr (f (.reg (Reg.ofNum (modrm % 8))))
  else Decoded.ofOption (fun m => f (.mem m)) (decodeMem (modrm / 64) (modrm % 8) bs)

/-- The rows of opcode `FF` (R129, R131, R137). -/
def decodeFF : List Byte → Decoded
  | [] => .more
  | m :: bs =>
    match m.toNat / 8 % 8 with
    | 5 => decodeMemOnly .jmpMem m.toNat bs
    | 3 => decodeMemOnly .callMem m.toNat bs
    | _ => .noRow

/-- The rows of opcode `0F 00` (R134, R135, R137). -/
def decode0F : List Byte → Decoded
  | [] => .more
  | op :: bs =>
    if op.toNat = 0 then
      match bs with
      | [] => .more
      | m :: rest =>
        match m.toNat / 8 % 8 with
        | 3 => decodeRegMem .ltr m.toNat rest
        | 1 => decodeRegMem .str m.toNat rest
        | _ => .noRow
    else .noRow

/-- `INT n` after its opcode byte (R133). -/
def decodeInt : List Byte → Decoded
  | [] => .more
  | n :: _ => .instr (.intN n)

/-- The decoder (R136): total on every byte string; bytes after the instruction are not looked at. -/
def decode : List Byte → Decoded
  | [] => .more
  | b :: bs =>
    if b.toNat = 0xEA then decodeFarPtr .jmpPtr bs
    else if b.toNat = 0x9A then decodeFarPtr .callPtr bs
    else if b.toNat = 0xCF then .instr .iret
    else if b.toNat = 0xCD then decodeInt bs
    else if b.toNat = 0xFF then decodeFF bs
    else if b.toNat = 0x0F then decode0F bs
    else if isPrefixByte b.toNat then .prefixByte
    else .noRow

/-! ### Encoding -/

/-- The ModRM byte (R122). -/
def modrmByte (mod digit rm : Nat) : Byte := BitVec.ofNat 8 (mod * 64 + digit * 8 + rm)

/-- The SIB byte (R124). -/
def sibByte (scale : BitVec 2) (index base : Reg) : Byte :=
  BitVec.ofNat 8 (scale.toNat * 64 + index.num * 8 + base.num)

/-- The `mod` field that announces a displacement (R123). -/
def Disp.mod : Disp → Nat
  | .none => 0
  | .d8 _ => 1
  | .d32 _ => 2

/-- The bytes of a displacement (R125). -/
def Disp.bytes : Disp → List Byte
  | .none => []
  | .d8 v => [v]
  | .d32 v => leBytes 4 v.toNat

/-- ModRM, SIB and displacement of a memory operand with opcode extension `digit` (R123, R124). -/
def encodeMem (digit : Nat) : MemOp → List Byte
  | .base r d => modrmByte d.mod digit r.num :: d.bytes
  | .abs d => modrmByte 0 digit 5 :: leBytes 4 d.toNat
  | .sib sc ix b d => modrmByte d.mod digit 4 :: sibByte sc ix b :: d.bytes
  | .sibAbs sc ix d => modrmByte 0 digit 4 :: sibByte sc ix .ebp :: leBytes 4 d.toNat

/-- ModRM, SIB and displacement of an `r/m16` operand (R122). -/
def encodeRegMem (digit : Nat) : RegMem → List Byte
  | .reg r => [modrmByte 3 digit r.num]
  | .mem m => encodeMem digit m

/-- The bytes of an instruction (R128 to R135). -/
def encode : Instr → List Byte
  | .jmpPtr sel off => 0xEA#8 :: (leBytes 4 off.toNat ++ leBytes 2 sel.toNat)
  | .jmpMem m => 0xFF#8 :: encodeMem 5 m
  | .callPtr sel off => 0x9A#8 :: (leBytes 4 off.toNat ++ leBytes 2 sel.toNat)
  | .callMem m => 0xFF#8 :: encodeMem 3 m
  | .iret => [0xCF#8]
  | .intN n => [0xCD#8, n]
  | .ltr rm => 0x0F#8 :: 0x00#8 :: encodeRegMem 3 rm
  | .str rm => 0x0F#8 :: 0x00#8 :: encodeRegMem 1 rm

/-- The length of an instruction in bytes (R136). -/
def Instr.length (i : Instr) : Nat := (encode i).length

/-- The bytes of an instruction whose bits are numbered as opcode_table.json numbers them: the low `nbits`
bits of `w`, and zeros above them up to the longest instruction in scope, 8 bytes (R134). -/
def tableBytes (nbits w : Nat) : List Byte := leBytes 8 (w % 2 ^ nbits)

/-- The instruction the decoder reads from such bits, `none` where it gives no instruction. -/
def decodeTableWord (nbits w : Nat) : Option Instr :=
  match decode (tableBytes nbits w) with
  | .instr i => some i
  | .more => none
  | .illegal => none
  | .prefixByte => none
  | .noRow => none

end Sys2Proof
end

