-- ==== Sys2Proof/Config.lean ====
section
/-! DEFINITION. The parameters of 00_scope.md R4 that the spec leaves open, as constants without a body, and the
types they speak of. Nothing in Lean can evaluate one of them, so a statement holds whatever they are. -/

namespace Sys2Proof

/-- The exceptions of 60_exceptions.md R250. -/
inductive ExcName where
  | db | ud | nm | df | ts | np | ss | gp | pf
  deriving DecidableEq, Repr

/-- The error code an exception carries (R250, R258). -/
inductive ErrorCode where
  /-- The exception has none. -/
  | none
  /-- A 16-bit error code of R258. -/
  | value (c : BitVec 16)
  /-- A page fault's code, whose format no source gives (R255): a free value. -/
  | pageFault
  deriving DecidableEq, Repr

/-- An exception as `raise #XX(code)` names it (R256). -/
structure Exc where
  name : ExcName
  code : ErrorCode
  deriving DecidableEq, Repr

/-- What starts a task switch (41_task_dispatch.md R173). -/
inductive Initiator where
  | jmp | call | int | iret
  deriving DecidableEq, Repr

/-- The access kinds of `Translate` (20_memory.md R62, R63; "fetch" 30_encoding.md R136). -/
inductive Access where
  | read | write | fetch
  deriving DecidableEq, Repr

/-- `PHYS_BITS`: the width of a physical address when paging is on (R4, R61). -/
opaque Config.physBits : Nat

/-- `Translate`: linear to physical when CR0.PG = 1, `none` for a page fault (R63, D3: a function of CR0, CR3,
the linear address, the access kind and of memory as well; the level is 0 for the accesses the processor
makes for itself and the CPL for the others, R62). -/
opaque Config.translate (cr0 cr3 : Word) (mem : List Host.Cell) (lin : Word) (kind : Access)
    (level : BitVec 2) : Option (BitVec Config.physBits)

/-- `check_order`: which of several failing checks is reported (R205, D10, U1), as a number into the list of
the failing ones. -/
opaque Config.checkOrder : Initiator → List Exc → Nat

/-- `tss_pad_write`: what a save puts above a 16-bit selector in its slot (R101, D16), one value a draw. -/
opaque Config.padHalf : Nat → BitVec 16

/-- The error code a page fault pushes (R255: its format is in no source), one value a draw. -/
opaque Config.pageFaultCode : Nat → Word

end Sys2Proof
end

