-- ==== Sys2Proof/Machine/State.lean ====
section
/-! DEFINITION. The state of the machine (10_state.md, 20_memory.md), what can stop it, and the state after reset. -/

namespace Sys2Proof.Machine

/-- Why the machine stops with a fault: the model faults the spec names (70_reset_and_hazards.md R322). -/
inductive Fault where
  /-- A read of a byte of memory that nothing has written (10_state.md R50, R301). Raised by every read of
  memory. Safe: the hardware goes on with some byte. Registers never raise it (log 1). -/
  | readOfUnwritten
  /-- An access to a physical address of more than `PHYS_BITS` bits, which does not exist (R61). Raised by a
  TSS access that runs past the end of physical memory (R104). Safe. -/
  | noSuchAddress
  /-- An exception raised while an exception is being delivered (60_exceptions.md R256, R271). Raised by
  `takeException`. Safe: the double-fault rules are in no source. -/
  | nestedFault
  /-- A translation that fails in step 12 of a task switch (42_task_switch.md R234). Raised by `startTask`.
  Safe. -/
  | corruptState
  /-- The T flag of the new task set together with a step-13 or EIP-limit fault (R239). Raised by
  `startTask`. Safe. -/
  | debugTrapWithSwitchFault
  deriving DecidableEq, Repr

/-- Why the model gives no meaning to what the machine is asked to do: the refusals the spec names (R322). -/
inductive Refusal where
  /-- An instruction that has no meaning yet (a row of opcode_table.json). Raised by `exec` only. Safe. -/
  | notModelled (mnemonic : String)
  /-- CR0.PE = 0 or EFLAGS.VM = 1 (10_state.md R41). Raised by `nextAction` and every meaning. Safe. -/
  | modeNotModelled
  /-- No row of the opcode table matches (30_encoding.md R137). Raised by `nextAction`. Safe. -/
  | opcodeNotModelled
  /-- The instruction begins with a prefix byte (R121). Raised by `nextAction`. Safe. -/
  | prefixNotModelled
  /-- The code segment has `db = 0` (R121). Raised by `nextAction`. Safe. -/
  | sixteenBitCode
  /-- A 16-bit TSS descriptor (20_memory.md R79, D24). Raised by LTR and by every dispatch of a task. Safe. -/
  | sixteenBitTss
  /-- A call, interrupt or trap gate (R79, 41_task_dispatch.md R177, R183). Raised by a dispatch. Safe. -/
  | gateNotModelled
  /-- A far transfer to a code or data segment (R177). Raised by JMP and CALL. Safe. -/
  | farTransferNotModelled
  /-- IRET with NT = 0 (R181). Raised by IRET. Safe. -/
  | iretWithoutNtNotModelled
  /-- A task whose EFLAGS has VM = 1 (42_task_switch.md R232). Raised by `startTask`. Safe. -/
  | v86NotModelled
  deriving DecidableEq, Repr

/-- What ends an operation early: an exception still to be delivered (60_exceptions.md R256), a fault of the
model, or a refusal by name (00_scope.md R8). -/
inductive Stop where
  | raise (e : Exc)
  | fault (f : Fault)
  | refused (r : Refusal)
  deriving DecidableEq, Repr

/-- The result of an operation of the machine: a value, or what ended it early. -/
abbrev Res (α : Type) := Except Stop α

/-- The general registers (10_state.md R20). -/
structure Gprs where
  eax : Word
  ecx : Word
  edx : Word
  ebx : Word
  esp : Word
  ebp : Word
  esi : Word
  edi : Word
  deriving DecidableEq, Repr

/-- A segment register: the selector and the hidden part (R28, R30). -/
structure SegReg where
  selector : Selector
  base : Word
  limit : Word
  type : BitVec 4
  s : Bool
  dpl : BitVec 2
  p : Bool
  db : Bool
  g : Bool
  valid : Bool
  deriving DecidableEq, Repr

/-- The names of the six segment registers (R28). -/
inductive SegName where
  | cs | ss | ds | es | fs | gs
  deriving DecidableEq, Repr

/-- The six segment registers (R28). -/
structure Segs where
  cs : SegReg
  ss : SegReg
  ds : SegReg
  es : SegReg
  fs : SegReg
  gs : SegReg
  deriving DecidableEq, Repr

/-- GDTR or IDTR: base and limit (R32, R33). -/
structure TableReg where
  base : Word
  limit : BitVec 16
  deriving DecidableEq, Repr

/-- The attributes of a system descriptor as TR and LDTR cache them (R34, R35). -/
structure Attr where
  type : BitVec 4
  dpl : BitVec 2
  p : Bool
  g : Bool
  deriving DecidableEq, Repr

/-- The task register (R35 to R38). -/
structure TaskReg where
  selector : Selector
  base : Word
  limit : Word
  attr : Attr
  deriving DecidableEq, Repr

/-- The LDTR (R34). -/
structure LdtReg where
  selector : Selector
  base : Word
  limit : Word
  attr : Attr
  valid : Bool
  deriving DecidableEq, Repr

/-- Memory: bytes by physical address, addresses strictly rising (20_memory.md R60). An address that is not
listed holds no value (10_state.md R49, R50; log 3). -/
abbrev Memory := List Host.Cell

/-- The state of the machine (10_state.md, 20_memory.md R60). -/
structure State where
  gprs : Gprs
  eip : Word
  eflags : Word
  segs : Segs
  gdtr : TableReg
  idtr : TableReg
  ldtr : LdtReg
  tr : TaskReg
  cr0 : Word
  cr3 : Word
  mem : Memory
  /-- The model's own counter of free values drawn so far (log 11). -/
  draws : Nat
  deriving DecidableEq, Repr

/-- A data segment register as the family leaves it at reset (PRESUMED, log 1). -/
def resetDataSeg : SegReg where
  selector := 0
  base := 0
  limit := 0xFFFF
  type := 3
  s := true
  dpl := 0
  p := true
  db := false
  g := false
  valid := true

/-- The machine after power-up or reset. TR is the spec's (70_reset_and_hazards.md R300); every other register
holds the family's reset value, since the spec gives none (R301; PRESUMED, log 1); memory lists nothing
(R49). -/
def State.reset : State where
  gprs := { eax := 0, ecx := 0, edx := 0x600, ebx := 0, esp := 0, ebp := 0, esi := 0, edi := 0 }
  eip := 0xFFF0
  eflags := 2
  segs :=
    { cs := { resetDataSeg with selector := 0xF000, base := 0xFFFF0000 }
      ss := resetDataSeg
      ds := resetDataSeg
      es := resetDataSeg
      fs := resetDataSeg
      gs := resetDataSeg }
  gdtr := { base := 0, limit := 0xFFFF }
  idtr := { base := 0, limit := 0xFFFF }
  ldtr := { selector := 0, base := 0, limit := 0xFFFF
            attr := { type := 2, dpl := 0, p := true, g := false }, valid := true }
  tr := { selector := 0, base := 0, limit := 0xFFFF
          attr := { type := 11, dpl := 0, p := true, g := false } }
  cr0 := 0x60000010
  cr3 := 0
  mem := []
  draws := 0

end Sys2Proof.Machine
end

