-- ==== Sys2Proof/Machine/Registers.lean ====
section
/-! DEFINITION. Reading and writing the registers: one named update per field of the state, every access to a
register by its number or name, and the ways an operation ends early. -/

namespace Sys2Proof.Machine

/-! ### Ending an operation early (00_scope.md R8) -/

/-- `raise #XX` of an exception without an error code (60_exceptions.md R250). -/
def exc (n : ExcName) : Exc := { name := n, code := .none }

/-- `raise #XX(code)` (R256). -/
def excCode (n : ExcName) (c : BitVec 16) : Exc := { name := n, code := .value c }

/-- A page fault, whose error code is a free value (R255). -/
def excPf : Exc := { name := .pf, code := .pageFault }

/-- Abandon the operation with an exception (R256). -/
def raise (e : Exc) : Res α := .error (.raise e)

/-- Refuse by name (00_scope.md R8). -/
def refuse (r : Refusal) : Res α := .error (.refused r)

/-- Go on only if the condition holds, else raise (R256). -/
def require (c : Bool) (e : Exc) : Res Unit := if c then .ok () else raise e

/-! ### General registers (10_state.md R20, R21) -/

/-- `x[i]` of 00_scope.md R8. -/
def State.gpr (s : State) : Reg → Word
  | .eax => s.gprs.eax
  | .ecx => s.gprs.ecx
  | .edx => s.gprs.edx
  | .ebx => s.gprs.ebx
  | .esp => s.gprs.esp
  | .ebp => s.gprs.ebp
  | .esi => s.gprs.esi
  | .edi => s.gprs.edi

/-- All eight registers with one of them replaced. -/
def Gprs.set (g : Gprs) (r : Reg) (v : Word) : Gprs :=
  match r with
  | .eax => { g with eax := v }
  | .ecx => { g with ecx := v }
  | .edx => { g with edx := v }
  | .ebx => { g with ebx := v }
  | .esp => { g with esp := v }
  | .ebp => { g with ebp := v }
  | .esi => { g with esi := v }
  | .edi => { g with edi := v }

/-- Replace all eight general registers. -/
def State.withGprs (s : State) (g : Gprs) : State := { s with gprs := g }

/-- `x[i] <- v` of 00_scope.md R8. -/
def State.withGpr (s : State) (r : Reg) (v : Word) : State := s.withGprs (s.gprs.set r v)

/-- `x16[i]`: the low half of a general register (R21). -/
def State.gpr16 (s : State) (r : Reg) : Selector := (s.gpr r).setWidth 16

/-! ### The other registers -/

/-- Write EIP (R23). -/
def State.withEip (s : State) (v : Word) : State := { s with eip := v }

/-- Write EFLAGS (R25). -/
def State.withEflags (s : State) (v : Word) : State := { s with eflags := v }

/-- Replace all six segment registers (R28). -/
def State.withSegs (s : State) (g : Segs) : State := { s with segs := g }

/-- A segment register by its name (R28). -/
def Segs.get (g : Segs) : SegName → SegReg
  | .cs => g.cs
  | .ss => g.ss
  | .ds => g.ds
  | .es => g.es
  | .fs => g.fs
  | .gs => g.gs

/-- All six segment registers with one of them replaced. -/
def Segs.set (g : Segs) (n : SegName) (r : SegReg) : Segs :=
  match n with
  | .cs => { g with cs := r }
  | .ss => { g with ss := r }
  | .ds => { g with ds := r }
  | .es => { g with es := r }
  | .fs => { g with fs := r }
  | .gs => { g with gs := r }

/-- A segment register of the state by its name. -/
def State.seg (s : State) (n : SegName) : SegReg := s.segs.get n

/-- Write a segment register (R31). -/
def State.withSeg (s : State) (n : SegName) (r : SegReg) : State := s.withSegs (s.segs.set n r)

/-- Write the LDTR (R34). -/
def State.withLdtr (s : State) (r : LdtReg) : State := { s with ldtr := r }

/-- Write the task register (R37). -/
def State.withTr (s : State) (r : TaskReg) : State := { s with tr := r }

/-- Write CR0 (R39). -/
def State.withCr0 (s : State) (v : Word) : State := { s with cr0 := v }

/-- Write CR3 (R42). -/
def State.withCr3 (s : State) (v : Word) : State := { s with cr3 := v }

/-- Replace the memory (20_memory.md R60). -/
def State.withMem (s : State) (m : Memory) : State := { s with mem := m }

/-- Count `n` more free values as drawn (log 11). -/
def State.withDraws (s : State) (n : Nat) : State := { s with draws := n }

/-! ### Mode and privilege -/

/-- The current privilege level: bits 1:0 of the CS selector (10_state.md R29). -/
def State.cpl (s : State) : BitVec 2 := s.segs.cs.selector.setWidth 2

/-- `next_eip`: the offset after an instruction, modulo 2^32 (R23, 30_encoding.md R136). -/
def State.nextEip (s : State) (i : Instr) : Word := s.eip + BitVec.ofNat 32 i.length

end Sys2Proof.Machine
end

