-- ==== Sys2Proof/Machine/Flags.lean ====
section
/-! DEFINITION. The flags: the bits of EFLAGS and CR0 that a rule reads or writes (10_state.md R25 to R27, R39 to
R41), and the EFLAGS value a task switch saves and loads (42_task_switch.md R215, R219, R232). -/

namespace Sys2Proof.Machine

/-! ### EFLAGS (R25) -/

/-- NT, the nested-task flag: bit 14 (R26). -/
def eflagsNt (f : Word) : Bool := f.getLsbD 14

/-- IF, the interrupt-enable flag: bit 9 (R27). -/
def eflagsIf (f : Word) : Bool := f.getLsbD 9

/-- VM, virtual-8086 mode: bit 17 (R27). -/
def eflagsVm (f : Word) : Bool := f.getLsbD 17

/-- EFLAGS with NT set (R219). -/
def setNt (f : Word) : Word := f ||| 0x00004000#32

/-- EFLAGS with NT cleared (R215). -/
def clearNt (f : Word) : Word := f &&& 0xFFFFBFFF#32

/-- Reserved bits forced on a load from a TSS (R232). -/
def maskEflags (f : Word) : Word := (f &&& 0x003F7FD5#32) ||| 0x00000002#32

/-- `CALL` and the interrupts nest the new task in the old one; `JMP` and `IRET` do not (R173). -/
def nests : Initiator → Bool
  | .call => true
  | .int => true
  | .jmp => false
  | .iret => false

/-- Step 7: the EFLAGS image saved for the old task (R215). -/
def savedEflags (init : Initiator) (f : Word) : Word :=
  match init with
  | .iret => clearNt f
  | .jmp => f
  | .call => f
  | .int => f

/-- Step 9: the value loaded for the new task, before its reserved bits are forced (R219). -/
def incomingEflags (init : Initiator) (f : Word) : Word := if nests init then setNt f else f

/-! ### CR0 (R39) -/

/-- PE, protection enable: bit 0. -/
def cr0Pe (c : Word) : Bool := c.getLsbD 0

/-- TS, task switched: bit 3 (R40). -/
def cr0Ts (c : Word) : Bool := c.getLsbD 3

/-- PG, paging: bit 31 (R41). -/
def cr0Pg (c : Word) : Bool := c.getLsbD 31

/-- CR0 with TS set (R229). -/
def setTs (c : Word) : Word := c ||| 0x00000008#32

/-- CR0.PG of the state. -/
def State.paging (s : State) : Bool := cr0Pg s.cr0

/-- The mode the mechanism works in: CR0.PE = 1 and EFLAGS.VM = 0 (R41). -/
def State.inProtectedMode (s : State) : Bool := cr0Pe s.cr0 && !eflagsVm s.eflags

/-- The first line of every instruction rule: any other mode is refused (R27, R41). -/
def requireProtected (s : State) : Res Unit :=
  if s.inProtectedMode then .ok () else refuse .modeNotModelled

end Sys2Proof.Machine
end

