-- ==== Sys2Proof/Machine/Memory.lean ====
section
/-! DEFINITION. Memory and the access primitives of 00_scope.md R8: `MemRead`, `MemWrite` (20_memory.md R62),
`SegRead`, `SegWrite` (R67), `TssRead`, `TssWrite` (R104). -/

namespace Sys2Proof.Machine

/-! ### Bytes by physical address (R60) -/

/-- The canonical form: addresses strictly rising. No listed byte can equal what an unlisted address reads as,
since that has no value (log 3). -/
abbrev Memory.wf (m : Memory) : Prop := m.Pairwise (fun x y => x.1 < y.1)

/-- The byte at an address, `none` where nothing has been written (10_state.md R49, R50). -/
def Memory.read : Memory → Nat → Option Byte
  | [], _ => none
  | c :: m, a => if c.1 = a then some c.2 else Memory.read m a

/-- Write one byte, keeping the list in rising order. -/
def Memory.write : Memory → Nat → Byte → Memory
  | [], a, v => [(a, v)]
  | c :: m, a, v =>
    if a < c.1 then (a, v) :: c :: m
    else if a = c.1 then (a, v) :: m
    else c :: Memory.write m a v

/-! ### Physical accesses -/

/-- The width of a physical address: 32 when paging is off, `PHYS_BITS` when it is on (R61). -/
def State.physWidth (s : State) : Nat := if s.paging then Config.physBits else 32

/-- An address outside the physical address space does not exist (R61). -/
def checkPhys (s : State) (pa : Nat) : Res Unit :=
  if pa < 2 ^ s.physWidth then .ok () else .error (.fault .noSuchAddress)

/-- Read one byte of physical memory; a byte nothing has written has no value (10_state.md R50). -/
def readPhys (s : State) (pa : Nat) : Res Byte := do
  checkPhys s pa
  match s.mem.read pa with
  | some b => .ok b
  | none => .error (.fault .readOfUnwritten)

/-- Write one byte of physical memory. -/
def writePhys (s : State) (pa : Nat) (v : Byte) : Res State := do
  checkPhys s pa
  .ok (s.withMem (s.mem.write pa v))

/-- Read bytes at a list of physical addresses. -/
def readList (s : State) : List Nat → Res (List Byte)
  | [] => .ok []
  | pa :: pas => do
    let b ← readPhys s pa
    let bs ← readList s pas
    .ok (b :: bs)

/-- Write bytes at a list of physical addresses, in order. -/
def writeList (s : State) : List Nat → List Byte → Res State
  | pa :: pas, v :: vs => do
    let s' ← writePhys s pa v
    writeList s' pas vs
  | _, _ => .ok s

/-! ### Linear accesses (R62, R63) -/

/-- `Translate`: the identity when CR0.PG = 0, else the open parameter; a failure is `#PF` (R63). -/
def translate (s : State) (kind : Access) (level : BitVec 2) (lin : Word) : Res Nat :=
  if s.paging then
    match Config.translate s.cr0 s.cr3 s.mem lin kind level with
    | some pa => .ok pa.toNat
    | none => raise excPf
  else .ok lin.toNat

/-- The physical addresses of the bytes at `lin`, `lin + 1`, ..., modulo 2^32 (R62). -/
def translateBytes (s : State) (kind : Access) (level : BitVec 2) : Nat → Word → Res (List Nat)
  | 0, _ => .ok []
  | n + 1, lin => do
    let pa ← translate s kind level lin
    let pas ← translateBytes s kind level n (lin + 1)
    .ok (pa :: pas)

/-- `MemRead(lin, n)` (R62), little-endian (R65). -/
def memRead (s : State) (kind : Access) (level : BitVec 2) (lin : Word) (n : Nat) : Res Nat := do
  let pas ← translateBytes s kind level n lin
  let bs ← readList s pas
  .ok (leNat bs)

/-- `MemWrite(lin, n, v)` (R62): every byte is translated before any is written. -/
def memWrite (s : State) (level : BitVec 2) (lin : Word) (n : Nat) (v : Nat) : Res State := do
  let pas ← translateBytes s .write level n lin
  writeList s pas (leBytes n v)

/-- A read the processor makes for itself: supervisor level whatever the CPL (R62). -/
def sysRead (s : State) (lin : Word) (n : Nat) : Res Nat := memRead s .read 0 lin n

/-- A write the processor makes for itself (R62). -/
def sysWrite (s : State) (lin : Word) (n : Nat) (v : Nat) : Res State := memWrite s 0 lin n v

/-! ### Accesses through a segment register (R67) -/

/-- A code segment: type bit 3 (42_task_switch.md R236). -/
def SegReg.isCode (r : SegReg) : Bool := r.s && r.type.getLsbD 3

/-- A data segment. -/
def SegReg.isData (r : SegReg) : Bool := r.s && !r.type.getLsbD 3

/-- A data segment or a readable code segment (R67). -/
def SegReg.readable (r : SegReg) : Bool := r.s && (!r.type.getLsbD 3 || r.type.getLsbD 1)

/-- A writable data segment (R67). -/
def SegReg.writable (r : SegReg) : Bool := r.isData && r.type.getLsbD 1

/-- An expand-down data segment: type bit 2 of a data segment (PRESUMED, log 13). -/
def SegReg.expandDown (r : SegReg) : Bool := r.isData && r.type.getLsbD 2

/-- The limit check of R67: the last byte within the limit and no wrap past 2^32. For an expand-down segment
R67 states nothing: the family's rule (PRESUMED, log 13). -/
def SegReg.within (r : SegReg) (off : Word) (n : Nat) : Bool :=
  if r.expandDown then
    decide (r.limit.toNat < off.toNat) &&
      decide (off.toNat + n ≤ (if r.db then 0x100000000 else 0x10000))
  else decide (off.toNat + n ≤ r.limit.toNat + 1)

/-- The exception of a failed check through a segment register: `#SS(0)` for SS, else `#GP(0)` (R67). -/
def segExc (n : SegName) : Exc :=
  match n with
  | .ss => excCode .ss 0
  | .cs => excCode .gp 0
  | .ds => excCode .gp 0
  | .es => excCode .gp 0
  | .fs => excCode .gp 0
  | .gs => excCode .gp 0

/-- The rights an access kind needs (R67; a fetch needs a code segment, 30_encoding.md R136). -/
def SegReg.allows (r : SegReg) : Access → Bool
  | .read => r.readable
  | .write => r.writable
  | .fetch => r.isCode

/-- The checks of R67, in its order: valid, limit, rights. -/
def segCheck (s : State) (seg : SegName) (kind : Access) (off : Word) (n : Nat) : Res Unit := do
  require (s.seg seg).valid (segExc seg)
  require ((s.seg seg).within off n) (segExc seg)
  require ((s.seg seg).allows kind) (excCode .gp 0)

/-- The linear address of an offset in a segment (R67). -/
def segLinear (s : State) (seg : SegName) (off : Word) : Word := (s.seg seg).base + off

/-- `SegRead(seg, off, n)` (R67), also for the fetch (30_encoding.md R136). -/
def segRead (s : State) (seg : SegName) (kind : Access) (off : Word) (n : Nat) : Res Nat := do
  segCheck s seg kind off n
  memRead s kind s.cpl (segLinear s seg off) n

/-- `SegWrite(seg, off, n, v)` (R67). -/
def segWrite (s : State) (seg : SegName) (off : Word) (n : Nat) (v : Nat) : Res State := do
  segCheck s seg .write off n
  memWrite s s.cpl (segLinear s seg off) n v

/-! ### Accesses to a TSS (R104) -/

/-- The physical addresses of `n` bytes at offset `off` of a TSS whose first byte is at `pa0`: contiguous from
it (R104). With paging off they are the linear addresses, which wrap modulo 2^32 (R61, R62). -/
def tssAddrs (s : State) (pa0 off n : Nat) : List Nat :=
  (List.range n).map fun i =>
    if s.paging then pa0 + off + i else (pa0 + off + i) % 0x100000000

/-- `TssRead(base, off, n)` (R104): only byte 0 of the TSS is translated. -/
def tssRead (s : State) (base : Word) (off n : Nat) : Res Nat := do
  let pa0 ← translate s .read 0 base
  let bs ← readList s (tssAddrs s pa0 off n)
  .ok (leNat bs)

/-- `TssWrite(base, off, n, v)` (R104). -/
def tssWrite (s : State) (base : Word) (off n v : Nat) : Res State := do
  let pa0 ← translate s .write 0 base
  writeList s (tssAddrs s pa0 off n) (leBytes n v)

/-- Several writes to one TSS: offset, size and value of each, in order. -/
def tssWriteAll (s : State) (base : Word) : List (Nat × Nat × Nat) → Res State
  | [] => .ok s
  | e :: es => do
    let s' ← tssWrite s base e.1 e.2.1 e.2.2
    tssWriteAll s' base es

end Sys2Proof.Machine
end

