-- ==== Sys2Proof/Machine/Descriptor.lean ====
section
/-! DEFINITION. Selectors, descriptors, gates and the tables that hold them (20_memory.md R70 to R94), the busy flag
(R76) and error codes (60_exceptions.md R258). -/

namespace Sys2Proof.Machine

/-! ### Selectors (R70, R71) -/

/-- Bits 15:3, the number of the descriptor in its table. -/
def selIndex (sel : Selector) : Nat := sel.toNat / 8

/-- TI, bit 2: the current LDT. -/
def selTi (sel : Selector) : Bool := sel.getLsbD 2

/-- RPL, bits 1:0. -/
def selRpl (sel : Selector) : BitVec 2 := sel.setWidth 2

/-- A null selector: bits 15:2 all 0 (R71). -/
def selNull (sel : Selector) : Bool := sel &&& 0xFFFC#16 == 0#16

/-- The error code of a selector (60_exceptions.md R258): its RPL bits replaced by EXT and 0. -/
def selCode (sel : Selector) (ext : Bool) : BitVec 16 :=
  (sel &&& 0xFFFC#16) ||| (if ext then 1#16 else 0#16)

/-- The error code of an IDT vector (R258): `8 * v + 2 + ext`. -/
def vectorCode (v : Byte) (ext : Bool) : BitVec 16 :=
  BitVec.ofNat 16 (8 * v.toNat + 2 + (if ext then 1 else 0))

/-! ### Descriptor fields (R77, R78) -/

/-- The base address (R77). -/
def descBase (d : Desc) : Word := d.extractLsb' 56 8 ++ d.extractLsb' 32 8 ++ d.extractLsb' 16 16

/-- The 20-bit raw limit (R77). -/
def descRawLimit (d : Desc) : BitVec 20 := d.extractLsb' 48 4 ++ d.extractLsb' 0 16

/-- The type field. -/
def descType (d : Desc) : BitVec 4 := d.extractLsb' 40 4

/-- S: 1 for a code or data segment, 0 for a system descriptor. -/
def descS (d : Desc) : Bool := d.getLsbD 44

/-- DPL. -/
def descDpl (d : Desc) : BitVec 2 := d.extractLsb' 45 2

/-- P, present. -/
def descP (d : Desc) : Bool := d.getLsbD 47

/-- D/B. -/
def descDb (d : Desc) : Bool := d.getLsbD 54

/-- G, granularity. -/
def descG (d : Desc) : Bool := d.getLsbD 55

/-- The effective limit: the offset of the last valid byte (R78). -/
def descLimit (d : Desc) : Word :=
  if descG d then ((descRawLimit d).setWidth 32 <<< 12) ||| 0xFFF#32 else (descRawLimit d).setWidth 32

/-- The busy flag of a TSS descriptor: bit 41 (R81, R82). -/
def descBusy (d : Desc) : Bool := d.getLsbD 41

/-- A 32-bit TSS descriptor, available (1001B) or busy (1011B) (R82). -/
def isTss32 (d : Desc) : Bool := !descS d && (descType d == 9#4 || descType d == 11#4)

/-- A 16-bit TSS descriptor (R79). -/
def isTss16 (d : Desc) : Bool := !descS d && (descType d == 1#4 || descType d == 3#4)

/-- A call gate, 16-bit or 32-bit (R79). -/
def isCallGate (d : Desc) : Bool := !descS d && (descType d == 4#4 || descType d == 12#4)

/-- An interrupt or trap gate, 16-bit or 32-bit (R79). -/
def isIntGate (d : Desc) : Bool :=
  !descS d && (descType d == 6#4 || descType d == 7#4 || descType d == 14#4 || descType d == 15#4)

/-- A task gate: type 0101B (R92). -/
def isTaskGate (d : Desc) : Bool := !descS d && descType d == 5#4

/-- An LDT descriptor: type 0010B (R79). -/
def isLdt (d : Desc) : Bool := !descS d && descType d == 2#4

/-- The TSS selector a task gate holds (R92, R93). -/
def gateSel (d : Desc) : Selector := d.extractLsb' 16 16

/-- A code segment's descriptor: S = 1 and type bit 3 = 1. -/
def isCodeDesc (d : Desc) : Bool := descS d && (descType d).getLsbD 3

/-- A conforming code segment: type bit 2. -/
def isConforming (d : Desc) : Bool := isCodeDesc d && (descType d).getLsbD 2

/-- A writable data segment's descriptor: type bit 3 = 0 and bit 1 = 1. -/
def isWritableData (d : Desc) : Bool := descS d && !(descType d).getLsbD 3 && (descType d).getLsbD 1

/-- A data segment or a readable code segment. -/
def isReadableDesc (d : Desc) : Bool := descS d && (!(descType d).getLsbD 3 || (descType d).getLsbD 1)

/-- The attributes a system register caches, with the type given. -/
def descAttr (d : Desc) (type : BitVec 4) : Attr :=
  { type := type, dpl := descDpl d, p := descP d, g := descG d }

/-! ### Tables (R72 to R75) -/

/-- `GdtAddr(sel)` modulo 2^32 (R72). -/
def gdtAddr (s : State) (sel : Selector) : Word := s.gdtr.base + BitVec.ofNat 32 (8 * selIndex sel)

/-- The lookup is within the GDT (R72). -/
def inGdt (s : State) (sel : Selector) : Bool := decide (8 * selIndex sel + 7 ≤ s.gdtr.limit.toNat)

/-- `LdtAddr(sel)` modulo 2^32 (R73). -/
def ldtAddr (s : State) (sel : Selector) : Word := s.ldtr.base + BitVec.ofNat 32 (8 * selIndex sel)

/-- The lookup is within the current LDT (R73). -/
def inLdt (s : State) (sel : Selector) : Bool :=
  s.ldtr.valid && decide (8 * selIndex sel + 7 ≤ s.ldtr.limit.toNat)

/-- `IdtAddr(v)` modulo 2^32 (R75). -/
def idtAddr (s : State) (v : Byte) : Word := s.idtr.base + BitVec.ofNat 32 (8 * v.toNat)

/-- The vector is within the IDT (R75). -/
def inIdt (s : State) (v : Byte) : Bool := decide (8 * v.toNat + 7 ≤ s.idtr.limit.toNat)

/-- The 8 bytes of a descriptor (R74). -/
def readDescAt (s : State) (lin : Word) : Res Desc := do
  let d ← sysRead s lin 8
  .ok (BitVec.ofNat 64 d)

/-- `ReadDesc(sel)`: `none` stands for `OutOfTable` (R74). -/
def readDesc (s : State) (sel : Selector) : Res (Option Desc) :=
  if selTi sel then
    if inLdt s sel then (readDescAt s (ldtAddr s sel)).map some else .ok none
  else if inGdt s sel then (readDescAt s (gdtAddr s sel)).map some
  else .ok none

/-- Byte 5 of a TSS descriptor with the busy flag put to `b` (R76). -/
def busyByte (t : Byte) (b : Bool) : Byte := (t &&& 0xFD#8) ||| (if b then 2#8 else 0#8)

/-- `SetBusy(sel, b)` (R76): byte 5 of the descriptor in the GDT is read and written, nothing else. -/
def setBusy (s : State) (sel : Selector) (b : Bool) : Res State := do
  let t ← sysRead s (gdtAddr s sel + 5) 1
  sysWrite s (gdtAddr s sel + 5) 1 (busyByte (BitVec.ofNat 8 t) b).toNat

/-- The hidden part of a segment register as its descriptor gives it, valid (10_state.md R30, R236). -/
def SegReg.load (r : SegReg) (d : Desc) : SegReg :=
  { selector := r.selector, base := descBase d, limit := descLimit d, type := descType d, s := descS d
    dpl := descDpl d, p := descP d, db := descDb d, g := descG d, valid := true }

/-- A segment register that holds only a selector: its hidden part is not valid (R230). -/
def SegReg.select (r : SegReg) (sel : Selector) : SegReg := { r with selector := sel, valid := false }

/-- The hidden part of the LDTR as its descriptor gives it, valid (R34, R236). -/
def LdtReg.load (r : LdtReg) (d : Desc) : LdtReg :=
  { selector := r.selector, base := descBase d, limit := descLimit d
    attr := descAttr d (descType d), valid := true }

/-- An LDTR that holds only a selector (R230, R233). -/
def LdtReg.select (r : LdtReg) (sel : Selector) : LdtReg := { r with selector := sel, valid := false }

/-- The task register as a TSS descriptor gives it, busy (R150, 42_task_switch.md R223). -/
def taskReg (sel : Selector) (d : Desc) : TaskReg :=
  { selector := sel, base := descBase d, limit := descLimit d, attr := descAttr d 11 }

end Sys2Proof.Machine
end

