-- ==== Sys2Proof/Machine/TaskSwitch.lean ====
section
/-! DEFINITION. The task-switch operation (42_task_switch.md R200 to R245): the checks of phase 1, the writes of
phase 2 up to the commit, and the load, qualification and start of phase 3. -/

namespace Sys2Proof.Machine

/-- A state after a task switch has committed, with the exception still to be delivered in the context of the
new task, if there is one (R237, R239, R241). Instructions that switch no task leave none. -/
structure Switched where
  state : State
  pending : Option Exc
  deriving DecidableEq, Repr

/-! ### Reporting a failing check (R205) -/

/-- One of the failing checks, whichever the parameter `check_order` picks (R205, log 6). -/
def pickExc (init : Initiator) (e : Exc) (es : List Exc) : Exc :=
  (e :: es).getD (Config.checkOrder init (e :: es) % (es.length + 1)) e

/-- The exception reported for a list of failing checks, given in the default order; `none` when none fails. -/
def reported (init : Initiator) : List Exc → Option Exc
  | [] => none
  | [e] => some e
  | e :: es => some (pickExc init e es)

/-- Raise the reported exception if a check fails (R205). -/
def requireNone (init : Initiator) (fails : List Exc) : Res Unit :=
  match reported init fails with
  | none => .ok ()
  | some e => raise e

/-- A check as a list of failures: empty when it holds. -/
def check (c : Bool) (e : Exc) : List Exc := if c then [] else [e]

/-! ### Phase 1: the checks of steps 3 to 5 -/

/-- Step 6 clears the old task's busy flag for `JMP` and `IRET` only (R214). -/
def leavesOld : Initiator → Bool
  | .jmp => true
  | .iret => true
  | .call => false
  | .int => false

/-- Step 10 sets the new task's busy flag for every initiator but `IRET` (R220). -/
def marksNew : Initiator → Bool
  | .jmp => true
  | .call => true
  | .int => true
  | .iret => false

/-- Whether a linear address translates for a supervisor access of that kind. -/
def mapped (s : State) (kind : Access) (lin : Word) : Bool :=
  match translate s kind 0 lin with
  | .ok _ => true
  | .error _ => false

/-- Step 5: the translations that the writes and the TSS reads will need succeed (R206). -/
def pagedIn (init : Initiator) (nsel : Selector) (nd : Desc) (s : State) : Bool :=
  mapped s .write s.tr.base && mapped s .read (descBase nd) &&
    (!nests init || mapped s .write (descBase nd)) &&
    (!leavesOld init || mapped s .write (gdtAddr s s.tr.selector + 5)) &&
    (!marksNew init || mapped s .write (gdtAddr s nsel + 5))

/-- Step 4: the new task is available, or busy for `IRET`; which exception else (R204, R209). -/
def busyCheck (init : Initiator) (code : BitVec 16) (nd : Desc) : List Exc :=
  match init with
  | .iret => check (descBusy nd) (excCode .ts code)
  | .jmp => check (!descBusy nd) (excCode .gp code)
  | .call => check (!descBusy nd) (excCode .gp code)
  | .int => check (!descBusy nd) (excCode .gp code)

/-- The failing checks of steps 3 to 5, in the default order: present (R203), limit (R207), busy (R204), paged
in (R206). -/
def switchFailures (init : Initiator) (nsel : Selector) (nd : Desc) (ext : Bool) (s : State) : List Exc :=
  check (descP nd) (excCode .np (selCode nsel ext)) ++
  check (decide (0x67 ≤ (descLimit nd).toNat)) (excCode .ts (selCode nsel ext)) ++
  busyCheck init (selCode nsel ext) nd ++
  check (pagedIn init nsel nd s) excPf

/-! ### Phase 2: steps 6 to 11 -/

/-- What step 8 writes into the old TSS: offset, size, value (R216); the reserved half above each selector is a
free value (R101). -/
def savedFields (ret img : Word) (s : State) : List (Nat × Nat × Nat) :=
  [ (32, 4, ret.toNat), (36, 4, img.toNat),
    (40, 4, s.gprs.eax.toNat), (44, 4, s.gprs.ecx.toNat), (48, 4, s.gprs.edx.toNat), (52, 4, s.gprs.ebx.toNat),
    (56, 4, s.gprs.esp.toNat), (60, 4, s.gprs.ebp.toNat), (64, 4, s.gprs.esi.toNat), (68, 4, s.gprs.edi.toNat),
    (72, 2, s.segs.es.selector.toNat), (76, 2, s.segs.cs.selector.toNat), (80, 2, s.segs.ss.selector.toNat),
    (84, 2, s.segs.ds.selector.toNat), (88, 2, s.segs.fs.selector.toNat), (92, 2, s.segs.gs.selector.toNat),
    (74, 2, (Config.padHalf s.draws).toNat), (78, 2, (Config.padHalf (s.draws + 1)).toNat),
    (82, 2, (Config.padHalf (s.draws + 2)).toNat), (86, 2, (Config.padHalf (s.draws + 3)).toNat),
    (90, 2, (Config.padHalf (s.draws + 4)).toNat), (94, 2, (Config.padHalf (s.draws + 5)).toNat) ]

/-- Step 8: save the old task's dynamic fields (R216 to R218). -/
def saveTask (ret img : Word) (s : State) : Res State := do
  let s' ← tssWriteAll s s.tr.base (savedFields ret img s)
  .ok (s'.withDraws (s.draws + 6))

/-- An operation that only some initiators make. -/
def applyIf (c : Bool) (f : State → Res State) (s : State) : Res State := if c then f s else .ok s

/-- Steps 6 to 11 up to the commit (R211 to R223, R229): the busy flags, the save, the link, TR and CR0.TS. -/
def commitSwitch (init : Initiator) (nsel : Selector) (nd : Desc) (ret : Word) (s : State) : Res State := do
  let s1 ← applyIf (leavesOld init) (fun u => setBusy u s.tr.selector false) s
  let s2 ← saveTask ret (savedEflags init s.eflags) s1
  let s3 ← applyIf (marksNew init) (fun u => setBusy u nsel true) s2
  let s4 ← applyIf (nests init) (fun u => tssWrite u (descBase nd) 0 2 s.tr.selector.toNat) s3
  .ok ((s4.withTr (taskReg nsel nd)).withCr0 (setTs s4.cr0))

/-! ### Phase 3: steps 12 to 14 -/

/-- The fields of a TSS that step 12 reads (R230). -/
structure TaskImage where
  ldt : Selector
  cr3 : Word
  eflags : Word
  eip : Word
  gprs : Gprs
  es : Selector
  cs : Selector
  ss : Selector
  ds : Selector
  fs : Selector
  gs : Selector
  trap : Bool
  deriving DecidableEq, Repr

/-- A 4-byte field of a TSS. -/
def tssWord (s : State) (base : Word) (off : Nat) : Res Word := do
  let v ← tssRead s base off 4
  .ok (BitVec.ofNat 32 v)

/-- A 2-byte field of a TSS. -/
def tssHalf (s : State) (base : Word) (off : Nat) : Res Selector := do
  let v ← tssRead s base off 2
  .ok (BitVec.ofNat 16 v)

/-- The CR3 that step 12 leaves: the field of the TSS when paging is on, else CR3 as it is (R231). -/
def tssCr3 (s : State) (base : Word) : Res Word := if s.paging then tssWord s base 28 else .ok s.cr3

/-- Step 12, the reads (R230). -/
def readTask (s : State) (nb : Word) : Res TaskImage := do
  let ldt ← tssHalf s nb 96
  let cr3 ← tssCr3 s nb
  let eflags ← tssWord s nb 36
  let eip ← tssWord s nb 32
  let eax ← tssWord s nb 40
  let ecx ← tssWord s nb 44
  let edx ← tssWord s nb 48
  let ebx ← tssWord s nb 52
  let esp ← tssWord s nb 56
  let ebp ← tssWord s nb 60
  let esi ← tssWord s nb 64
  let edi ← tssWord s nb 68
  let es ← tssHalf s nb 72
  let cs ← tssHalf s nb 76
  let ss ← tssHalf s nb 80
  let ds ← tssHalf s nb 84
  let fs ← tssHalf s nb 88
  let gs ← tssHalf s nb 92
  let t ← tssHalf s nb 100
  .ok { ldt, cr3, eflags, eip, gprs := { eax, ecx, edx, ebx, esp, ebp, esi, edi }
        es, cs, ss, ds, fs, gs, trap := t.getLsbD 0 }

/-- An exception in step 12 leaves a damaged state: the model fault of R234, also inside the delivery of an exception
(DESIGN CHOICE, log 12). -/
def inStep12 : Res α → Res α
  | .ok a => .ok a
  | .error (.raise _) => .error (.fault .corruptState)
  | .error (.fault f) => .error (.fault f)
  | .error (.refused r) => .error (.refused r)

/-- Step 12, the loads (R230 to R233): the registers, with every segment register and the LDTR holding only its
selector. -/
def loadTask (init : Initiator) (img : TaskImage) (s : State) : State :=
  { s with
    gprs := img.gprs
    eip := img.eip
    eflags := maskEflags (incomingEflags init img.eflags)
    segs :=
      { cs := s.segs.cs.select img.cs
        ss := s.segs.ss.select img.ss
        ds := s.segs.ds.select img.ds
        es := s.segs.es.select img.es
        fs := s.segs.fs.select img.fs
        gs := s.segs.gs.select img.gs }
    ldtr := s.ldtr.select img.ldt
    cr3 := img.cr3 }

/-- What step 13 finds for one register: its loaded contents, the checks that fail, or a stop of the model. -/
inductive Loading (α : Type) where
  | loaded (r : α)
  | failed (es : List Exc)
  | stopped (x : Stop)
  deriving DecidableEq, Repr

/-- Fetch the descriptor of a selector and qualify it: out of its table is `bad`, a page fault is reported as
itself, and a register is loaded only when `rows` lists no failure (R235, R236). -/
def loadVia (s : State) (sel : Selector) (bad : Exc) (rows : Desc → List Exc) (load : Desc → α) : Loading α :=
  match readDesc s sel with
  | .error (.raise e) => .failed [e]
  | .error (.fault f) => .stopped (.fault f)
  | .error (.refused r) => .stopped (.refused r)
  | .ok none => .failed [bad]
  | .ok (some d) =>
    match rows d with
    | [] => .loaded (load d)
    | e :: es => .failed (e :: es)

/-- Rows 1 and 2 of R236, the LDTR: a null selector leaves it invalid with no further check. -/
def qualifyLdtr (s : State) (ext : Bool) : Loading LdtReg :=
  let sel := s.ldtr.selector
  let ts := excCode .ts (selCode sel ext)
  if selNull sel then .loaded { s.ldtr with valid := false }
  else if selTi sel then .failed [ts]
  else loadVia s sel ts (fun d => check (isLdt d && descP d) ts) s.ldtr.load

/-- Rows 3 to 5 of R236 for a descriptor that was found: its kind and privilege, then its P bit. Each is checked
whatever the others give, since their order is open (R205, log 6). -/
def csRows (sel : Selector) (ext : Bool) (d : Desc) : List Exc :=
  check (isCodeDesc d && (if isConforming d then decide (descDpl d ≤ selRpl sel) else descDpl d == selRpl sel))
    (excCode .ts (selCode sel ext)) ++
  check (descP d) (excCode .np (selCode sel ext))

/-- Rows 6 to 8 of R236 for a descriptor that was found: the stack segment. -/
def ssRows (sel : Selector) (ext : Bool) (cpl : BitVec 2) (d : Desc) : List Exc :=
  check (isWritableData d && selRpl sel == cpl && descDpl d == cpl) (excCode .ts (selCode sel ext)) ++
  check (descP d) (excCode .ss (selCode sel ext))

/-- Rows 9 to 11 of R236 for a descriptor that was found: a data segment register. -/
def dataRows (sel : Selector) (ext : Bool) (cpl : BitVec 2) (d : Desc) : List Exc :=
  check (isReadableDesc d && (isConforming d || (decide (cpl ≤ descDpl d) && decide (selRpl sel ≤ descDpl d))))
    (excCode .ts (selCode sel ext)) ++
  check (descP d) (excCode .np (selCode sel ext))

/-- Rows 9 to 11 for DS, ES, FS or GS: a null selector leaves it invalid with no further check. -/
def qualifyData (s : State) (ext : Bool) (n : SegName) : Loading SegReg :=
  let r := s.seg n
  if selNull r.selector then .loaded { r with valid := false }
  else loadVia s r.selector (excCode .ts (selCode r.selector ext)) (dataRows r.selector ext s.cpl) r.load

/-- Rows 3 to 11 of R236 for the segment register of that name. -/
def qualifySeg (s : State) (ext : Bool) (n : SegName) : Loading SegReg :=
  let r := s.seg n
  let ts := excCode .ts (selCode r.selector ext)
  match n with
  | .cs => if selNull r.selector then .failed [ts] else loadVia s r.selector ts (csRows r.selector ext) r.load
  | .ss => if selNull r.selector then .failed [ts] else loadVia s r.selector ts (ssRows r.selector ext s.cpl) r.load
  | .ds => qualifyData s ext .ds
  | .es => qualifyData s ext .es
  | .fs => qualifyData s ext .fs
  | .gs => qualifyData s ext .gs

/-- The state of step 13: the registers loaded so far and the checks that have failed so far. -/
structure Qualifying where
  state : State
  fails : List Exc
  deriving DecidableEq, Repr

/-- Take one register's result into step 13: after the first failure no further hidden part is loaded (R237), but
the failures that follow are kept, since any failing check may be the one reported (R205, log 7). DESIGN CHOICE (log 7):
once a register has failed, a stop of the model at a later register (a descriptor byte nothing has written) is dropped
and a failure found is reported; R236 leaves open which register is tried first. -/
def Qualifying.take (q : Qualifying) (put : State → α → State) : Loading α → Res Qualifying
  | .loaded r => .ok (if q.fails.isEmpty then { q with state := put q.state r } else q)
  | .failed es => .ok { q with fails := q.fails ++ es }
  | .stopped x => if q.fails.isEmpty then .error x else .ok q

/-- One segment register of step 13. -/
def qualifyNext (ext : Bool) (q : Qualifying) (n : SegName) : Res Qualifying :=
  q.take (fun s r => s.withSeg n r) (qualifySeg q.state ext n)

/-- The order of R236: CS, SS, DS, ES, FS, GS after the LDTR. -/
def qualifyOrder : List SegName := [.cs, .ss, .ds, .es, .fs, .gs]

/-- Several segment registers of step 13, in order. -/
def qualifySegs (ext : Bool) : Qualifying → List SegName → Res Qualifying
  | q, [] => .ok q
  | q, n :: ns => do
    let q' ← qualifyNext ext q n
    qualifySegs ext q' ns

/-- Step 13: load and qualify the LDTR and the six segment registers (R235 to R237). -/
def qualifyAll (s : State) (ext : Bool) : Res Qualifying := do
  let q ← Qualifying.take { state := s, fails := [] } State.withLdtr (qualifyLdtr s ext)
  qualifySegs ext q qualifyOrder

/-- Error code 0 with the EXT bit (R241). -/
def extCode (ext : Bool) : BitVec 16 := if ext then 1#16 else 0#16

/-- The exception of step 13, or else of the check of the new EIP against the code segment's limit (R237,
R241). -/
def startFailure (init : Initiator) (ext : Bool) (q : Qualifying) : Option Exc :=
  match reported init q.fails with
  | some e => some e
  | none =>
    if q.state.eip.toNat ≤ q.state.segs.cs.limit.toNat then none else some (excCode .gp (extCode ext))

/-- The end of a task switch: a failure of step 13 or of the EIP check is pending in the new task; the T flag
makes `#DB` pending; both together are a fault of the model (R237, R239, R241), also inside the delivery of an
exception (DESIGN CHOICE, log 12). -/
def finishStart (init : Initiator) (ext trap : Bool) (q : Qualifying) : Res Switched :=
  match startFailure init ext q with
  | some e =>
    if trap then .error (.fault .debugTrapWithSwitchFault) else .ok { state := q.state, pending := some e }
  | none => .ok { state := q.state, pending := if trap then some (exc .db) else none }

/-- Phase 3 (R230 to R241), from a state that has committed. -/
def startTask (init : Initiator) (ext : Bool) (s : State) : Res Switched := do
  let img ← inStep12 (readTask s s.tr.base)
  if eflagsVm (incomingEflags init img.eflags) then refuse .v86NotModelled
  else do
    let q ← qualifyAll (loadTask init img s) ext
    finishStart init ext img.trap q

/-- `TaskSwitch(init, nsel, nd, ret_eip, ext)` (R243). `front` lists the checks of the caller that fail, which
stand beside those of phase 1 for `check_order` (R205). -/
def taskSwitch (init : Initiator) (nsel : Selector) (nd : Desc) (ret : Word) (ext : Bool) (front : List Exc)
    (s : State) : Res Switched := do
  requireNone init (front ++ switchFailures init nsel nd ext s)
  let s' ← commitSwitch init nsel nd ret s
  startTask init ext s'

end Sys2Proof.Machine
end

