-- ==== Sys2Proof/Machine/Ops.lean ====
section
/-! DEFINITION. The shared operations of events: delivering one through the IDT (41_task_dispatch.md R179, R183,
R185), TAKING AN EXCEPTION (60_exceptions.md R256), the return from a nested task (R180), and how an instruction
ends. -/

namespace Sys2Proof.Machine

/-- The outcome of a step or of an instruction. -/
abbrev Result := Host.Outcome State Fault Refusal

/-! ### The target of a task gate -/

/-- `GateTarget(tsel, ext)`: the TSS descriptor in the GDT that a task gate names (R179). The RPL of `tsel` is
not used (20_memory.md R93). -/
def gateTarget (s : State) (tsel : Selector) (ext : Bool) : Res Desc := do
  require (!selTi tsel) (excCode .gp (selCode tsel ext))
  require (inGdt s tsel) (excCode .gp (selCode tsel ext))
  let td ← readDescAt s (gdtAddr s tsel)
  if isTss16 td then refuse .sixteenBitTss
  else do
    require (isTss32 td) (excCode .gp (selCode tsel ext))
    .ok td

/-- Go through a task gate whose own failing checks are `front` (R177, R183). A failing check of the target
stands beside them for `check_order` (R205); a stop of the model at the target does not hide them (log 6). -/
def switchViaGate (init : Initiator) (g : Desc) (ret : Word) (ext : Bool) (front : List Exc) (s : State) :
    Res Switched :=
  match gateTarget s (gateSel g) ext with
  | .ok td => taskSwitch init (gateSel g) td ret ext front s
  | .error (.raise e) => do
    requireNone init (front ++ [e])
    raise e
  | .error (.fault f) => do
    requireNone init front
    .error (.fault f)
  | .error (.refused r) => do
    requireNone init front
    refuse r

/-! ### Delivering an event through the IDT -/

/-- The classes of `DeliverEvent` (R183). -/
inductive EventClass where
  | softInt | exception | extInt
  deriving DecidableEq, Repr

/-- EXT is 0 for `INT n`, 1 for an exception and an external interrupt (R183, R258). -/
def EventClass.ext : EventClass → Bool
  | .softInt => false
  | .exception => true
  | .extInt => true

/-- The gate's DPL is checked for `INT n` only (R184). -/
def EventClass.checksDpl : EventClass → Bool
  | .softInt => true
  | .exception => false
  | .extInt => false

/-- The vector of an exception (60_exceptions.md R250). -/
def vectorOf : ExcName → Byte
  | .db => 1
  | .ud => 6
  | .nm => 7
  | .df => 8
  | .ts => 10
  | .np => 11
  | .ss => 12
  | .gp => 13
  | .pf => 14

/-- The `#SS(0)` of the push is reported with the EXT bit (R185). -/
def withStackExt (ext : Bool) : Res α → Res α
  | .ok a => .ok a
  | .error (.raise e) =>
    .error (.raise (if e == excCode .ss 0 then excCode .ss (extCode ext) else e))
  | .error (.fault f) => .error (.fault f)
  | .error (.refused r) => .error (.refused r)

/-- The push of R185: ESP goes down by 4 modulo 2^32, then 4 bytes are written through SS. -/
def push32 (v : Word) (ext : Bool) (s : State) : Res State := do
  let sp := s.gprs.esp - 4
  let s' ← withStackExt ext (segWrite s .ss sp 4 v.toNat)
  .ok (s'.withGpr .esp sp)

/-- `PushErrorCode` (R185), the error code zero-extended to 32 bits; a page fault's code is a free value
(R255). -/
def pushErrorCode (c : ErrorCode) (ext : Bool) (s : State) : Res State :=
  match c with
  | .none => .ok s
  | .value v => push32 (v.setWidth 32) ext s
  | .pageFault => push32 (Config.pageFaultCode s.draws) ext (s.withDraws (s.draws + 1))

/-- The failing checks of an IDT task gate itself: its DPL for `INT n` (R184), then present (R183). -/
def idtGateFailures (v : Byte) (cls : EventClass) (g : Desc) (s : State) : List Exc :=
  check (!cls.checksDpl || decide (s.cpl ≤ descDpl g)) (excCode .gp (vectorCode v cls.ext)) ++
  check (descP g) (excCode .np (vectorCode v cls.ext))

/-- `DeliverEvent(v, class, errcode, ret_eip)` (R183). The error code is pushed when the switch has succeeded. -/
def deliverEvent (v : Byte) (cls : EventClass) (code : ErrorCode) (ret : Word) (s : State) : Res Switched := do
  require (inIdt s v) (excCode .gp (vectorCode v cls.ext))
  let g ← readDescAt s (idtAddr s v)
  if isIntGate g then refuse .gateNotModelled
  else do
    require (isTaskGate g) (excCode .gp (vectorCode v cls.ext))
    let sw ← switchViaGate .int g ret cls.ext (idtGateFailures v cls g s) s
    match sw.pending with
    | some _ => .ok sw
    | none => do
      let s' ← pushErrorCode code cls.ext sw.state
      .ok { state := s', pending := none }

/-! ### Taking an exception, and the end of an instruction -/

/-- TAKING AN EXCEPTION: `raise` (R256). The event is delivered with the EIP of the state as the one saved: that of
the faulting instruction, or the new task's after a commit. A second exception during it is `NestedFault`
(R256 case 3, R271). DESIGN CHOICE (log 12): a model fault of the switch that delivers it keeps its own name here, so an
exception in step 12 is `CorruptState` (42_task_switch.md R234), and a failure of step 13 or of the EIP check with T = 1
is `DebugTrapWithSwitchFault` (R239), neither of them `NestedFault`; no rule says which name wins. -/
def takeException (e : Exc) (s : State) : Result :=
  match deliverEvent (vectorOf e.name) .exception e.code s.eip s with
  | .ok sw =>
    match sw.pending with
    | none => .next sw.state
    | some _ => .fault .nestedFault
  | .error (.raise _) => .fault .nestedFault
  | .error (.fault f) => .fault f
  | .error (.refused r) => .refused r

/-- How an instruction or an event that began in `s` ends: an exception before the commit is taken from `s`
(R208, R266), one after it from the new task's state (R237, R267). -/
def finish (s : State) : Res Switched → Result
  | .ok sw =>
    match sw.pending with
    | none => .next sw.state
    | some e => takeException e sw.state
  | .error (.raise e) => takeException e s
  | .error (.fault f) => .fault f
  | .error (.refused r) => .refused r

/-- An instruction that switches no task and ends in this state. -/
def done (s : State) : Switched := { state := s, pending := none }

/-! ### The return from a nested task -/

/-- `IRET` with NT = 1: back through the previous-task link of the current TSS (R180, R268). Every check of the
link raises `#TS(link)`. -/
def returnFromTask (ret : Word) (s : State) : Res Switched := do
  let v ← tssRead s s.tr.base 0 2
  let link : Selector := BitVec.ofNat 16 v
  require (!selTi link) (excCode .ts (selCode link false))
  require (inGdt s link) (excCode .ts (selCode link false))
  let td ← readDescAt s (gdtAddr s link)
  if isTss16 td then refuse .sixteenBitTss
  else do
    require (isTss32 td) (excCode .ts (selCode link false))
    taskSwitch .iret link td ret false [] s

/-! ### External interrupts -/

/-- The external interrupt that is taken before the next instruction: one the environment offers, with a vector
from 32 to 255, when EFLAGS.IF = 1 (R262). One that is not taken is not kept (log 10). -/
def dueInterrupt (offer : Option Byte) (s : State) : Option Byte :=
  match offer with
  | some v => if eflagsIf s.eflags && decide (32 ≤ v.toNat) then some v else none
  | none => none

/-- Taking an external interrupt: the EIP saved is that of the next instruction to execute (R262). -/
def takeInterrupt (v : Byte) (s : State) : Result :=
  finish s (deliverEvent v .extInt .none s.eip s)

end Sys2Proof.Machine
end

