-- ==== Sys2Proof/Machine/Operands.lean ====
section
/-! DEFINITION. The operand forms: effective addresses (30_encoding.md R123, R124), `r/m16` operands (R122) and the
far pointer in memory (R127). -/

namespace Sys2Proof.Machine

/-- A displacement as a 32-bit number: `disp8` sign-extended, `disp32` as is (R125). -/
def dispValue : Disp → Word
  | .none => 0
  | .d8 v => v.signExtend 32
  | .d32 v => v

/-- The scaled index: 0 when the index field is 100b (R124). -/
def scaledIndex (s : State) (scale : BitVec 2) (index : Reg) : Word :=
  match index with
  | .esp => 0
  | .eax => s.gpr .eax <<< scale.toNat
  | .ecx => s.gpr .ecx <<< scale.toNat
  | .edx => s.gpr .edx <<< scale.toNat
  | .ebx => s.gpr .ebx <<< scale.toNat
  | .ebp => s.gpr .ebp <<< scale.toNat
  | .esi => s.gpr .esi <<< scale.toNat
  | .edi => s.gpr .edi <<< scale.toNat

/-- The effective address of a memory operand, modulo 2^32 (R123, R124). -/
def effAddr (s : State) : MemOp → Word
  | .base r d => s.gpr r + dispValue d
  | .abs d => d
  | .sib sc ix b d => s.gpr b + scaledIndex s sc ix + dispValue d
  | .sibAbs sc ix d => d + scaledIndex s sc ix

/-- The default segment of a base register: SS for ESP and EBP, else DS (R123, R124). -/
def baseSeg (r : Reg) : SegName :=
  match r with
  | .esp => .ss
  | .ebp => .ss
  | .eax => .ds
  | .ecx => .ds
  | .edx => .ds
  | .ebx => .ds
  | .esi => .ds
  | .edi => .ds

/-- The default segment of a memory operand (R123, R124). -/
def operandSeg : MemOp → SegName
  | .base r _ => baseSeg r
  | .abs _ => .ds
  | .sib _ _ b _ => baseSeg b
  | .sibAbs _ _ _ => .ds

/-- Read `n` bytes of a memory operand, `k` bytes after its effective address (R123, R127). -/
def readOperand (s : State) (m : MemOp) (k : Word) (n : Nat) : Res Nat :=
  segRead s (operandSeg m) .read (effAddr s m + k) n

/-- The 16-bit source of `LTR`: the low half of a register, or a memory word (40_task_register.md R150). -/
def readRegMem16 (s : State) : RegMem → Res Selector
  | .reg r => .ok (s.gpr16 r)
  | .mem m => do
    let v ← readOperand s m 0 2
    .ok (BitVec.ofNat 16 v)

/-- The destination of `STR`: a whole 32-bit register, zero-extended, or a memory word (R151). -/
def writeRegMem16 (s : State) (v : Selector) : RegMem → Res State
  | .reg r => .ok (s.withGpr r (v.setWidth 32))
  | .mem m => segWrite s (operandSeg m) (effAddr s m) 2 v.toNat

/-- The selector of the far pointer `m16:32`: the offset is read first and not used by a task form (R127,
41_task_dispatch.md R174). -/
def readFarPtr (s : State) (m : MemOp) : Res Selector := do
  let _ ← readOperand s m 0 4
  let v ← readOperand s m 4 2
  .ok (BitVec.ofNat 16 v)

end Sys2Proof.Machine
end

