-- ==== Sys2Proof/Machine/FarTransfer.lean ====
section
/-! DEFINITION. The task forms of JMP and CALL far (41_task_dispatch.md R174 to R178). -/

namespace Sys2Proof.Machine

/-- The privilege check through a TSS descriptor or a task gate: CPL and the RPL of the selector in the
instruction are at most its DPL (R176, R178). -/
def farPrivilege (s : State) (sel : Selector) (d : Desc) : Bool :=
  decide (s.cpl ≤ descDpl d) && decide (selRpl sel ≤ descDpl d)

/-- `FarTaskTransfer(init, sel)` (R177). -/
def farTaskTransfer (init : Initiator) (sel : Selector) (ret : Word) (s : State) : Res Switched := do
  require (!selNull sel) (excCode .gp 0)
  let found ← readDesc s sel
  let gp := excCode .gp (selCode sel false)
  match found with
  | none => raise gp
  | some d =>
    if descS d then refuse .farTransferNotModelled
    else if isTss16 d then refuse .sixteenBitTss
    else if isCallGate d then refuse .gateNotModelled
    else if isTss32 d then
      taskSwitch init sel d ret false (check (!selTi sel) gp ++ check (farPrivilege s sel d) gp) s
    else if isTaskGate d then
      switchViaGate init d ret false
        (check (farPrivilege s sel d) gp ++ check (descP d) (excCode .np (selCode sel false))) s
    else raise gp

/-- A far transfer whose pointer is in the instruction (R126); the offset is not used by a task form. -/
def farPtrOp (init : Initiator) (sel : Selector) (ret : Word) (s : State) : Res Switched := do
  requireProtected s
  farTaskTransfer init sel ret s

/-- A far transfer whose pointer is in memory (R127). -/
def farMemOp (init : Initiator) (m : MemOp) (ret : Word) (s : State) : Res Switched := do
  requireProtected s
  let sel ← readFarPtr s m
  farTaskTransfer init sel ret s

/-- `JMP ptr16:32` (R174). -/
def execJmpPtr (sel : Selector) (off : Word) (s : State) : Result :=
  finish s (farPtrOp .jmp sel (s.nextEip (.jmpPtr sel off)) s)

/-- `JMP m16:32` (R174). -/
def execJmpMem (m : MemOp) (s : State) : Result :=
  finish s (farMemOp .jmp m (s.nextEip (.jmpMem m)) s)

/-- `CALL ptr16:32` (R175). -/
def execCallPtr (sel : Selector) (off : Word) (s : State) : Result :=
  finish s (farPtrOp .call sel (s.nextEip (.callPtr sel off)) s)

/-- `CALL m16:32` (R175). -/
def execCallMem (m : MemOp) (s : State) : Result :=
  finish s (farMemOp .call m (s.nextEip (.callMem m)) s)

end Sys2Proof.Machine
end

