-- ==== Sys2Proof/Machine/Interrupt.lean ====
section
/-! DEFINITION. IRET and INT n (41_task_dispatch.md R180 to R184). -/

namespace Sys2Proof.Machine

/-- The effect of `IRET` (R180): with NT = 1 the return from a nested task; with NT = 0 out of scope (R181). -/
def iretOp (s : State) : Res Switched := do
  requireProtected s
  if eflagsNt s.eflags then returnFromTask (s.nextEip .iret) s
  else refuse .iretWithoutNtNotModelled

/-- `IRET` (R180). -/
def execIret (s : State) : Result := finish s (iretOp s)

/-- The effect of `INT n` (R182): the event is delivered with no error code and the EIP after the
instruction. -/
def intOp (n : Byte) (s : State) : Res Switched := do
  requireProtected s
  deliverEvent n .softInt .none (s.nextEip (.intN n)) s

/-- `INT n` (R182). -/
def execIntN (n : Byte) (s : State) : Result := finish s (intOp n s)

end Sys2Proof.Machine
end

