-- ==== Sys2Proof/Machine/TaskRegister.lean ====
section
/-! DEFINITION. The task-register instructions LTR and STR (40_task_register.md R150 to R152). -/

namespace Sys2Proof.Machine

/-- The TSS descriptor `LTR` loads, after the checks of R150 on its selector and on it. DESIGN CHOICE (log 6): where
several of LTR's checks fail, the one reported is the first in the order of R150's pseudocode, so a descriptor that is
busy or of the wrong type and also not present raises `#GP`, not `#NP`; 60_exceptions.md R263 and D10 leave open which
is reported. -/
def ltrDesc (s : State) (sel : Selector) : Res Desc := do
  require (!selNull sel) (excCode .gp 0)
  require (!selTi sel) (excCode .gp (selCode sel false))
  require (inGdt s sel) (excCode .gp (selCode sel false))
  let d ← readDescAt s (gdtAddr s sel)
  if isTss16 d then refuse .sixteenBitTss
  else do
    require (isTss32 d && !descBusy d) (excCode .gp (selCode sel false))
    require (descP d) (excCode .np (selCode sel false))
    .ok d

/-- The effect of `LTR` (R150): privileged; the descriptor becomes busy and TR caches it; no task switch. That the CPL is
checked before the operand is read is the order of R150's pseudocode (DESIGN CHOICE, log 6). -/
def ltrOp (rm : RegMem) (s : State) : Res Switched := do
  requireProtected s
  require (s.cpl == 0) (excCode .gp 0)
  let sel ← readRegMem16 s rm
  let d ← ltrDesc s sel
  let s' ← setBusy s sel true
  .ok (done ((s'.withTr (taskReg sel d)).withEip (s.nextEip (.ltr rm))))

/-- `LTR r/m16` (R150). -/
def execLtr (rm : RegMem) (s : State) : Result := finish s (ltrOp rm s)

/-- The effect of `STR` (R151): at any privilege level. -/
def strOp (rm : RegMem) (s : State) : Res Switched := do
  requireProtected s
  let s' ← writeRegMem16 s s.tr.selector rm
  .ok (done (s'.withEip (s.nextEip (.str rm))))

/-- `STR r/m16` (R151). -/
def execStr (rm : RegMem) (s : State) : Result := finish s (strOp rm s)

end Sys2Proof.Machine
end

