-- ==== Sys2Proof/Machine/Dispatch.lean ====
section
/-! DEFINITION. The dispatch: one arm per instruction of the opcode table. -/

namespace Sys2Proof.Machine

def exec (i : Instr) (s : State) : Host.Outcome State Fault Refusal :=
  match i with
  | .jmpPtr sel off => Sys2Proof.Machine.execJmpPtr sel off s
  | .jmpMem m => Sys2Proof.Machine.execJmpMem m s
  | .callPtr sel off => Sys2Proof.Machine.execCallPtr sel off s
  | .callMem m => Sys2Proof.Machine.execCallMem m s
  | .iret => Sys2Proof.Machine.execIret s
  | .intN n => Sys2Proof.Machine.execIntN n s
  | .ltr src => Sys2Proof.Machine.execLtr src s
  | .str dst => Sys2Proof.Machine.execStr dst s

end Sys2Proof.Machine
end

