-- ==== Sys2Proof/Machine/Fetch.lean ====
section
/-! DEFINITION. Fetching an instruction (30_encoding.md R136), what the machine does next (60_exceptions.md R262,
R263), and placing an instruction where it is fetched. -/

namespace Sys2Proof.Machine

/-- Fetch byte by byte through CS, reading a further byte only while the decoder asks for one (R136). -/
def fetchFrom (s : State) : Nat → List Byte → Res Decoded
  | 0, bs => .ok (decode bs)
  | n + 1, bs =>
    match decode bs with
    | .more => do
      let b ← segRead s .cs .fetch (s.eip + BitVec.ofNat 32 bs.length) 1
      fetchFrom s n (bs ++ [BitVec.ofNat 8 b])
    | .instr i => .ok (.instr i)
    | .illegal => .ok .illegal
    | .prefixByte => .ok .prefixByte
    | .noRow => .ok .noRow

/-- The decoded instruction at CS:EIP; an instruction has at most 15 bytes (R120). -/
def fetchInstr (s : State) : Res Decoded := fetchFrom s 15 []

/-- What the machine does in its next step. -/
inductive Action where
  /-- Execute this instruction in this state. -/
  | run (i : Instr) (s : State)
  /-- The step ends so with no instruction executed. -/
  | stop (r : Result)

/-- The step once no interrupt is taken: fetch and decode (R121, R136, R137). A 16-bit code segment is refused;
`FF /3` and `FF /5` with `mod = 11b` take `#UD` (R129, R131). -/
def fetchAction (s : State) : Action :=
  if s.segs.cs.valid && !s.segs.cs.db then .stop (.refused .sixteenBitCode)
  else
    match fetchInstr s with
    | .ok (.instr i) => .run i s
    | .ok .illegal => .stop (takeException (exc .ud) s)
    | .ok .prefixByte => .stop (.refused .prefixNotModelled)
    | .ok .noRow => .stop (.refused .opcodeNotModelled)
    | .ok .more => .stop (.refused .opcodeNotModelled)
    | .error (.raise e) => .stop (takeException e s)
    | .error (.fault f) => .stop (.fault f)
    | .error (.refused r) => .stop (.refused r)

/-- What the machine does next when the environment offers this interrupt or none: outside protected mode nothing
is modelled (10_state.md R41); an external interrupt that is due is taken before the instruction starts (R262,
R263). -/
def nextAction (offer : Option Byte) (s : State) : Action :=
  if s.inProtectedMode then
    match dueInterrupt offer s with
    | some v => .stop (takeInterrupt v s)
    | none => fetchAction s
  else .stop (.refused .modeNotModelled)

/-- Whether CS lets the longest instruction in scope, 8 bytes, be fetched at EIP (R67, R121, R136). -/
def fetchable (s : State) : Bool :=
  s.segs.cs.valid && s.segs.cs.isCode && s.segs.cs.db &&
    (List.range 8).all fun k => s.segs.cs.within (s.eip + BitVec.ofNat 32 k) 1

/-- A code segment at the same selector and base from which everything can be fetched. -/
def SegReg.asCode (r : SegReg) : SegReg :=
  { r with limit := 0xFFFFFFFF, type := 11, s := true, p := true, db := true, g := true, valid := true }

/-- The machine launched (70_reset_and_hazards.md R303) as far as a fetch at CS:EIP needs it: protected mode,
paging off, CS a 32-bit code segment (log 2). What already meets the need stays. -/
def launched (s : State) : State :=
  let s1 := (s.withCr0 ((s.cr0 ||| 1#32) &&& 0x7FFFFFFF#32)).withEflags (s.eflags &&& 0xFFFDFFFF#32)
  if fetchable s1 then s1 else s1.withSeg .cs (s1.seg .cs).asCode

/-- Put bytes at consecutive linear addresses with paging off (R62, R63). -/
def placeBytes (m : Memory) (lin : Word) : List Byte → Memory
  | [] => m
  | b :: bs => placeBytes (m.write lin.toNat b) (lin + 1) bs

/-- The launched machine with an instruction's bytes at CS:EIP (log 2). -/
def placeInstr (s : State) (bs : List Byte) : State :=
  (launched s).withMem (placeBytes s.mem (segLinear (launched s) .cs s.eip) bs)

end Sys2Proof.Machine
end

