-- ==== Sys2Proof/Machine/Step.lean ====
section
/-! DEFINITION. One step of the machine (00_scope.md R5), and placing an instruction for the next step. -/

namespace Sys2Proof.Machine

/-- One step: the delivery of the external interrupt the environment offers, when it is due, or the instruction at
CS:EIP with any exception it raises (00_scope.md R5, 20_memory.md R108). The offer is the parameter
`ext_interrupts` at this step: an argument, not state (00_scope.md R4, R6; log 10). -/
def stepWith (offer : Option Byte) (s : State) : Host.Outcome State Fault Refusal :=
  match nextAction offer s with
  | .run i s' => exec i s'
  | .stop r => r

/-- One step with the default of `ext_interrupts`: no external interrupt (R4). -/
def step (s : State) : Host.Outcome State Fault Refusal := stepWith none s

/-- The state with the instruction of these bits (numbered as opcode_table.json numbers them, zeros above) where
the next step fetches it, the machine being launched so far as that needs (log 2). -/
def State.withFetchWord (s : State) (nbits w : Nat) : State := placeInstr s (tableBytes nbits w)

end Sys2Proof.Machine
end

