-- ==== Sys2Proof/Safety.lean ====
section
/-! DEFINITION. The terms in which claims about the machine are stated: launch states, what phase 2 of a task switch
may write, when a task can be entered and what entering it gives, and the invariants of the machine. -/

namespace Sys2Proof.Safety

open Sys2Proof.Machine

/-! ### Instructions where the next step fetches them (30_encoding.md R136) -/

/-- Each of these bytes can be fetched through CS, the first at EIP. -/
def FetchesBytes (s : State) (bs : List Byte) : Prop :=
  ∀ k (h : k < bs.length), segRead s .cs .fetch (s.eip + BitVec.ofNat 32 k) 1 = .ok (bs[k]).toNat

/-- Nothing stands between the state and the fetch of an instruction: protected mode and a 32-bit code segment
(10_state.md R41, 30_encoding.md R121). -/
structure ReadyToFetch (s : State) : Prop where
  mode : s.inProtectedMode = true
  code32 : s.segs.cs.db = true

/-- The shortest byte strings that match no row, by 30_encoding.md R137: `0F` with another second byte than `00`,
`0F 00` with another digit than 1 and 3, `FF` with another than 3 and 5, and a first byte that is no opcode of the
table and no prefix byte. -/
inductive NoRowBytes : List Byte → Prop where
  | twoByte (op : Byte) (h : op ≠ 0x00#8) : NoRowBytes [0x0F, op]
  | group0F (m : Byte) (h : m.toNat / 8 % 8 ≠ 1 ∧ m.toNat / 8 % 8 ≠ 3) : NoRowBytes [0x0F, 0x00, m]
  | groupFF (m : Byte) (h : m.toNat / 8 % 8 ≠ 3 ∧ m.toNat / 8 % 8 ≠ 5) : NoRowBytes [0xFF, m]
  | first (b : Byte) (h : b ∉ [0xEA#8, 0x9A, 0xCF, 0xCD, 0xFF, 0x0F, 0x26, 0x2E, 0x36, 0x3E, 0x64, 0x65, 0x66, 0x67,
      0xF0, 0xF2, 0xF3]) : NoRowBytes [b]

/-! ### What a task switch writes with paging off (42_task_switch.md R211 to R222) -/

/-- The address of byte 5 of the descriptor a selector names in the GDT, where its busy flag is (20_memory.md
R76). -/
def busyAddr (s : State) (sel : Selector) : Nat := (gdtAddr s sel + 5).toNat

/-- The addresses of `n` bytes at an offset of a TSS, paging off (R104). -/
def tssBytes (base : Word) (off n : Nat) : List Nat :=
  (List.range n).map fun i => (base.toNat + off + i) % 0x100000000

/-- Every address phase 2 may write: the dynamic fields of the old TSS, the busy flag of the old task for `JMP`
and `IRET`, the busy flag of the new task but for `IRET`, its link for `CALL` and events (R214, R216, R220,
R222). -/
def switchWrites (init : Initiator) (nsel : Selector) (nd : Desc) (s : State) : List Nat :=
  tssBytes s.tr.base 32 64 ++
  (if leavesOld init then [busyAddr s s.tr.selector] else []) ++
  (if marksNew init then [busyAddr s nsel] else []) ++
  (if nests init then tssBytes (descBase nd) 0 2 else [])

/-! ### When a task switch completes -/

/-- The checks of phase 1 hold (R203, R204, R206, R207): present, limit at least 67h, available (busy for `IRET`),
paged in. -/
structure ChecksPass (init : Initiator) (nsel : Selector) (nd : Desc) (s : State) : Prop where
  present : descP nd = true
  limit : 0x67 ≤ (descLimit nd).toNat
  busy : descBusy nd = (match init with | .iret => true | .jmp => false | .call => false | .int => false)
  paged : pagedIn init nsel nd s = true

/-- The descriptors step 13 finds for the new task's selectors; `none` for a null selector (R236). -/
structure NewSegs where
  ldt : Option Desc
  cs : Desc
  ss : Desc
  ds : Option Desc
  es : Option Desc
  fs : Option Desc
  gs : Option Desc

/-- The LDTR after step 13. -/
def ldtrOf (r : LdtReg) : Option Desc → LdtReg
  | none => { r with valid := false }
  | some d => r.load d

/-- A data segment register after step 13. -/
def segOf (r : SegReg) : Option Desc → SegReg
  | none => { r with valid := false }
  | some d => r.load d

/-- Rows 1 and 2 of R236 hold: the LDT selector is null, or names a present LDT in the GDT. -/
def LdtQualifies (s : State) (sel : Selector) : Option Desc → Prop
  | none => selNull sel = true
  | some d =>
    selNull sel = false ∧ selTi sel = false ∧ readDesc s sel = .ok (some d) ∧ isLdt d = true ∧ descP d = true

/-- The kind of descriptor a segment register takes, by its bits: a code segment for CS (row 3), a writable data segment
for SS (row 6), a data segment or a readable code segment for the others (row 9). -/
def rowKind (n : SegName) (d : Desc) : Bool :=
  match n with
  | .cs => d.getLsbD 44 && d.getLsbD 43
  | .ss => d.getLsbD 44 && !d.getLsbD 43 && d.getLsbD 41
  | .ds | .es | .fs | .gs => d.getLsbD 44 && (!d.getLsbD 43 || d.getLsbD 41)

/-- The privilege it must have, `cpl` being the new task's (rows 4, 7 and 10); bits 43 and 42 make a code segment
conforming. -/
def rowPrivilege (n : SegName) (cpl : BitVec 2) (sel : Selector) (d : Desc) : Bool :=
  match n with
  | .cs => if d.getLsbD 42 then decide (descDpl d ≤ selRpl sel) else descDpl d == selRpl sel
  | .ss => selRpl sel == cpl && descDpl d == cpl
  | .ds | .es | .fs | .gs =>
    (d.getLsbD 43 && d.getLsbD 42) || (decide (cpl ≤ descDpl d) && decide (selRpl sel ≤ descDpl d))

/-- Rows 3 to 11 of R236 hold for a segment register: its selector is null (not for CS and SS), or names a present
descriptor of the register's kind and privilege. -/
def SegQualifies (s : State) (cpl : BitVec 2) (n : SegName) (sel : Selector) : Option Desc → Prop
  | none => n ≠ .cs ∧ n ≠ .ss ∧ selNull sel = true
  | some d =>
    selNull sel = false ∧ readDesc s sel = .ok (some d) ∧ rowKind n d = true ∧ rowPrivilege n cpl sel d = true ∧
      d.getLsbD 47 = true

/-- The rows of R236 that fail for a segment register, each with its exception; a page fault of the lookup is reported
as itself (20_memory.md R63). -/
inductive SegRowFails (s : State) (cpl : BitVec 2) (ext : Bool) (n : SegName) (sel : Selector) : Exc → Prop where
  | null (hn : n = .cs ∨ n = .ss) (h : selNull sel = true) :
      SegRowFails s cpl ext n sel (excCode .ts (selCode sel ext))
  | outOfTable (h0 : selNull sel = false) (h : readDesc s sel = .ok none) :
      SegRowFails s cpl ext n sel (excCode .ts (selCode sel ext))
  | kind (d : Desc) (h0 : selNull sel = false) (h : readDesc s sel = .ok (some d)) (hk : rowKind n d = false) :
      SegRowFails s cpl ext n sel (excCode .ts (selCode sel ext))
  | privilege (d : Desc) (h0 : selNull sel = false) (h : readDesc s sel = .ok (some d))
      (hp : rowPrivilege n cpl sel d = false) : SegRowFails s cpl ext n sel (excCode .ts (selCode sel ext))
  | notPresent (d : Desc) (h0 : selNull sel = false) (h : readDesc s sel = .ok (some d)) (hp : d.getLsbD 47 = false) :
      SegRowFails s cpl ext n sel (excCode (if n = .ss then .ss else .np) (selCode sel ext))
  | lookup (e : Exc) (h0 : selNull sel = false) (h : readDesc s sel = .error (.raise e)) : SegRowFails s cpl ext n sel e

/-- The rows 1 and 2 of R236 that fail for the LDTR, each with its exception. -/
inductive LdtRowFails (s : State) (ext : Bool) (sel : Selector) : Exc → Prop where
  | inLdt (h0 : selNull sel = false) (h : selTi sel = true) : LdtRowFails s ext sel (excCode .ts (selCode sel ext))
  | outOfTable (h0 : selNull sel = false) (ht : selTi sel = false) (h : readDesc s sel = .ok none) :
      LdtRowFails s ext sel (excCode .ts (selCode sel ext))
  | desc (d : Desc) (h0 : selNull sel = false) (ht : selTi sel = false) (h : readDesc s sel = .ok (some d))
      (hd : isLdt d = false ∨ descP d = false) : LdtRowFails s ext sel (excCode .ts (selCode sel ext))
  | lookup (e : Exc) (h0 : selNull sel = false) (ht : selTi sel = false) (h : readDesc s sel = .error (.raise e)) :
      LdtRowFails s ext sel e

/-- The order in which step 13 takes the segment registers (R236). -/
def loadRank : SegName → Nat
  | .cs => 0
  | .ss => 1
  | .ds => 2
  | .es => 3
  | .fs => 4
  | .gs => 5

/-- The selector of a segment register in the new task's TSS. -/
def imageSel (img : TaskImage) : SegName → Selector
  | .cs => img.cs
  | .ss => img.ss
  | .ds => img.ds
  | .es => img.es
  | .fs => img.fs
  | .gs => img.gs

/-- The descriptor found for a segment register. -/
def NewSegs.get (segs : NewSegs) : SegName → Option Desc
  | .cs => some segs.cs
  | .ss => some segs.ss
  | .ds => segs.ds
  | .es => segs.es
  | .fs => segs.fs
  | .gs => segs.gs

/-- The state step 13 works on once the LDTR is loaded: an LDT selector is looked up through it (R236). -/
def withNewLdtr (init : Initiator) (img : TaskImage) (segs : NewSegs) (s : State) : State :=
  (loadTask init img s).withLdtr (ldtrOf (loadTask init img s).ldtr segs.ldt)

/-- Step 13 accepts every selector of the new task (R235, R236). -/
structure Qualifies (init : Initiator) (img : TaskImage) (segs : NewSegs) (s : State) : Prop where
  ldt : LdtQualifies (loadTask init img s) img.ldt segs.ldt
  segs : ∀ n, SegQualifies (withNewLdtr init img segs s) (selRpl img.cs) n (imageSel img n) (segs.get n)

/-- The new task's state after steps 12 and 13 (R230 to R238), from the committed state. -/
def entered (init : Initiator) (img : TaskImage) (segs : NewSegs) (s : State) : State :=
  { withNewLdtr init img segs s with
    segs :=
      { cs := ((loadTask init img s).seg .cs).load segs.cs
        ss := ((loadTask init img s).seg .ss).load segs.ss
        ds := segOf ((loadTask init img s).seg .ds) segs.ds
        es := segOf ((loadTask init img s).seg .es) segs.es
        fs := segOf ((loadTask init img s).seg .fs) segs.fs
        gs := segOf ((loadTask init img s).seg .gs) segs.gs } }

/-- The new task can be loaded from its TSS in the committed state `s1`: the image is there, it is no
virtual-8086 task, its segments qualify and its EIP is within its code segment (R230, R232, R236, R241). -/
structure Loadable (init : Initiator) (nd : Desc) (img : TaskImage) (segs : NewSegs) (s1 : State) : Prop where
  image : readTask s1 (descBase nd) = .ok img
  notV86 : eflagsVm img.eflags = false
  qualifies : Qualifies init img segs s1
  eip : img.eip.toNat ≤ (descLimit segs.cs).toNat

/-- A task switch completes with no exception pending: phase 1 passes, phase 2 commits in `s1`, the new task can be
loaded and its T flag is 0 (R243). -/
structure Completes (init : Initiator) (nsel : Selector) (nd : Desc) (ret : Word) (s s1 : State)
    (img : TaskImage) (segs : NewSegs) : Prop where
  checks : ChecksPass init nsel nd s
  commits : commitSwitch init nsel nd ret s = .ok s1
  loads : Loadable init nd img segs s1
  noTrap : img.trap = false

/-- What a completed task switch leaves, beside being `entered init img segs s1`: the registers no switch writes
are as before, and with paging off every byte outside `switchWrites` is as before (R221, R243). -/
structure SwitchFrame (init : Initiator) (nsel : Selector) (nd : Desc) (s t : State) : Prop where
  tr : t.tr = taskReg nsel nd
  cr0 : t.cr0 = setTs s.cr0
  cr3 : s.paging = false → t.cr3 = s.cr3
  gdtr : t.gdtr = s.gdtr
  idtr : t.idtr = s.idtr
  mem : s.paging = false → ∀ a, a ∉ switchWrites init nsel nd s → t.mem.read a = s.mem.read a

/-- A descriptor's base address, bit for bit (20_memory.md R77). -/
def baseBits (d : Desc) : Word := d.extractLsb' 56 8 ++ (d.extractLsb' 32 8 ++ d.extractLsb' 16 16)

/-- A descriptor's effective limit from its bits (R77, R78). -/
def limitBits (d : Desc) : Nat :=
  let raw := d.toNat % 0x10000 + 0x10000 * (d.toNat / 2 ^ 48 % 16)
  if d.getLsbD 55 then raw * 4096 + 4095 else raw

/-- The hidden part of a segment register is what the bits of this descriptor say, and valid (10_state.md R30,
20_memory.md R77, R78, 42_task_switch.md R236). -/
structure HiddenPart (d : Desc) (r : SegReg) : Prop where
  base : r.base = baseBits d
  limit : r.limit.toNat = limitBits d
  type : r.type = d.extractLsb' 40 4
  s : r.s = d.getLsbD 44
  dpl : r.dpl = d.extractLsb' 45 2
  p : r.p = d.getLsbD 47
  db : r.db = d.getLsbD 54
  g : r.g = d.getLsbD 55
  valid : r.valid = true

/-- The same of DS, ES, FS or GS, which is not valid after a null selector. -/
def HiddenOrNull (r : SegReg) : Option Desc → Prop
  | none => r.valid = false
  | some d => HiddenPart d r

/-- The hidden part of the LDTR: that of the descriptor, or not valid after a null selector (10_state.md R34). -/
def LdtPart (r : LdtReg) : Option Desc → Prop
  | none => r.valid = false
  | some d =>
    r.base = baseBits d ∧ r.limit.toNat = limitBits d ∧ r.attr.type = d.extractLsb' 40 4 ∧
      r.attr.dpl = d.extractLsb' 45 2 ∧ r.attr.p = d.getLsbD 47 ∧ r.attr.g = d.getLsbD 55 ∧ r.valid = true

/-- The new task's context after a completed switch (R219, R230, R232, R236, R238): the registers of its TSS, the
forced bits of EFLAGS, NT, the privilege level of its CS selector, and the hidden parts its descriptors give. -/
structure TaskLoaded (init : Initiator) (img : TaskImage) (segs : NewSegs) (t : State) : Prop where
  gprs : t.gprs = img.gprs
  eip : t.eip = img.eip
  eflags : t.eflags = maskEflags (incomingEflags init img.eflags)
  nt : eflagsNt t.eflags = (nests init || eflagsNt img.eflags)
  selectors : t.segs.es.selector = img.es ∧ t.segs.cs.selector = img.cs ∧ t.segs.ss.selector = img.ss ∧
    t.segs.ds.selector = img.ds ∧ t.segs.fs.selector = img.fs ∧ t.segs.gs.selector = img.gs
  ldtr : t.ldtr.selector = img.ldt
  cpl : t.cpl = selRpl img.cs
  cs : HiddenPart segs.cs t.segs.cs
  ss : HiddenPart segs.ss t.segs.ss
  ds : HiddenOrNull t.segs.ds segs.ds
  es : HiddenOrNull t.segs.es segs.es
  fs : HiddenOrNull t.segs.fs segs.fs
  gs : HiddenOrNull t.segs.gs segs.gs
  ldt : LdtPart t.ldtr segs.ldt

/-- An image holds the fields of the TSS at `nb`, each read at its offset (20_memory.md R96, R230, R231, R239). -/
structure TaskFields (s : State) (nb : Word) (img : TaskImage) : Prop where
  eip : tssWord s nb 32 = .ok img.eip
  eflags : tssWord s nb 36 = .ok img.eflags
  eax : tssWord s nb 40 = .ok img.gprs.eax
  ecx : tssWord s nb 44 = .ok img.gprs.ecx
  edx : tssWord s nb 48 = .ok img.gprs.edx
  ebx : tssWord s nb 52 = .ok img.gprs.ebx
  esp : tssWord s nb 56 = .ok img.gprs.esp
  ebp : tssWord s nb 60 = .ok img.gprs.ebp
  esi : tssWord s nb 64 = .ok img.gprs.esi
  edi : tssWord s nb 68 = .ok img.gprs.edi
  es : tssHalf s nb 72 = .ok img.es
  cs : tssHalf s nb 76 = .ok img.cs
  ss : tssHalf s nb 80 = .ok img.ss
  ds : tssHalf s nb 84 = .ok img.ds
  fs : tssHalf s nb 88 = .ok img.fs
  gs : tssHalf s nb 92 = .ok img.gs
  ldt : tssHalf s nb 96 = .ok img.ldt
  trap : ∃ w, tssHalf s nb 100 = .ok w ∧ img.trap = w.getLsbD 0
  cr3 : if s.paging then tssWord s nb 28 = .ok img.cr3 else img.cr3 = s.cr3

/-- Every byte a switch reads is listed: byte 5 of the two descriptors whose busy flag it writes, and the bytes of the
new TSS (20_memory.md R95, 42_task_switch.md R214, R220, R230). -/
structure SwitchListed (init : Initiator) (nsel : Selector) (nd : Desc) (s : State) : Prop where
  old : leavesOld init = true → s.mem.read (busyAddr s s.tr.selector) ≠ none
  new : marksNew init = true → s.mem.read (busyAddr s nsel) ≠ none
  tss : ∀ a ∈ tssBytes (descBase nd) 0 104, s.mem.read a ≠ none

/-- What step 8 leaves in the old TSS at `ob`, read back from `t`: the EIP and the EFLAGS image saved, and the
general registers and selectors of `s` (R216). -/
structure SavedTask (ob ret img : Word) (s t : State) : Prop where
  eip : tssWord t ob 32 = .ok ret
  eflags : tssWord t ob 36 = .ok img
  eax : tssWord t ob 40 = .ok s.gprs.eax
  ecx : tssWord t ob 44 = .ok s.gprs.ecx
  edx : tssWord t ob 48 = .ok s.gprs.edx
  ebx : tssWord t ob 52 = .ok s.gprs.ebx
  esp : tssWord t ob 56 = .ok s.gprs.esp
  ebp : tssWord t ob 60 = .ok s.gprs.ebp
  esi : tssWord t ob 64 = .ok s.gprs.esi
  edi : tssWord t ob 68 = .ok s.gprs.edi
  es : tssHalf t ob 72 = .ok s.segs.es.selector
  cs : tssHalf t ob 76 = .ok s.segs.cs.selector
  ss : tssHalf t ob 80 = .ok s.segs.ss.selector
  ds : tssHalf t ob 84 = .ok s.segs.ds.selector
  fs : tssHalf t ob 88 = .ok s.segs.fs.selector
  gs : tssHalf t ob 92 = .ok s.segs.gs.selector

/-- The structures one switch writes lie apart: neither descriptor's busy byte nor the new task's link lies in
the saved part of the old TSS, the busy bytes are two, and none is in the link (20_memory.md R87, R108). -/
structure Apart (nsel : Selector) (nd : Desc) (s : State) : Prop where
  old : busyAddr s s.tr.selector ∉ tssBytes s.tr.base 32 64
  new : busyAddr s nsel ∉ tssBytes s.tr.base 32 64
  link : ∀ a ∈ tssBytes (descBase nd) 0 2, a ∉ tssBytes s.tr.base 32 64
  busy : busyAddr s nsel ≠ busyAddr s s.tr.selector
  oldLink : busyAddr s s.tr.selector ∉ tssBytes (descBase nd) 0 2
  newLink : busyAddr s nsel ∉ tssBytes (descBase nd) 0 2

/-- The checks of phase 1 that fail, each with its exception (R203, R207, R204, R206). -/
inductive SwitchFails (init : Initiator) (nsel : Selector) (nd : Desc) (ext : Bool) (s : State) : Exc → Prop where
  | notPresent (h : descP nd = false) : SwitchFails init nsel nd ext s (excCode .np (selCode nsel ext))
  | limit (h : (descLimit nd).toNat < 0x67) : SwitchFails init nsel nd ext s (excCode .ts (selCode nsel ext))
  | busy (hi : init ≠ .iret) (h : descBusy nd = true) :
      SwitchFails init nsel nd ext s (excCode .gp (selCode nsel ext))
  | notBusy (hi : init = .iret) (h : descBusy nd = false) :
      SwitchFails init nsel nd ext s (excCode .ts (selCode nsel ext))
  | notPaged (h : pagedIn init nsel nd s = false) : SwitchFails init nsel nd ext s excPf

/-! ### How an instruction finds its TSS descriptor (41_task_dispatch.md R177, R179) -/

/-- The far transfers, each with its initiator and the selector of its far pointer (R174, R175, 30_encoding.md R126,
R127). -/
inductive FarSelector (s : State) : Instr → Initiator → Selector → Prop where
  | jmpPtr (sel : Selector) (off : Word) : FarSelector s (.jmpPtr sel off) .jmp sel
  | jmpMem (m : MemOp) (sel : Selector) (h : readFarPtr s m = .ok sel) : FarSelector s (.jmpMem m) .jmp sel
  | callPtr (sel : Selector) (off : Word) : FarSelector s (.callPtr sel off) .call sel
  | callMem (m : MemOp) (sel : Selector) (h : readFarPtr s m = .ok sel) : FarSelector s (.callMem m) .call sel

/-- A far pointer's selector that names a 32-bit TSS descriptor of the GDT directly, with the privilege R176
asks for. -/
structure DirectTarget (s : State) (sel : Selector) (nd : Desc) : Prop where
  notNull : selNull sel = false
  ti : selTi sel = false
  desc : readDesc s sel = .ok (some nd)
  tss : isTss32 nd = true
  cpl : s.cpl ≤ descDpl nd
  rpl : selRpl sel ≤ descDpl nd

/-- A task gate's TSS selector names a 32-bit TSS descriptor of the GDT (R179). -/
structure GateNames (s : State) (g nd : Desc) : Prop where
  ti : selTi (gateSel g) = false
  inTable : inGdt s (gateSel g) = true
  desc : readDescAt s (gdtAddr s (gateSel g)) = .ok nd
  tss : isTss32 nd = true

/-- A far pointer's selector that names a present task gate in the GDT or the LDT, with the privilege R178 asks
for. -/
structure GatedTarget (s : State) (sel : Selector) (g nd : Desc) : Prop where
  notNull : selNull sel = false
  desc : readDesc s sel = .ok (some g)
  gate : isTaskGate g = true
  present : descP g = true
  cpl : s.cpl ≤ descDpl g
  rpl : selRpl sel ≤ descDpl g
  names : GateNames s g nd

/-- An IDT entry that is a present task gate, its DPL checked for `INT n` only (R183, R184). -/
structure IdtTarget (s : State) (v : Byte) (cls : EventClass) (g nd : Desc) : Prop where
  inTable : inIdt s v = true
  desc : readDescAt s (idtAddr s v) = .ok g
  gate : isTaskGate g = true
  present : descP g = true
  dpl : cls.checksDpl = true → s.cpl ≤ descDpl g
  names : GateNames s g nd

/-- The previous-task link of the current TSS names a 32-bit TSS descriptor of the GDT (R180). -/
structure LinkTarget (s : State) (link : Selector) (nd : Desc) : Prop where
  reads : ∃ v, tssRead s s.tr.base 0 2 = .ok v ∧ link = BitVec.ofNat 16 v
  ti : selTi link = false
  inTable : inGdt s link = true
  desc : readDescAt s (gdtAddr s link) = .ok nd
  tss : isTss32 nd = true

/-- The task switch that an instruction or an external interrupt makes, when its dispatch finds the TSS descriptor:
how the step ends, the initiator, the selector, the descriptor, the EIP saved and EXT (R174, R175, R180, R182,
60_exceptions.md R262). -/
inductive SwitchOf (s : State) : Result → Initiator → Selector → Desc → Word → Bool → Prop where
  | direct (i : Instr) (init : Initiator) (sel : Selector) (nd : Desc) (hm : s.inProtectedMode = true)
      (hf : FarSelector s i init sel) (ht : DirectTarget s sel nd) :
      SwitchOf s (exec i s) init sel nd (s.eip + BitVec.ofNat 32 i.length) false
  | gated (i : Instr) (init : Initiator) (sel : Selector) (g nd : Desc) (hm : s.inProtectedMode = true)
      (hf : FarSelector s i init sel) (ht : GatedTarget s sel g nd) :
      SwitchOf s (exec i s) init (gateSel g) nd (s.eip + BitVec.ofNat 32 i.length) false
  | iret (link : Selector) (nd : Desc) (hm : s.inProtectedMode = true) (hn : s.eflags.getLsbD 14 = true)
      (ht : LinkTarget s link nd) : SwitchOf s (exec .iret s) .iret link nd (s.eip + 1) false
  | intN (n : Byte) (g nd : Desc) (hm : s.inProtectedMode = true) (ht : IdtTarget s n .softInt g nd) :
      SwitchOf s (exec (.intN n) s) .int (gateSel g) nd (s.eip + 2) false
  | extInt (v : Byte) (g nd : Desc) (ht : IdtTarget s v .extInt g nd) :
      SwitchOf s (takeInterrupt v s) .int (gateSel g) nd s.eip true

/-- A switch that has committed leaves this exception pending in `t`, and whatever made the switch takes it there; with
the T flag of the new task as well, it is the model fault of R239. -/
def LeavesPending (init : Initiator) (nsel : Selector) (nd : Desc) (ret : Word) (ext : Bool) (s : State) (trap : Bool)
    (e : Exc) (t : State) : Prop :=
  (trap = false →
    taskSwitch init nsel nd ret ext [] s = .ok { state := t, pending := some e } ∧
    ∀ r, SwitchOf s r init nsel nd ret ext → r = takeException e t) ∧
  (trap = true →
    taskSwitch init nsel nd ret ext [] s = .error (.fault .debugTrapWithSwitchFault) ∧
    ∀ r, SwitchOf s r init nsel nd ret ext → r = .fault .debugTrapWithSwitchFault)

/-! ### Invariants -/

/-- EFLAGS as every load leaves it: bit 1 is 1, the other reserved bits and VM are 0 (10_state.md R25, R27,
R232). -/
def EflagsOk (f : Word) : Prop := f &&& 0xFFC2802A#32 = 0x00000002#32

/-- The invariant of the machine: memory in canonical form, reserved bits of EFLAGS as they read, and the task
register caching a busy TSS (R223; the type at reset is PRESUMED, log 1). -/
structure Invariant (s : State) : Prop where
  mem : s.mem.wf
  eflags : EflagsOk s.eflags
  tr : s.tr.attr.type = 11#4

/-- What no step does to the system registers: GDTR and IDTR are kept, CR0 changes in TS alone and TS is never
cleared (10_state.md R32, R33, R39, R40). -/
structure SystemKept (s t : State) : Prop where
  gdtr : t.gdtr = s.gdtr
  idtr : t.idtr = s.idtr
  cr0 : setTs t.cr0 = setTs s.cr0
  ts : cr0Ts s.cr0 = true → cr0Ts t.cr0 = true

/-- What only a task switch writes: EFLAGS, the segment registers (and with CS the CPL), LDTR and CR3
(10_state.md R22, R29, R31, R34, R42). -/
structure TaskKept (s t : State) : Prop where
  eflags : t.eflags = s.eflags
  segs : t.segs = s.segs
  ldtr : t.ldtr = s.ldtr
  cr3 : t.cr3 = s.cr3

/-- `t` is reached from `s` by task switches alone: one, or a second one for the exception the first left pending; the
push of an error code writes ESP, memory and the counter of free values after the last (42_task_switch.md R243,
41_task_dispatch.md R185). -/
inductive Enters : State → State → Prop where
  | last {s t : State} (init : Initiator) (nsel : Selector) (nd : Desc) (ret : Word) (ext : Bool) (sw : Switched)
      (h : taskSwitch init nsel nd ret ext [] s = .ok sw)
      (kept : t = { sw.state with gprs := t.gprs, mem := t.mem, draws := t.draws }) : Enters s t
  | more {s t : State} (init : Initiator) (nsel : Selector) (nd : Desc) (ret : Word) (ext : Bool) (sw : Switched)
      (h : taskSwitch init nsel nd ret ext [] s = .ok sw) (next : Enters sw.state t) : Enters s t

/-! ### Launch and end of a run (70_reset_and_hazards.md R303, R306, R322) -/

/-- The run has reached `end_point`, the logical address `cs:eip` the host gives (R322). -/
abbrev AtEnd (cs : Selector) (eip : Word) (s : State) : Prop := s.segs.cs.selector = cs ∧ s.eip = eip

/-- What the environment offers at the next step of a run: the first of a list, none after its end (00_scope.md R4
`ext_interrupts`, 60_exceptions.md R262). -/
def offerNow : List (Option Byte) → Option Byte
  | [] => none
  | o :: _ => o

/-- How a run stands. Only `final` is a final state (R322). -/
inductive RunEnd where
  /-- The fetch has reached `end_point` in this state. -/
  | final (s : State)
  /-- The steps were used up in this state, which is not at `end_point`: the run has not ended. -/
  | running (s : State)
  /-- A model fault stopped the run: no final state. -/
  | fault (f : Fault)
  /-- A refusal stopped the run: no final state. -/
  | refused (r : Refusal)
  deriving DecidableEq, Repr

/-- A run of at most that many steps to `end_point`, with the environment's offers (R322). DESIGN CHOICE (log 25): a run
whose state is at `end_point` ends there and an external interrupt offered at that step is not taken, due or not; R322
and R263 leave open which comes first. -/
def runTo (cs : Selector) (eip : Word) : Nat → List (Option Byte) → State → RunEnd
  | 0, _, s => if AtEnd cs eip s then .final s else .running s
  | n + 1, offers, s =>
    if AtEnd cs eip s then .final s
    else
      match stepWith (offerNow offers) s with
      | .next t => runTo cs eip n offers.tail t
      | .fault f => .fault f
      | .refused r => .refused r

/-- TR is as at reset (R300). -/
abbrev TrAtReset (s : State) : Prop := s.tr.selector = 0 ∧ s.tr.base = 0 ∧ s.tr.limit = 0xFFFF

/-- TR names a busy 32-bit TSS descriptor of the GDT whose base and limit it holds (R303); a null selector names none
(20_memory.md R71). -/
def TrLoaded (s : State) : Prop :=
  selNull s.tr.selector = false ∧ selTi s.tr.selector = false ∧ inGdt s s.tr.selector = true ∧
    ∃ d, readDescAt s (gdtAddr s s.tr.selector) = .ok d ∧ isTss32 d = true ∧ descBusy d = true ∧
      descBase d = s.tr.base ∧ descLimit d = s.tr.limit

/-- A table register names a table in memory: each of its descriptors can be read (R303). -/
def TableInMemory (s : State) (t : TableReg) : Prop :=
  ∀ k, 8 * k + 7 ≤ t.limit.toNat → ∃ d, readDescAt s (t.base + BitVec.ofNat 32 (8 * k)) = .ok d

/-- The step that leads from `s` to `t` is the own effect of LTR or STR, so that it switches no task. -/
def SwitchesNoTask (offer : Option Byte) (s t : State) : Prop :=
  ∃ rm, (nextAction offer s = .run (.ltr rm) s ∧ ltrOp rm s = .ok (done t)) ∨
    (nextAction offer s = .run (.str rm) s ∧ strOp rm s = .ok (done t))

/-- For that many steps of the run, or until it stops: as long as TR is as at reset no step switches tasks, so that an
`LTR` comes before the first task switch (R303, R306). -/
def LtrFirst (cs : Selector) (eip : Word) : Nat → List (Option Byte) → State → Prop
  | 0, _, _ => True
  | n + 1, offers, s => TrAtReset s → ¬ AtEnd cs eip s →
    match stepWith (offerNow offers) s with
    | .next t => SwitchesNoTask (offerNow offers) s t ∧ LtrFirst cs eip n offers.tail t
    | .fault _ => True
    | .refused _ => True

/-- The premises R303 and R306 put on a launch state, for a run to `cs:eip` with these offers. -/
structure Launch (cs : Selector) (eip : Word) (offers : List (Option Byte)) (s : State) : Prop where
  pe : cr0Pe s.cr0 = true
  vm : eflagsVm s.eflags = false
  csValid : s.segs.cs.valid = true
  ssValid : s.segs.ss.valid = true
  code32 : s.segs.cs.db = true
  gdt : TableInMemory s s.gdtr
  idt : TableInMemory s s.idtr
  tr : TrAtReset s ∨ TrLoaded s
  ltrFirst : ∀ n, LtrFirst cs eip n offers s

end Sys2Proof.Safety
end

