-- ==== Sys2Proof/Certificates/Slice0/Obligations.lean ====
section
/-! DEFINITION. The statements for the provers, from the numbered rules of spec/. Where a statement quantifies over
`s1`, `img` and `segs`, they are the committed state, the new task's TSS and its descriptors, which the premises
tie to the state. -/

open Sys2Proof Sys2Proof.Machine Sys2Proof.Safety

/-! ### Encoding (30_encoding.md) -/

/-- R122 to R136: decoding the bytes of a well-formed instruction gives it back, every operand at every value,
whatever follows. -/
def Obligations.EncodeThenDecode : Prop :=
  ∀ (i : Instr) (rest : List Byte), i.wellFormed = true → decode (encode i ++ rest) = .instr i

/-- R136: whatever the decoder accepts is the encoding of a well-formed instruction, so each byte string has one
meaning. -/
def Obligations.DecodeThenEncode : Prop :=
  ∀ (bs : List Byte) (i : Instr), decode bs = .instr i →
    i.wellFormed = true ∧ ∃ rest, bs = encode i ++ rest

/-- R136: the decoder asks for each byte of an instruction and for none after it. -/
def Obligations.DecodeAsksForMore : Prop :=
  ∀ (i : Instr) (n : Nat), i.wellFormed = true → n < i.length → decode ((encode i).take n) = .more

/-- R128 to R135: words written out from the spec's encodings, one or more for each row of the opcode table. -/
def Obligations.SpecWordsDecode : Prop :=
  decode [0xEA, 0x78, 0x56, 0x34, 0x12, 0x20, 0x00] = .instr (.jmpPtr 0x0020 0x12345678) ∧
  decode [0x9A, 0x00, 0x00, 0x00, 0x00, 0x28, 0x00] = .instr (.callPtr 0x0028 0) ∧
  decode [0xFF, 0x6D, 0xF8] = .instr (.jmpMem (.base .ebp (.d8 0xF8))) ∧
  decode [0xFF, 0x1D, 0x00, 0x80, 0x00, 0x00] = .instr (.callMem (.abs 0x8000)) ∧
  decode [0xFF, 0x1C, 0x8D, 0x10, 0x00, 0x00, 0x00] = .instr (.callMem (.sibAbs 2 .ecx 0x10)) ∧
  decode [0xCF] = .instr .iret ∧
  decode [0xCD, 0x30] = .instr (.intN 0x30) ∧
  decode [0x0F, 0x00, 0xD8] = .instr (.ltr (.reg .eax)) ∧
  decode [0x0F, 0x00, 0x0C, 0x24] = .instr (.str (.mem (.sib 0 .esp .esp .none)))

/-! ### Reset (70_reset_and_hazards.md) -/

/-- R300: the selector and the base of the task register are 0 and its limit is FFFFh. -/
def Obligations.ResetTaskRegister : Prop :=
  State.reset.tr.selector = 0x0000#16 ∧ State.reset.tr.base = 0x00000000#32 ∧
  State.reset.tr.limit = 0x0000FFFF#32

/-- The invariant of `StepKeepsInvariant` holds at reset. Memory is empty (R301); EFLAGS and the type TR caches at
reset are the model's choice (log 1). -/
def Obligations.ResetMeetsInvariant : Prop := Invariant State.reset

/-! ### Fetching and stepping -/

/-- R136, R262: where the bytes at CS:EIP are those of an instruction, the step is its meaning, with nothing added. -/
def Obligations.StepRunsInstruction : Prop :=
  ∀ (s : State) (i : Instr), ReadyToFetch s → i.wellFormed = true → FetchesBytes s (encode i) → step s = exec i s

/-- R129, R131: FF /3 and FF /5 with mod = 11b raise #UD, delivered with the EIP of the instruction. -/
def Obligations.IllegalFormRaisesUd : Prop :=
  ∀ (s : State) (m : Byte), ReadyToFetch s → m.toNat / 64 = 3 → (m.toNat / 8 % 8 = 3 ∨ m.toNat / 8 % 8 = 5) →
    FetchesBytes s [0xFF, m] → step s = takeException (exc .ud) s

/-- R41, R121, R137: another mode, a 16-bit code segment, a leading prefix byte, and bytes that no row matches are
refused, each by its name; and the bytes that no row matches are those of R137's list, with any bytes after them. -/
def Obligations.StepRefusesOutOfScope : Prop :=
  (∀ (offer : Option Byte) (s : State), s.inProtectedMode = false → stepWith offer s = .refused .modeNotModelled) ∧
  (∀ s : State, s.inProtectedMode = true → s.segs.cs.valid = true → s.segs.cs.db = false →
    step s = .refused .sixteenBitCode) ∧
  (∀ (s : State) (b : Byte), ReadyToFetch s →
    b ∈ [0x26#8, 0x2E#8, 0x36#8, 0x3E#8, 0x64#8, 0x65#8, 0x66#8, 0x67#8, 0xF0#8, 0xF2#8, 0xF3#8] →
    FetchesBytes s [b] → step s = .refused .prefixNotModelled) ∧
  (∀ (s : State) (bs : List Byte), ReadyToFetch s → bs.length ≤ 15 → decode bs = .noRow → FetchesBytes s bs →
    step s = .refused .opcodeNotModelled) ∧
  (∀ bs : List Byte, decode bs = .noRow ↔ ∃ front rest, NoRowBytes front ∧ bs = front ++ rest)

/-- R136, R67, R24: a fetch that fails is taken as an exception at the EIP of the instruction, whichever of its bytes the
fetch was for: #GP(0) where CS is not valid, is no code segment (S and type bit 3), or ends, not being expand-down,
before that byte. A fetch is not refused as 16-bit code when CS is not valid (log 16). -/
def Obligations.FetchFaultRaisesGp : Prop :=
  ∀ s : State, s.inProtectedMode = true →
    (s.segs.cs.valid = false ∨
      (s.segs.cs.db = true ∧ (s.segs.cs.s = false ∨ s.segs.cs.type.getLsbD 3 = false)) ∨
      (s.segs.cs.db = true ∧ s.segs.cs.isCode = true ∧ s.segs.cs.limit.toNat < s.eip.toNat) →
      step s = takeException (excCode .gp 0) s) ∧
    (∀ bs : List Byte, s.segs.cs.db = true → bs.length < 15 → FetchesBytes s bs → decode bs = .more →
      (s.segs.cs.isCode = true → s.segs.cs.limit.toNat < (s.eip + BitVec.ofNat 32 bs.length).toNat →
        step s = takeException (excCode .gp 0) s) ∧
      ∀ e, segRead s .cs .fetch (s.eip + BitVec.ofNat 32 bs.length) 1 = .error (.raise e) →
        step s = takeException e s)

/-- R262, R4: an external interrupt of vector 32 to 255 is taken before the next instruction when IF = 1; with IF = 0,
or a smaller vector, the step is the one with no interrupt offered, which `step` is. -/
def Obligations.StepTakesExternalInterrupt : Prop :=
  ∀ (s : State) (v : Byte), s.inProtectedMode = true →
    (s.eflags.getLsbD 9 = true ∧ 32 ≤ v.toNat → stepWith (some v) s = takeInterrupt v s) ∧
    (s.eflags.getLsbD 9 = false ∨ v.toNat < 32 → stepWith (some v) s = step s) ∧
    stepWith none s = step s

/-! ### Operands and memory -/

/-- R123, R124, R125: the effective address and the default segment of every memory form, each displacement with an
index and with index 100b, which is none. -/
def Obligations.EffectiveAddressForms : Prop :=
  ∀ (s : State) (b x : Reg) (sc : BitVec 2) (v : Byte) (d : Word),
    effAddr s (.base b .none) = s.gpr b ∧
    effAddr s (.base b (.d8 v)) = s.gpr b + v.signExtend 32 ∧
    effAddr s (.base b (.d32 d)) = s.gpr b + d ∧
    effAddr s (.abs d) = d ∧
    (x ≠ .esp → effAddr s (.sib sc x b (.d32 d)) = s.gpr b + (s.gpr x <<< sc.toNat) + d) ∧
    (x ≠ .esp → effAddr s (.sib sc x b (.d8 v)) = s.gpr b + (s.gpr x <<< sc.toNat) + v.signExtend 32) ∧
    (x ≠ .esp → effAddr s (.sib sc x b .none) = s.gpr b + (s.gpr x <<< sc.toNat)) ∧
    effAddr s (.sib sc .esp b .none) = s.gpr b ∧
    effAddr s (.sib sc .esp b (.d8 v)) = s.gpr b + v.signExtend 32 ∧
    effAddr s (.sib sc .esp b (.d32 d)) = s.gpr b + d ∧
    (x ≠ .esp → effAddr s (.sibAbs sc x d) = d + (s.gpr x <<< sc.toNat)) ∧
    effAddr s (.sibAbs sc .esp d) = d ∧
    (∀ e : Disp, operandSeg (.base b e) = (if b = .esp ∨ b = .ebp then .ss else .ds) ∧
      operandSeg (.sib sc x b e) = (if b = .esp ∨ b = .ebp then .ss else .ds)) ∧
    operandSeg (.abs d) = .ds ∧ operandSeg (.sibAbs sc x d) = .ds

/-- R127: the far pointer in memory is six bytes at the effective address, and its selector is the little-endian
number of the last two. -/
def Obligations.FarPointerInMemory : Prop :=
  ∀ (s : State) (m : MemOp) (b0 b1 b2 b3 b4 b5 : Byte), s.paging = false →
    segCheck s (operandSeg m) .read (effAddr s m) 4 = .ok () →
    segCheck s (operandSeg m) .read (effAddr s m + 4) 2 = .ok () →
    (∀ k (h : k < 6), s.mem.read (segLinear s (operandSeg m) (effAddr s m) + BitVec.ofNat 32 k).toNat =
      some ([b0, b1, b2, b3, b4, b5][k])) →
    readFarPtr s m = .ok (b5 ++ b4)

/-- R67, R136: the checks of an access through a segment register, in their order, and the access itself; a fetch needs a
code segment (S and type bit 3). For an expand-down segment R67 states no limit rule: the premise leaves it out. -/
def Obligations.SegmentAccessChecks : Prop :=
  ∀ (s : State) (seg : SegName) (off : Word) (n v : Nat), (s.seg seg).expandDown = false →
    let r := s.seg seg
    let e := if seg = .ss then excCode .ss 0 else excCode .gp 0
    let isCode := r.s && r.type.getLsbD 3
    (r.valid = false → segRead s seg .read off n = raise e ∧ segRead s seg .fetch off n = raise e ∧
      segWrite s seg off n v = raise e) ∧
    (r.valid = true → r.limit.toNat + 1 < off.toNat + n →
      segRead s seg .read off n = raise e ∧ segRead s seg .fetch off n = raise e ∧ segWrite s seg off n v = raise e) ∧
    (r.valid = true → off.toNat + n ≤ r.limit.toNat + 1 → r.readable = false →
      segRead s seg .read off n = raise (excCode .gp 0)) ∧
    (r.valid = true → off.toNat + n ≤ r.limit.toNat + 1 → r.readable = true →
      segRead s seg .read off n = memRead s .read s.cpl (r.base + off) n) ∧
    (r.valid = true → off.toNat + n ≤ r.limit.toNat + 1 → isCode = false →
      segRead s seg .fetch off n = raise (excCode .gp 0)) ∧
    (r.valid = true → off.toNat + n ≤ r.limit.toNat + 1 → isCode = true →
      segRead s seg .fetch off n = memRead s .fetch s.cpl (r.base + off) n) ∧
    (r.valid = true → off.toNat + n ≤ r.limit.toNat + 1 → r.writable = false →
      segWrite s seg off n v = raise (excCode .gp 0)) ∧
    (r.valid = true → off.toNat + n ≤ r.limit.toNat + 1 → r.writable = true →
      segWrite s seg off n v = memWrite s s.cpl (r.base + off) n v)

/-- R62, R65, paging off: what is written is read back, least significant byte lowest, so that a narrower read at the
same address gives the low bytes; every other byte of memory and every register stays. -/
def Obligations.LittleEndianAccess : Prop :=
  ∀ (s : State) (level : BitVec 2) (lin : Word) (n v : Nat), s.paging = false → n ≤ 8 →
    ∃ t, memWrite s level lin n v = .ok t ∧ t = s.withMem t.mem ∧
      (∀ k ≤ n, ∀ kind level', memRead t kind level' lin k = .ok (v % 256 ^ k)) ∧
      (∀ a, (∀ k < n, a ≠ (lin + BitVec.ofNat 32 k).toNat) → t.mem.read a = s.mem.read a)

/-- R104, paging off: a TSS access is the access at the linear address of the field. -/
def Obligations.TssAccessIsMemoryAccess : Prop :=
  ∀ (s : State) (base : Word) (off n v : Nat), s.paging = false → off + n ≤ 104 →
    tssRead s base off n = sysRead s (base + BitVec.ofNat 32 off) n ∧
    tssWrite s base off n v = sysWrite s (base + BitVec.ofNat 32 off) n v

/-- R76, paging off: SetBusy writes byte 5 of the descriptor in the GDT, changes its bit 1 alone, and no other byte of
memory. -/
def Obligations.SetBusyWritesOneByte : Prop :=
  ∀ (s : State) (sel : Selector) (b : Bool) (t : Byte), s.paging = false →
    s.mem.read (busyAddr s sel) = some t →
    ∃ u, setBusy s sel b = .ok u ∧ u = s.withMem u.mem ∧
      u.mem.read (busyAddr s sel) = some ((t &&& 0xFD#8) ||| (BitVec.ofBool b).setWidth 8 <<< 1) ∧
      ∀ a, a ≠ busyAddr s sel → u.mem.read a = s.mem.read a

/-- R78, R84: the effective limit is the raw limit with G = 0, and (raw << 12) | FFFh, at least FFFh, with G = 1. -/
def Obligations.EffectiveLimit : Prop :=
  ∀ d : Desc, let raw := d.extractLsb' 48 4 ++ d.extractLsb' 0 16
    (d.getLsbD 55 = false → (descLimit d).toNat = raw.toNat) ∧
    (d.getLsbD 55 = true → (descLimit d).toNat = raw.toNat * 4096 + 4095 ∧ 0xFFF ≤ (descLimit d).toNat)

/-- R258: the error code of a selector keeps its index and TI and puts EXT in bit 0; that of a vector has the vector in
bits 10:3, IDT set, TI clear and EXT in bit 0. -/
def Obligations.ErrorCodeFormat : Prop :=
  ∀ (sel : Selector) (v : Byte) (ext : Bool),
    (selCode sel ext).toNat = sel.toNat / 4 * 4 + ext.toNat ∧
    (vectorCode v ext).toNat = 8 * v.toNat + 2 + ext.toNat

/-- R25, R232: what a load of EFLAGS does to each bit: bit 1 reads 1; bits 3, 5, 15 and 31 to 22 read 0; every other
bit is loaded. -/
def Obligations.EflagsReservedBits : Prop :=
  ∀ (f : Word) (n : Nat), (maskEflags f).getLsbD n =
    (if n = 1 then true else if n = 3 ∨ n = 5 ∨ n = 15 ∨ 22 ≤ n then false else f.getLsbD n)

/-! ### STR and LTR (40_task_register.md) -/

/-- R151, R24: STR to a register writes the selector of TR, zero-extended, and moves EIP past the instruction; nothing
else changes, at any CPL. -/
def Obligations.StrToRegister : Prop :=
  ∀ (s : State) (r : Reg), s.inProtectedMode = true →
    exec (.str (.reg r)) s =
      .next { s with gprs := s.gprs.set r (s.tr.selector.setWidth 32), eip := s.eip + 3 }

/-- R151, paging off: STR to memory writes the two bytes of the selector at the effective address; only EIP and those
two bytes change. -/
def Obligations.StrToMemory : Prop :=
  ∀ (s : State) (m : MemOp), s.inProtectedMode = true → s.paging = false →
    segCheck s (operandSeg m) .write (effAddr s m) 2 = .ok () →
    let lo := (segLinear s (operandSeg m) (effAddr s m)).toNat
    let hi := (segLinear s (operandSeg m) (effAddr s m) + 1).toNat
    ∃ t, exec (.str (.mem m)) s = .next t ∧
      t = { s with mem := t.mem, eip := s.eip + BitVec.ofNat 32 (Instr.str (.mem m)).length } ∧
      t.mem.read lo = some (s.tr.selector.extractLsb' 0 8) ∧
      t.mem.read hi = some (s.tr.selector.extractLsb' 8 8) ∧
      ∀ a, a ≠ lo → a ≠ hi → t.mem.read a = s.mem.read a

/-- R67, R127, R150, R151, R266: a memory operand that fails an access (a check of its segment, or its translation)
raises that exception with nothing written: the destination of STR, the operand of LTR at CPL 0, and the offset and then
the selector of a far pointer (that the offset is read, and read first, is log 19). -/
def Obligations.MemoryOperandTraps : Prop :=
  ∀ (s : State) (m : MemOp) (e : Exc), s.inProtectedMode = true →
    (segWrite s (operandSeg m) (effAddr s m) 2 s.tr.selector.toNat = .error (.raise e) →
      exec (.str (.mem m)) s = takeException e s) ∧
    (s.cpl = 0 → segRead s (operandSeg m) .read (effAddr s m) 2 = .error (.raise e) →
      exec (.ltr (.mem m)) s = takeException e s) ∧
    (∀ i : Instr, i = .jmpMem m ∨ i = .callMem m →
      (segRead s (operandSeg m) .read (effAddr s m) 4 = .error (.raise e) → exec i s = takeException e s) ∧
      (∀ v, segRead s (operandSeg m) .read (effAddr s m) 4 = .ok v →
        segRead s (operandSeg m) .read (effAddr s m + 4) 2 = .error (.raise e) → exec i s = takeException e s))

/-- R150, paging off: LTR at CPL 0 of an available, present 32-bit TSS descriptor of the GDT loads TR from it with the
busy type and the base of its bits 31:16, 39:32 and 63:56, sets the busy flag in memory, and moves EIP past the
instruction; nothing else changes. -/
def Obligations.LtrLoadsTask : Prop :=
  ∀ (s : State) (rm : RegMem) (sel : Selector) (d : Desc), s.inProtectedMode = true → s.paging = false →
    s.cpl = 0 → readRegMem16 s rm = .ok sel → selNull sel = false → selTi sel = false → inGdt s sel = true →
    readDescAt s (gdtAddr s sel) = .ok d → d.getLsbD 44 = false → d.extractLsb' 40 4 = 0b1001#4 →
    d.getLsbD 47 = true →
    ∃ t, exec (.ltr rm) s = .next t ∧
      t = { s with
        mem := t.mem, eip := s.eip + BitVec.ofNat 32 (Instr.ltr rm).length
        tr :=
          { selector := sel, base := baseBits d, limit := descLimit d
            attr := { type := 0b1011#4, dpl := d.extractLsb' 45 2, p := true, g := d.getLsbD 55 } } } ∧
      t.mem.read (busyAddr s sel) = some (d.extractLsb' 40 8 ||| 2#8) ∧
      ∀ a, a ≠ busyAddr s sel → t.mem.read a = s.mem.read a

/-- R150: LTR at a CPL other than 0 raises #GP(0), whatever its operand; that an operand which cannot be read does not
raise its own exception first is the model's choice (log 6). -/
def Obligations.LtrIsPrivileged : Prop :=
  ∀ (s : State) (rm : RegMem), s.inProtectedMode = true → s.cpl ≠ 0 →
    exec (.ltr rm) s = takeException (excCode .gp 0) s

/-- R150: what LTR at CPL 0 does with a selector it cannot load: null, in the LDT, beyond the GDT, not an available
32-bit TSS, not present; a 16-bit TSS is refused. That a descriptor which is no available 32-bit TSS raises #GP also when
it is not present is the model's choice (log 6). -/
def Obligations.LtrRejects : Prop :=
  ∀ (s : State) (rm : RegMem) (sel : Selector), s.inProtectedMode = true → s.cpl = 0 →
    readRegMem16 s rm = .ok sel →
    (selNull sel = true → exec (.ltr rm) s = takeException (excCode .gp 0) s) ∧
    (selNull sel = false → selTi sel = true ∨ inGdt s sel = false →
      exec (.ltr rm) s = takeException (excCode .gp (selCode sel false)) s) ∧
    (∀ d, selNull sel = false → selTi sel = false → inGdt s sel = true →
      readDescAt s (gdtAddr s sel) = .ok d →
      (isTss16 d = true → exec (.ltr rm) s = .refused .sixteenBitTss) ∧
      (isTss16 d = false → (isTss32 d = false ∨ descBusy d = true) →
        exec (.ltr rm) s = takeException (excCode .gp (selCode sel false)) s) ∧
      (isTss32 d = true → descBusy d = false → descP d = false →
        exec (.ltr rm) s = takeException (excCode .np (selCode sel false)) s))

/-! ### The task switch (42_task_switch.md) -/

/-- R203, R207, R204: the exception of a check of steps 3 and 4 that is the only one to fail, for every initiator. -/
def Obligations.SwitchChecks : Prop :=
  ∀ (init : Initiator) (nsel : Selector) (nd : Desc) (ret : Word) (ext : Bool) (s : State),
    pagedIn init nsel nd s = true →
    (descP nd = false → 0x67 ≤ (descLimit nd).toNat → descBusy nd = (init == .iret) →
      taskSwitch init nsel nd ret ext [] s = raise (excCode .np (selCode nsel ext))) ∧
    (descP nd = true → (descLimit nd).toNat < 0x67 → descBusy nd = (init == .iret) →
      taskSwitch init nsel nd ret ext [] s = raise (excCode .ts (selCode nsel ext))) ∧
    (descP nd = true → 0x67 ≤ (descLimit nd).toNat → descBusy nd = true → init ≠ .iret →
      taskSwitch init nsel nd ret ext [] s = raise (excCode .gp (selCode nsel ext))) ∧
    (descP nd = true → 0x67 ≤ (descLimit nd).toNat → descBusy nd = false → init = .iret →
      taskSwitch init nsel nd ret ext [] s = raise (excCode .ts (selCode nsel ext)))

/-- R205, R206, R208, R266: when any checks of steps 3 to 5 fail, one of them is reported, whatever the model-specific
order, and the operation ends with nothing written; a far transfer, IRET, INT n or external interrupt whose switch that
is takes the exception from the state it began in. -/
def Obligations.AnyFailingCheckReported : Prop :=
  ∀ (init : Initiator) (nsel : Selector) (nd : Desc) (ret : Word) (ext : Bool) (s : State),
    (∃ e, SwitchFails init nsel nd ext s e) →
    ∃ e, SwitchFails init nsel nd ext s e ∧ taskSwitch init nsel nd ret ext [] s = raise e ∧
      ∀ r, SwitchOf s r init nsel nd ret ext → r = takeException e s

/-- R215, R216, paging off: after the commit the old TSS holds the return EIP, the EFLAGS image (NT cleared for IRET
alone), the general registers and the six selectors. -/
def Obligations.SwitchSavesOldTask : Prop :=
  ∀ (init : Initiator) (nsel : Selector) (nd : Desc) (ret : Word) (s s1 : State),
    s.paging = false → Apart nsel nd s → commitSwitch init nsel nd ret s = .ok s1 →
    SavedTask s.tr.base ret (if init = .iret then s.eflags &&& 0xFFFFBFFF#32 else s.eflags) s s1

/-- R214, R220, R221, paging off: `JMP` and `IRET` clear the busy flag of the old task, the others leave it; all but
`IRET` set that of the new task. -/
def Obligations.SwitchMovesBusyFlags : Prop :=
  ∀ (init : Initiator) (nsel : Selector) (nd : Desc) (ret : Word) (s s1 : State),
    s.paging = false → Apart nsel nd s → commitSwitch init nsel nd ret s = .ok s1 →
    s1.mem.read (busyAddr s s.tr.selector) =
      (if init = .jmp ∨ init = .iret then (s.mem.read (busyAddr s s.tr.selector)).map (· &&& 0xFD#8)
       else s.mem.read (busyAddr s s.tr.selector)) ∧
    s1.mem.read (busyAddr s nsel) =
      (if init = .iret then s.mem.read (busyAddr s nsel) else (s.mem.read (busyAddr s nsel)).map (· ||| 2#8))

/-- R222, paging off: `CALL` and the events write the old task's selector into the new task's link; `JMP` and `IRET`
leave the link bytes. -/
def Obligations.SwitchLinksNewTask : Prop :=
  ∀ (init : Initiator) (nsel : Selector) (nd : Desc) (ret : Word) (s s1 : State),
    s.paging = false → Apart nsel nd s → commitSwitch init nsel nd ret s = .ok s1 →
    (init = .call ∨ init = .int → tssHalf s1 (descBase nd) 0 = .ok s.tr.selector) ∧
    (init = .jmp ∨ init = .iret → ∀ a ∈ tssBytes (descBase nd) 0 2, s1.mem.read a = s.mem.read a)

/-- R223, R229: every switch that succeeds leaves TR naming the new task with the busy type and the base of the
descriptor's bits, and CR0.TS set, every other bit of CR0 kept. -/
def Obligations.SwitchLoadsTr : Prop :=
  ∀ (init : Initiator) (nsel : Selector) (nd : Desc) (ret : Word) (ext : Bool) (s : State) (sw : Switched),
    taskSwitch init nsel nd ret ext [] s = .ok sw →
    sw.state.tr =
      { selector := nsel, base := baseBits nd, limit := descLimit nd
        attr := { type := 0b1011#4, dpl := nd.extractLsb' 45 2, p := nd.getLsbD 47, g := nd.getLsbD 55 } } ∧
    ∀ n, sw.state.cr0.getLsbD n = (decide (n = 3) || s.cr0.getLsbD n)

/-- R219, R232: the EFLAGS of the new task, and NT in it: 1 for `CALL` and the events, as in the new TSS for `JMP` and
`IRET`. Phase 3 writes no memory, so the field in the TSS stays. -/
def Obligations.SwitchLoadsEflags : Prop :=
  ∀ (init : Initiator) (nsel : Selector) (nd : Desc) (ret : Word) (ext : Bool) (s : State) (sw : Switched),
    taskSwitch init nsel nd ret ext [] s = .ok sw →
    ∃ (s1 : State) (fl : Word), commitSwitch init nsel nd ret s = .ok s1 ∧
      tssWord s1 (descBase nd) 36 = .ok fl ∧ fl.getLsbD 17 = false ∧ sw.state.mem = s1.mem ∧
      sw.state.eflags =
        ((if init = .call ∨ init = .int then fl ||| 0x00004000#32 else fl) &&& 0x003F7FD5#32) ||| 2#32 ∧
      (init = .call ∨ init = .int → sw.state.eflags.getLsbD 14 = true) ∧
      (init = .jmp ∨ init = .iret → sw.state.eflags.getLsbD 14 = fl.getLsbD 14)

/-- R96, R230, R231, R238: an image of a TSS holds each field at its offset, and every switch that succeeds loads from
the image of the new TSS: EIP, the eight general registers, the six segment selectors and that of the LDTR. The new
task runs at the privilege level of its CS selector. CR3 is loaded with paging on and is not with paging off. -/
def Obligations.SwitchLoadsContext : Prop :=
  (∀ (s : State) (nb : Word) (img : TaskImage), readTask s nb = .ok img → TaskFields s nb img) ∧
  ∀ (init : Initiator) (nsel : Selector) (nd : Desc) (ret : Word) (ext : Bool) (s : State) (sw : Switched),
    taskSwitch init nsel nd ret ext [] s = .ok sw →
    ∃ (s1 : State) (img : TaskImage), commitSwitch init nsel nd ret s = .ok s1 ∧ TaskFields s1 (baseBits nd) img ∧
      sw.state.eip = img.eip ∧ sw.state.gprs = img.gprs ∧
      sw.state.segs.es.selector = img.es ∧ sw.state.segs.cs.selector = img.cs ∧
      sw.state.segs.ss.selector = img.ss ∧ sw.state.segs.ds.selector = img.ds ∧
      sw.state.segs.fs.selector = img.fs ∧ sw.state.segs.gs.selector = img.gs ∧
      sw.state.ldtr.selector = img.ldt ∧ sw.state.cpl = img.cs.extractLsb' 0 2 ∧
      (s.paging = false → sw.state.cr3 = s.cr3) ∧
      (s.paging = true → tssWord s1 (baseBits nd) 28 = .ok sw.state.cr3)

/-- R232: a task whose EFLAGS has VM = 1 is refused by name, and so is the far transfer, IRET, INT n or external
interrupt that enters it. -/
def Obligations.VirtualTaskRefused : Prop :=
  ∀ (init : Initiator) (nsel : Selector) (nd : Desc) (ret : Word) (ext : Bool) (s s1 : State) (img : TaskImage),
    ChecksPass init nsel nd s → commitSwitch init nsel nd ret s = .ok s1 →
    readTask s1 (descBase nd) = .ok img → img.eflags.getLsbD 17 = true →
    taskSwitch init nsel nd ret ext [] s = refuse .v86NotModelled ∧
    ∀ r, SwitchOf s r init nsel nd ret ext → r = .refused .v86NotModelled

/-! ### The instructions and events that switch tasks (41_task_dispatch.md)

`TaskLoaded` gives every register of the new task from its TSS and its descriptors, hidden parts bit for bit.
`Completes` has the selectors pass the table of R236, which the spec recommends for an open parameter (log 7). -/

/-- R174, R177: JMP, by either pointer form, to a TSS descriptor enters the new task; what it leaves unchanged. -/
def Obligations.JmpEntersTask : Prop :=
  ∀ (s s1 : State) (i : Instr) (sel : Selector) (nd : Desc) (img : TaskImage) (segs : NewSegs),
    s.inProtectedMode = true → FarSelector s i .jmp sel → DirectTarget s sel nd →
    Completes .jmp sel nd (s.eip + BitVec.ofNat 32 i.length) s s1 img segs →
    exec i s = .next (entered .jmp img segs s1) ∧ TaskLoaded .jmp img segs (entered .jmp img segs s1) ∧
      SwitchFrame .jmp sel nd s (entered .jmp img segs s1)

/-- R174, R177, R178: JMP, by either pointer form, to a task gate enters the task the gate names. -/
def Obligations.JmpThroughGateEntersTask : Prop :=
  ∀ (s s1 : State) (i : Instr) (sel : Selector) (g nd : Desc) (img : TaskImage) (segs : NewSegs),
    s.inProtectedMode = true → FarSelector s i .jmp sel → GatedTarget s sel g nd →
    Completes .jmp (gateSel g) nd (s.eip + BitVec.ofNat 32 i.length) s s1 img segs →
    exec i s = .next (entered .jmp img segs s1) ∧ TaskLoaded .jmp img segs (entered .jmp img segs s1) ∧
      SwitchFrame .jmp (gateSel g) nd s (entered .jmp img segs s1)

/-- R175, R177: CALL, by either pointer form, to a TSS descriptor enters the new task, nested: NT is 1. -/
def Obligations.CallEntersTask : Prop :=
  ∀ (s s1 : State) (i : Instr) (sel : Selector) (nd : Desc) (img : TaskImage) (segs : NewSegs),
    s.inProtectedMode = true → FarSelector s i .call sel → DirectTarget s sel nd →
    Completes .call sel nd (s.eip + BitVec.ofNat 32 i.length) s s1 img segs →
    exec i s = .next (entered .call img segs s1) ∧ TaskLoaded .call img segs (entered .call img segs s1) ∧
      SwitchFrame .call sel nd s (entered .call img segs s1)

/-- R175, R177, R178: CALL, by either pointer form, to a task gate enters the task the gate names, nested. -/
def Obligations.CallThroughGateEntersTask : Prop :=
  ∀ (s s1 : State) (i : Instr) (sel : Selector) (g nd : Desc) (img : TaskImage) (segs : NewSegs),
    s.inProtectedMode = true → FarSelector s i .call sel → GatedTarget s sel g nd →
    Completes .call (gateSel g) nd (s.eip + BitVec.ofNat 32 i.length) s s1 img segs →
    exec i s = .next (entered .call img segs s1) ∧ TaskLoaded .call img segs (entered .call img segs s1) ∧
      SwitchFrame .call (gateSel g) nd s (entered .call img segs s1)

/-- R182, R183: INT n through a task gate of the IDT enters the handler task, nested; nothing is pushed. -/
def Obligations.IntEntersHandler : Prop :=
  ∀ (s s1 : State) (n : Byte) (g nd : Desc) (img : TaskImage) (segs : NewSegs),
    s.inProtectedMode = true → IdtTarget s n .softInt g nd →
    Completes .int (gateSel g) nd (s.eip + 2) s s1 img segs →
    exec (.intN n) s = .next (entered .int img segs s1) ∧ TaskLoaded .int img segs (entered .int img segs s1) ∧
      SwitchFrame .int (gateSel g) nd s (entered .int img segs s1)

/-- R180, R268: IRET with NT = 1 returns to the task the link of the current TSS names; no stack is read. -/
def Obligations.IretReturnsToTask : Prop :=
  ∀ (s s1 : State) (link : Selector) (nd : Desc) (img : TaskImage) (segs : NewSegs),
    s.inProtectedMode = true → s.eflags.getLsbD 14 = true → LinkTarget s link nd →
    Completes .iret link nd (s.eip + 1) s s1 img segs →
    exec .iret s = .next (entered .iret img segs s1) ∧ TaskLoaded .iret img segs (entered .iret img segs s1) ∧
      SwitchFrame .iret link nd s (entered .iret img segs s1)

/-- R250, R256, R272: the vector of each exception, and that one without an error code enters the handler task of its
vector, the EIP saved being that of the faulting instruction. -/
def Obligations.ExceptionEntersHandler : Prop :=
  (vectorOf .db = 1 ∧ vectorOf .ud = 6 ∧ vectorOf .nm = 7 ∧ vectorOf .df = 8 ∧ vectorOf .ts = 10 ∧ vectorOf .np = 11 ∧
    vectorOf .ss = 12 ∧ vectorOf .gp = 13 ∧ vectorOf .pf = 14) ∧
  ∀ (s s1 : State) (e : Exc) (g nd : Desc) (img : TaskImage) (segs : NewSegs),
    e.code = .none → IdtTarget s (vectorOf e.name) .exception g nd →
    Completes .int (gateSel g) nd s.eip s s1 img segs →
    takeException e s = .next (entered .int img segs s1) ∧ TaskLoaded .int img segs (entered .int img segs s1) ∧
      SwitchFrame .int (gateSel g) nd s (entered .int img segs s1)

/-- R185, R256, R255: an exception with an error code also pushes 32 bits on the handler's stack: the code zero-extended,
or for a page fault a free value (logs 9, 11). ESP, the four bytes pushed and, for a page fault, the counter of free values
are all that it adds. First with paging on or off, the push being a write through SS that does not fail; then, paging
off, the bytes it leaves. -/
def Obligations.ExceptionPushesErrorCode : Prop :=
  ∀ (s s1 : State) (e : Exc) (g nd : Desc) (img : TaskImage) (segs : NewSegs),
    e.code ≠ .none → IdtTarget s (vectorOf e.name) .exception g nd →
    Completes .int (gateSel g) nd s.eip s s1 img segs →
    let t0 := entered .int img segs s1
    let sp := img.gprs.esp - 4
    let lin := t0.segs.ss.base + sp
    TaskLoaded .int img segs t0 ∧ SwitchFrame .int (gateSel g) nd s t0 ∧
    (∀ w0, segWrite t0 .ss sp 4 0 = .ok w0 →
      ∃ (t w : State) (v : Word), takeException e s = .next t ∧ segWrite t0 .ss sp 4 v.toNat = .ok w ∧
        t = { t0 with gprs := { t0.gprs with esp := sp }, mem := w.mem, draws := t.draws } ∧
        ∀ c, e.code = .value c → v.toNat = c.toNat ∧ t.draws = t0.draws) ∧
    (s.paging = false → t0.segs.ss.within sp 4 = true →
      ∃ t, takeException e s = .next t ∧
        t = { t0 with gprs := { t0.gprs with esp := sp }, mem := t.mem, draws := t.draws } ∧
        (∀ c, e.code = .value c → memRead t .read 0 lin 4 = .ok c.toNat ∧ t.draws = t0.draws) ∧
        ∀ a, (∀ k < 4, a ≠ (lin + BitVec.ofNat 32 k).toNat) → t.mem.read a = t0.mem.read a)

/-- R262, R184: an external interrupt enters the handler task of its vector, the DPL of the gate not checked; nothing
is pushed. -/
def Obligations.ExternalInterruptEntersHandler : Prop :=
  ∀ (s s1 : State) (v : Byte) (g nd : Desc) (img : TaskImage) (segs : NewSegs),
    IdtTarget s v .extInt g nd → Completes .int (gateSel g) nd s.eip s s1 img segs →
    takeInterrupt v s = .next (entered .int img segs s1) ∧ TaskLoaded .int img segs (entered .int img segs s1) ∧
      SwitchFrame .int (gateSel g) nd s (entered .int img segs s1)

/-! ### Where those instructions trap or are refused -/

/-- R177: what JMP and CALL, by either pointer form, do with a selector that names no task: the exceptions, and the
forms refused by name. -/
def Obligations.FarTransferRejects : Prop :=
  ∀ (s : State) (i : Instr) (init : Initiator) (sel : Selector), s.inProtectedMode = true →
    FarSelector s i init sel →
    (selNull sel = true → exec i s = takeException (excCode .gp 0) s) ∧
    (selNull sel = false → readDesc s sel = .ok none →
      exec i s = takeException (excCode .gp (selCode sel false)) s) ∧
    (∀ d, selNull sel = false → readDesc s sel = .ok (some d) →
      (d.getLsbD 44 = true → exec i s = .refused .farTransferNotModelled) ∧
      (d.getLsbD 44 = false →
        (d.extractLsb' 40 4 ∈ [0b0001#4, 0b0011#4] → exec i s = .refused .sixteenBitTss) ∧
        (d.extractLsb' 40 4 ∈ [0b0100#4, 0b1100#4] → exec i s = .refused .gateNotModelled) ∧
        (d.extractLsb' 40 4 ∈ [0#4, 2#4, 6#4, 7#4, 8#4, 10#4, 13#4, 14#4, 15#4] →
          exec i s = takeException (excCode .gp (selCode sel false)) s)))

/-- R176, R85: a selector of a TSS descriptor in the LDT, or one whose CPL or RPL is numerically greater than the
descriptor's DPL, raises #GP with the selector, the checks of the switch itself passing. -/
def Obligations.FarPrivilegeRaisesGp : Prop :=
  ∀ (s : State) (i : Instr) (init : Initiator) (sel : Selector) (nd : Desc), s.inProtectedMode = true →
    FarSelector s i init sel → selNull sel = false → readDesc s sel = .ok (some nd) → isTss32 nd = true →
    ChecksPass init sel nd s →
    (selTi sel = true ∨ descDpl nd < s.cpl ∨ descDpl nd < selRpl sel) →
    exec i s = takeException (excCode .gp (selCode sel false)) s

/-- R178, R177, R179: through a task gate, a CPL or RPL numerically greater than the gate's DPL raises #GP with the
gate's selector, and a gate that is not present #NP with it, the other checks passing; a gate that passes raises the
exception of a target that does not. -/
def Obligations.GateChecksRaise : Prop :=
  ∀ (s : State) (i : Instr) (init : Initiator) (sel : Selector) (g : Desc), s.inProtectedMode = true →
    FarSelector s i init sel → selNull sel = false → readDesc s sel = .ok (some g) → isTaskGate g = true →
    (∀ nd, GateNames s g nd → ChecksPass init (gateSel g) nd s →
      (descP g = true → (descDpl g < s.cpl ∨ descDpl g < selRpl sel) →
        exec i s = takeException (excCode .gp (selCode sel false)) s) ∧
      (descP g = false → s.cpl ≤ descDpl g → selRpl sel ≤ descDpl g →
        exec i s = takeException (excCode .np (selCode sel false)) s)) ∧
    (∀ e, descP g = true → s.cpl ≤ descDpl g → selRpl sel ≤ descDpl g →
      gateTarget s (gateSel g) false = .error (.raise e) → exec i s = takeException e s)

/-- R179: the TSS selector of a task gate that is in the LDT, beyond the GDT, or names no 32-bit TSS. -/
def Obligations.GateTargetRejects : Prop :=
  ∀ (s : State) (tsel : Selector) (ext : Bool),
    (selTi tsel = true → gateTarget s tsel ext = raise (excCode .gp (selCode tsel ext))) ∧
    (selTi tsel = false → s.gdtr.limit.toNat < 8 * (tsel.toNat / 8) + 7 →
      gateTarget s tsel ext = raise (excCode .gp (selCode tsel ext))) ∧
    (∀ d, selTi tsel = false → 8 * (tsel.toNat / 8) + 7 ≤ s.gdtr.limit.toNat →
      readDescAt s (gdtAddr s tsel) = .ok d →
      (isTss16 d = true → gateTarget s tsel ext = refuse .sixteenBitTss) ∧
      (isTss16 d = false → isTss32 d = false →
        gateTarget s tsel ext = raise (excCode .gp (selCode tsel ext))) ∧
      (isTss32 d = true → gateTarget s tsel ext = .ok d))

/-- R209, R204, R262: a JMP, CALL, INT n or external interrupt whose target is a busy task, its own or one of the chain,
raises #GP with the TSS selector (EXT = 1 for the interrupt), and the task is not entered. -/
def Obligations.BusyTargetRaisesGp : Prop :=
  ∀ (s : State) (nd : Desc), s.inProtectedMode = true → descBusy nd = true → descP nd = true →
    0x67 ≤ (descLimit nd).toNat →
    (∀ (i : Instr) (init : Initiator) (sel : Selector), FarSelector s i init sel → DirectTarget s sel nd →
      pagedIn init sel nd s = true → exec i s = takeException (excCode .gp (selCode sel false)) s) ∧
    (∀ (i : Instr) (init : Initiator) (sel : Selector) (g : Desc), FarSelector s i init sel →
      GatedTarget s sel g nd → pagedIn init (gateSel g) nd s = true →
      exec i s = takeException (excCode .gp (selCode (gateSel g) false)) s) ∧
    (∀ (n : Byte) (g : Desc), IdtTarget s n .softInt g nd → pagedIn .int (gateSel g) nd s = true →
      exec (.intN n) s = takeException (excCode .gp (selCode (gateSel g) false)) s) ∧
    (∀ (v : Byte) (g : Desc), IdtTarget s v .extInt g nd → pagedIn .int (gateSel g) nd s = true →
      takeInterrupt v s = takeException (excCode .gp (selCode (gateSel g) true)) s)

/-- R183, R184, R262, R270: INT n and external interrupts (with EXT = 1 in the code, as a first exception) whose vector
is beyond the IDT, names no gate, names an interrupt or trap gate (refused), a gate that is not present, a gate whose
TSS selector is rejected, or, for INT n alone, a gate of a DPL below the CPL. -/
def Obligations.InterruptRejects : Prop :=
  ∀ (s : State) (n : Byte), s.inProtectedMode = true →
    (inIdt s n = false →
      exec (.intN n) s = takeException (excCode .gp (BitVec.ofNat 16 (8 * n.toNat + 2))) s ∧
      takeInterrupt n s = takeException (excCode .gp (BitVec.ofNat 16 (8 * n.toNat + 3))) s) ∧
    (∀ g, inIdt s n = true → readDescAt s (idtAddr s n) = .ok g →
      (isIntGate g = true →
        exec (.intN n) s = .refused .gateNotModelled ∧ takeInterrupt n s = .refused .gateNotModelled) ∧
      (isIntGate g = false → isTaskGate g = false →
        exec (.intN n) s = takeException (excCode .gp (BitVec.ofNat 16 (8 * n.toNat + 2))) s ∧
        takeInterrupt n s = takeException (excCode .gp (BitVec.ofNat 16 (8 * n.toNat + 3))) s) ∧
      (∀ nd, isTaskGate g = true → GateNames s g nd → ChecksPass .int (gateSel g) nd s →
        (descP g = true → descDpl g < s.cpl →
          exec (.intN n) s = takeException (excCode .gp (BitVec.ofNat 16 (8 * n.toNat + 2))) s) ∧
        (descP g = false → s.cpl ≤ descDpl g →
          exec (.intN n) s = takeException (excCode .np (BitVec.ofNat 16 (8 * n.toNat + 2))) s) ∧
        (descP g = false → takeInterrupt n s = takeException (excCode .np (BitVec.ofNat 16 (8 * n.toNat + 3))) s)) ∧
      (∀ e, isTaskGate g = true → descP g = true →
        (s.cpl ≤ descDpl g → gateTarget s (gateSel g) false = .error (.raise e) →
          exec (.intN n) s = takeException e s) ∧
        (gateTarget s (gateSel g) true = .error (.raise e) → takeInterrupt n s = takeException e s)))

/-- R180, R181: IRET with NT = 0 is refused; with NT = 1 a link that is in the LDT, beyond the GDT, no 32-bit TSS, or
not busy raises #TS with the link, and a 16-bit TSS is refused. -/
def Obligations.IretRejects : Prop :=
  ∀ s : State, s.inProtectedMode = true →
    (s.eflags.getLsbD 14 = false → exec .iret s = .refused .iretWithoutNtNotModelled) ∧
    (∀ link : Selector, s.eflags.getLsbD 14 = true → tssHalf s s.tr.base 0 = .ok link →
      (selTi link = true ∨ inGdt s link = false →
        exec .iret s = takeException (excCode .ts (selCode link false)) s) ∧
      (∀ d, selTi link = false → inGdt s link = true → readDescAt s (gdtAddr s link) = .ok d →
        (isTss16 d = true → exec .iret s = .refused .sixteenBitTss) ∧
        (isTss16 d = false → isTss32 d = false →
          exec .iret s = takeException (excCode .ts (selCode link false)) s) ∧
        (isTss32 d = true → descBusy d = false → descP d = true → 0x67 ≤ (descLimit d).toNat →
          pagedIn .iret link d s = true →
          exec .iret s = takeException (excCode .ts (selCode link false)) s)))

/-- R256, R265, R270, R271: an exception whose vector is beyond the IDT, names no gate, a gate that is not present, a
gate whose TSS selector is rejected, or a task for which a check of the switch fails, one whose delivery leaves an
exception pending after the commit, and one whose error code cannot be pushed (R185), is a nested fault; one through an
interrupt or trap gate is refused. -/
def Obligations.NestedException : Prop :=
  ∀ (s : State) (e : Exc),
    (inIdt s (vectorOf e.name) = false → takeException e s = .fault .nestedFault) ∧
    (∀ g, inIdt s (vectorOf e.name) = true → readDescAt s (idtAddr s (vectorOf e.name)) = .ok g →
      (isIntGate g = true → takeException e s = .refused .gateNotModelled) ∧
      (isIntGate g = false → isTaskGate g = false → takeException e s = .fault .nestedFault) ∧
      (isTaskGate g = true → descP g = false → takeException e s = .fault .nestedFault) ∧
      (∀ x, isTaskGate g = true → gateTarget s (gateSel g) true = .error (.raise x) →
        takeException e s = .fault .nestedFault)) ∧
    (∀ g nd, IdtTarget s (vectorOf e.name) .exception g nd →
      (∀ x, SwitchFails .int (gateSel g) nd true s x → takeException e s = .fault .nestedFault) ∧
      (∀ u x, taskSwitch .int (gateSel g) nd s.eip true [] s = .ok { state := u, pending := some x } →
        takeException e s = .fault .nestedFault) ∧
      (∀ u x, taskSwitch .int (gateSel g) nd s.eip true [] s = .ok { state := u, pending := none } →
        e.code ≠ .none → segWrite u .ss (u.gprs.esp - 4) 4 0 = .error (.raise x) →
        takeException e s = .fault .nestedFault))

/-- R236, R237, R239, for every initiator: where rows of R236 fail, the exception pending in the new task is that of a
failing row, with the selector and EXT; the new task's registers are loaded, the segment registers before the first
failing one have their hidden parts, and it and the later ones are not valid; when the LDTR fails, none is. A null CS
selector, all else qualifying, makes #TS with it pending. `LeavesPending`: a far transfer, IRET, INT n or external
interrupt that makes this switch takes the exception there, or, with the T flag set, is the model fault of R239. THE
MODEL'S CHOICE: the rows are log 7 (PRESUMED, unsafe: R236 is the table the spec recommends for its open parameter
Qualify, not a rule of the source), and that no segment register is made valid from the first failing one on is R237's
decision D13. -/
def Obligations.FailingSelectorFault : Prop :=
  ∀ (init : Initiator) (nsel : Selector) (nd : Desc) (ret : Word) (ext : Bool) (s s1 : State) (img : TaskImage)
    (segs : NewSegs), ChecksPass init nsel nd s → commitSwitch init nsel nd ret s = .ok s1 →
    readTask s1 (descBase nd) = .ok img → img.eflags.getLsbD 17 = false →
    let w := loadTask init img s1
    let u := withNewLdtr init img segs s1
    let holds := fun (x : State) n => SegQualifies x (selRpl img.cs) n (imageSel img n) (segs.get n)
    let fails := fun (x : State) n e => SegRowFails x (selRpl img.cs) ext n (imageSel img n) e
    let pending := LeavesPending init nsel nd ret ext s img.trap
    (LdtQualifies w img.ldt segs.ldt → (∀ n, holds u n ∨ ∃ e, fails u n e) → (∃ n e, fails u n e) →
      ∃ e g, (∃ n, fails u n e) ∧ pending e (u.withSegs g) ∧
        ∀ n, (g.get n).selector = imageSel img n ∧
          ((∀ m, loadRank m ≤ loadRank n → holds u m) → HiddenOrNull (g.get n) (segs.get n)) ∧
          (∀ m e, loadRank m ≤ loadRank n → fails u m e → (g.get n).valid = false)) ∧
    ((∃ e, LdtRowFails w ext img.ldt e) → (∀ n, holds w n ∨ ∃ e, fails w n e) →
      ∃ e, (LdtRowFails w ext img.ldt e ∨ ∃ n, fails w n e) ∧ pending e w) ∧
    (LdtQualifies w img.ldt segs.ldt → selNull img.cs = true → (∀ n, n ≠ .cs → holds u n) →
      pending (excCode .ts (selCode img.cs ext)) u) ∧
    LdtPart u.ldtr segs.ldt ∧ w.ldtr.valid = false ∧
    ∀ x, x = w ∨ x = u → x.tr = taskReg nsel nd ∧ x.eip = img.eip ∧ x.gprs = img.gprs ∧ x.ldtr.selector = img.ldt ∧
      ∀ n, (x.seg n).selector = imageSel img n ∧ (x.seg n).valid = false

/-- R241, R239, for every initiator: a new EIP beyond the limit of the new code segment, all else passing, makes
#GP(EXT) pending in the new task; a far transfer, IRET, INT n or external interrupt that makes this switch then takes it
there. With the T flag set as well it is the model fault of R239. That all else passes is by R236's table (log 7). -/
def Obligations.EipBeyondCodeLimit : Prop :=
  ∀ (init : Initiator) (nsel : Selector) (nd : Desc) (ret : Word) (ext : Bool) (s s1 : State) (img : TaskImage)
    (segs : NewSegs), ChecksPass init nsel nd s → commitSwitch init nsel nd ret s = .ok s1 →
    readTask s1 (descBase nd) = .ok img → img.eflags.getLsbD 17 = false → Qualifies init img segs s1 →
    limitBits segs.cs < img.eip.toNat →
    LeavesPending init nsel nd ret ext s img.trap (excCode .gp (if ext then 1 else 0)) (entered init img segs s1)

/-- R239, for every initiator: the T flag of the new TSS makes #DB, without an error code, pending in the new task
before its first instruction; a far transfer, IRET, INT n or external interrupt that makes this switch then takes it
there, the EIP saved being the new task's. That the task can be loaded is by R236's table (log 7). -/
def Obligations.DebugTrapOfNewTask : Prop :=
  ∀ (init : Initiator) (nsel : Selector) (nd : Desc) (ret : Word) (ext : Bool) (s s1 : State) (img : TaskImage)
    (segs : NewSegs), ChecksPass init nsel nd s → commitSwitch init nsel nd ret s = .ok s1 →
    Loadable init nd img segs s1 → img.trap = true →
    let e : Exc := { name := .db, code := .none }
    taskSwitch init nsel nd ret ext [] s = .ok { state := entered init img segs s1, pending := some e } ∧
    (∀ r, SwitchOf s r init nsel nd ret ext → r = takeException e (entered init img segs s1)) ∧
    vectorOf .db = 1#8 ∧ (entered init img segs s1).eip = img.eip

/-! ### The whole machine -/

/-- From every state, not only those a run reaches, and whatever interrupt is offered: a step keeps the canonical form
of memory, the reserved bits of EFLAGS (R25, R232), VM clear (R27) and TR caching a busy TSS (R223). -/
def Obligations.StepKeepsInvariant : Prop :=
  ∀ (s t : State) (offer : Option Byte), Invariant s → stepWith offer s = .next t ∨ step s = .next t → Invariant t

/-- R32, R33, R40, R42: no step, whatever interrupt is offered, writes GDTR or IDTR, changes a bit of CR0 other than
TS, or clears TS; with paging off none changes CR3. -/
def Obligations.StepKeepsSystemRegisters : Prop :=
  ∀ (s t : State) (offer : Option Byte), stepWith offer s = .next t ∨ step s = .next t →
    SystemKept s t ∧ (s.paging = false → t.cr3 = s.cr3)

/-- R22, R29, R31, R34, R37, R152: the own effects of LTR and STR keep EFLAGS, every segment register, the CPL, LDTR and
CR3, and STR keeps TR; every other instruction or step that ends in a next state got there by task switches alone
(`Enters`). So a step after which TS is 0 is the own effect of LTR or STR. -/
def Obligations.OnlySwitchChangesTask : Prop :=
  ∀ s t : State,
    (∀ rm, ltrOp rm s = .ok (done t) → exec (.ltr rm) s = .next t ∧ TaskKept s t ∧ t.cpl = s.cpl) ∧
    (∀ rm, strOp rm s = .ok (done t) → exec (.str rm) s = .next t ∧ TaskKept s t ∧ t.cpl = s.cpl ∧ t.tr = s.tr) ∧
    (∀ i : Instr, exec i s = .next t →
      (∃ rm, (i = .ltr rm ∧ ltrOp rm s = .ok (done t)) ∨ (i = .str rm ∧ strOp rm s = .ok (done t))) ∨ Enters s t) ∧
    (∀ offer : Option Byte, stepWith offer s = .next t → (∃ i, exec i s = .next t) ∨ Enters s t) ∧
    (∀ i : Instr, exec i s = .next t → t.cr0.getLsbD 3 = false →
      TaskKept s t ∧ t.cpl = s.cpl ∧ ((∃ rm, i = .ltr rm) ∨ ((∃ rm, i = .str rm) ∧ t.tr = s.tr)))

/-- R174, R175: the offset of a far pointer is not used by a task form. -/
def Obligations.FarOffsetIgnored : Prop :=
  ∀ (s : State) (sel : Selector) (off off' : Word),
    exec (.jmpPtr sel off) s = exec (.jmpPtr sel off') s ∧
    exec (.callPtr sel off) s = exec (.callPtr sel off') s

/-- R208, R234, paging off (the decision D11: no error after step 5): where the bytes that a switch reads are in memory,
phase 2 commits and the TSS of the new task is read, whatever the initiator. -/
def Obligations.SwitchPhasesAnswer : Prop :=
  ∀ (init : Initiator) (nsel : Selector) (nd : Desc) (ret : Word) (s : State), s.paging = false →
    SwitchListed init nsel nd s →
    ∃ s1 img, commitSwitch init nsel nd ret s = .ok s1 ∧ readTask s1 (descBase nd) = .ok img
end

