-- ==== Sys2Proof/Laws/State.lean ====
section
/-! SUPPORT. One lemma per field per update of the state, each true by rfl, and the reads of the register files. -/

namespace Sys2Proof.Machine

/-! ### withGprs -/

@[simp] theorem State.withGprs_gprs (s : State) (v : Gprs) : (s.withGprs v).gprs = v := rfl
@[simp] theorem State.withGprs_eip (s : State) (v : Gprs) : (s.withGprs v).eip = s.eip := rfl
@[simp] theorem State.withGprs_eflags (s : State) (v : Gprs) : (s.withGprs v).eflags = s.eflags := rfl
@[simp] theorem State.withGprs_segs (s : State) (v : Gprs) : (s.withGprs v).segs = s.segs := rfl
@[simp] theorem State.withGprs_gdtr (s : State) (v : Gprs) : (s.withGprs v).gdtr = s.gdtr := rfl
@[simp] theorem State.withGprs_idtr (s : State) (v : Gprs) : (s.withGprs v).idtr = s.idtr := rfl
@[simp] theorem State.withGprs_ldtr (s : State) (v : Gprs) : (s.withGprs v).ldtr = s.ldtr := rfl
@[simp] theorem State.withGprs_tr (s : State) (v : Gprs) : (s.withGprs v).tr = s.tr := rfl
@[simp] theorem State.withGprs_cr0 (s : State) (v : Gprs) : (s.withGprs v).cr0 = s.cr0 := rfl
@[simp] theorem State.withGprs_cr3 (s : State) (v : Gprs) : (s.withGprs v).cr3 = s.cr3 := rfl
@[simp] theorem State.withGprs_mem (s : State) (v : Gprs) : (s.withGprs v).mem = s.mem := rfl
@[simp] theorem State.withGprs_draws (s : State) (v : Gprs) : (s.withGprs v).draws = s.draws := rfl

/-! ### withEip -/

@[simp] theorem State.withEip_gprs (s : State) (v : Word) : (s.withEip v).gprs = s.gprs := rfl
@[simp] theorem State.withEip_eip (s : State) (v : Word) : (s.withEip v).eip = v := rfl
@[simp] theorem State.withEip_eflags (s : State) (v : Word) : (s.withEip v).eflags = s.eflags := rfl
@[simp] theorem State.withEip_segs (s : State) (v : Word) : (s.withEip v).segs = s.segs := rfl
@[simp] theorem State.withEip_gdtr (s : State) (v : Word) : (s.withEip v).gdtr = s.gdtr := rfl
@[simp] theorem State.withEip_idtr (s : State) (v : Word) : (s.withEip v).idtr = s.idtr := rfl
@[simp] theorem State.withEip_ldtr (s : State) (v : Word) : (s.withEip v).ldtr = s.ldtr := rfl
@[simp] theorem State.withEip_tr (s : State) (v : Word) : (s.withEip v).tr = s.tr := rfl
@[simp] theorem State.withEip_cr0 (s : State) (v : Word) : (s.withEip v).cr0 = s.cr0 := rfl
@[simp] theorem State.withEip_cr3 (s : State) (v : Word) : (s.withEip v).cr3 = s.cr3 := rfl
@[simp] theorem State.withEip_mem (s : State) (v : Word) : (s.withEip v).mem = s.mem := rfl
@[simp] theorem State.withEip_draws (s : State) (v : Word) : (s.withEip v).draws = s.draws := rfl

/-! ### withEflags -/

@[simp] theorem State.withEflags_gprs (s : State) (v : Word) : (s.withEflags v).gprs = s.gprs := rfl
@[simp] theorem State.withEflags_eip (s : State) (v : Word) : (s.withEflags v).eip = s.eip := rfl
@[simp] theorem State.withEflags_eflags (s : State) (v : Word) : (s.withEflags v).eflags = v := rfl
@[simp] theorem State.withEflags_segs (s : State) (v : Word) : (s.withEflags v).segs = s.segs := rfl
@[simp] theorem State.withEflags_gdtr (s : State) (v : Word) : (s.withEflags v).gdtr = s.gdtr := rfl
@[simp] theorem State.withEflags_idtr (s : State) (v : Word) : (s.withEflags v).idtr = s.idtr := rfl
@[simp] theorem State.withEflags_ldtr (s : State) (v : Word) : (s.withEflags v).ldtr = s.ldtr := rfl
@[simp] theorem State.withEflags_tr (s : State) (v : Word) : (s.withEflags v).tr = s.tr := rfl
@[simp] theorem State.withEflags_cr0 (s : State) (v : Word) : (s.withEflags v).cr0 = s.cr0 := rfl
@[simp] theorem State.withEflags_cr3 (s : State) (v : Word) : (s.withEflags v).cr3 = s.cr3 := rfl
@[simp] theorem State.withEflags_mem (s : State) (v : Word) : (s.withEflags v).mem = s.mem := rfl
@[simp] theorem State.withEflags_draws (s : State) (v : Word) : (s.withEflags v).draws = s.draws := rfl

/-! ### withSegs -/

@[simp] theorem State.withSegs_gprs (s : State) (v : Segs) : (s.withSegs v).gprs = s.gprs := rfl
@[simp] theorem State.withSegs_eip (s : State) (v : Segs) : (s.withSegs v).eip = s.eip := rfl
@[simp] theorem State.withSegs_eflags (s : State) (v : Segs) : (s.withSegs v).eflags = s.eflags := rfl
@[simp] theorem State.withSegs_segs (s : State) (v : Segs) : (s.withSegs v).segs = v := rfl
@[simp] theorem State.withSegs_gdtr (s : State) (v : Segs) : (s.withSegs v).gdtr = s.gdtr := rfl
@[simp] theorem State.withSegs_idtr (s : State) (v : Segs) : (s.withSegs v).idtr = s.idtr := rfl
@[simp] theorem State.withSegs_ldtr (s : State) (v : Segs) : (s.withSegs v).ldtr = s.ldtr := rfl
@[simp] theorem State.withSegs_tr (s : State) (v : Segs) : (s.withSegs v).tr = s.tr := rfl
@[simp] theorem State.withSegs_cr0 (s : State) (v : Segs) : (s.withSegs v).cr0 = s.cr0 := rfl
@[simp] theorem State.withSegs_cr3 (s : State) (v : Segs) : (s.withSegs v).cr3 = s.cr3 := rfl
@[simp] theorem State.withSegs_mem (s : State) (v : Segs) : (s.withSegs v).mem = s.mem := rfl
@[simp] theorem State.withSegs_draws (s : State) (v : Segs) : (s.withSegs v).draws = s.draws := rfl

/-! ### withLdtr -/

@[simp] theorem State.withLdtr_gprs (s : State) (v : LdtReg) : (s.withLdtr v).gprs = s.gprs := rfl
@[simp] theorem State.withLdtr_eip (s : State) (v : LdtReg) : (s.withLdtr v).eip = s.eip := rfl
@[simp] theorem State.withLdtr_eflags (s : State) (v : LdtReg) : (s.withLdtr v).eflags = s.eflags := rfl
@[simp] theorem State.withLdtr_segs (s : State) (v : LdtReg) : (s.withLdtr v).segs = s.segs := rfl
@[simp] theorem State.withLdtr_gdtr (s : State) (v : LdtReg) : (s.withLdtr v).gdtr = s.gdtr := rfl
@[simp] theorem State.withLdtr_idtr (s : State) (v : LdtReg) : (s.withLdtr v).idtr = s.idtr := rfl
@[simp] theorem State.withLdtr_ldtr (s : State) (v : LdtReg) : (s.withLdtr v).ldtr = v := rfl
@[simp] theorem State.withLdtr_tr (s : State) (v : LdtReg) : (s.withLdtr v).tr = s.tr := rfl
@[simp] theorem State.withLdtr_cr0 (s : State) (v : LdtReg) : (s.withLdtr v).cr0 = s.cr0 := rfl
@[simp] theorem State.withLdtr_cr3 (s : State) (v : LdtReg) : (s.withLdtr v).cr3 = s.cr3 := rfl
@[simp] theorem State.withLdtr_mem (s : State) (v : LdtReg) : (s.withLdtr v).mem = s.mem := rfl
@[simp] theorem State.withLdtr_draws (s : State) (v : LdtReg) : (s.withLdtr v).draws = s.draws := rfl

/-! ### withTr -/

@[simp] theorem State.withTr_gprs (s : State) (v : TaskReg) : (s.withTr v).gprs = s.gprs := rfl
@[simp] theorem State.withTr_eip (s : State) (v : TaskReg) : (s.withTr v).eip = s.eip := rfl
@[simp] theorem State.withTr_eflags (s : State) (v : TaskReg) : (s.withTr v).eflags = s.eflags := rfl
@[simp] theorem State.withTr_segs (s : State) (v : TaskReg) : (s.withTr v).segs = s.segs := rfl
@[simp] theorem State.withTr_gdtr (s : State) (v : TaskReg) : (s.withTr v).gdtr = s.gdtr := rfl
@[simp] theorem State.withTr_idtr (s : State) (v : TaskReg) : (s.withTr v).idtr = s.idtr := rfl
@[simp] theorem State.withTr_ldtr (s : State) (v : TaskReg) : (s.withTr v).ldtr = s.ldtr := rfl
@[simp] theorem State.withTr_tr (s : State) (v : TaskReg) : (s.withTr v).tr = v := rfl
@[simp] theorem State.withTr_cr0 (s : State) (v : TaskReg) : (s.withTr v).cr0 = s.cr0 := rfl
@[simp] theorem State.withTr_cr3 (s : State) (v : TaskReg) : (s.withTr v).cr3 = s.cr3 := rfl
@[simp] theorem State.withTr_mem (s : State) (v : TaskReg) : (s.withTr v).mem = s.mem := rfl
@[simp] theorem State.withTr_draws (s : State) (v : TaskReg) : (s.withTr v).draws = s.draws := rfl

/-! ### withCr0 -/

@[simp] theorem State.withCr0_gprs (s : State) (v : Word) : (s.withCr0 v).gprs = s.gprs := rfl
@[simp] theorem State.withCr0_eip (s : State) (v : Word) : (s.withCr0 v).eip = s.eip := rfl
@[simp] theorem State.withCr0_eflags (s : State) (v : Word) : (s.withCr0 v).eflags = s.eflags := rfl
@[simp] theorem State.withCr0_segs (s : State) (v : Word) : (s.withCr0 v).segs = s.segs := rfl
@[simp] theorem State.withCr0_gdtr (s : State) (v : Word) : (s.withCr0 v).gdtr = s.gdtr := rfl
@[simp] theorem State.withCr0_idtr (s : State) (v : Word) : (s.withCr0 v).idtr = s.idtr := rfl
@[simp] theorem State.withCr0_ldtr (s : State) (v : Word) : (s.withCr0 v).ldtr = s.ldtr := rfl
@[simp] theorem State.withCr0_tr (s : State) (v : Word) : (s.withCr0 v).tr = s.tr := rfl
@[simp] theorem State.withCr0_cr0 (s : State) (v : Word) : (s.withCr0 v).cr0 = v := rfl
@[simp] theorem State.withCr0_cr3 (s : State) (v : Word) : (s.withCr0 v).cr3 = s.cr3 := rfl
@[simp] theorem State.withCr0_mem (s : State) (v : Word) : (s.withCr0 v).mem = s.mem := rfl
@[simp] theorem State.withCr0_draws (s : State) (v : Word) : (s.withCr0 v).draws = s.draws := rfl

/-! ### withCr3 -/

@[simp] theorem State.withCr3_gprs (s : State) (v : Word) : (s.withCr3 v).gprs = s.gprs := rfl
@[simp] theorem State.withCr3_eip (s : State) (v : Word) : (s.withCr3 v).eip = s.eip := rfl
@[simp] theorem State.withCr3_eflags (s : State) (v : Word) : (s.withCr3 v).eflags = s.eflags := rfl
@[simp] theorem State.withCr3_segs (s : State) (v : Word) : (s.withCr3 v).segs = s.segs := rfl
@[simp] theorem State.withCr3_gdtr (s : State) (v : Word) : (s.withCr3 v).gdtr = s.gdtr := rfl
@[simp] theorem State.withCr3_idtr (s : State) (v : Word) : (s.withCr3 v).idtr = s.idtr := rfl
@[simp] theorem State.withCr3_ldtr (s : State) (v : Word) : (s.withCr3 v).ldtr = s.ldtr := rfl
@[simp] theorem State.withCr3_tr (s : State) (v : Word) : (s.withCr3 v).tr = s.tr := rfl
@[simp] theorem State.withCr3_cr0 (s : State) (v : Word) : (s.withCr3 v).cr0 = s.cr0 := rfl
@[simp] theorem State.withCr3_cr3 (s : State) (v : Word) : (s.withCr3 v).cr3 = v := rfl
@[simp] theorem State.withCr3_mem (s : State) (v : Word) : (s.withCr3 v).mem = s.mem := rfl
@[simp] theorem State.withCr3_draws (s : State) (v : Word) : (s.withCr3 v).draws = s.draws := rfl

/-! ### withMem -/

@[simp] theorem State.withMem_gprs (s : State) (v : Memory) : (s.withMem v).gprs = s.gprs := rfl
@[simp] theorem State.withMem_eip (s : State) (v : Memory) : (s.withMem v).eip = s.eip := rfl
@[simp] theorem State.withMem_eflags (s : State) (v : Memory) : (s.withMem v).eflags = s.eflags := rfl
@[simp] theorem State.withMem_segs (s : State) (v : Memory) : (s.withMem v).segs = s.segs := rfl
@[simp] theorem State.withMem_gdtr (s : State) (v : Memory) : (s.withMem v).gdtr = s.gdtr := rfl
@[simp] theorem State.withMem_idtr (s : State) (v : Memory) : (s.withMem v).idtr = s.idtr := rfl
@[simp] theorem State.withMem_ldtr (s : State) (v : Memory) : (s.withMem v).ldtr = s.ldtr := rfl
@[simp] theorem State.withMem_tr (s : State) (v : Memory) : (s.withMem v).tr = s.tr := rfl
@[simp] theorem State.withMem_cr0 (s : State) (v : Memory) : (s.withMem v).cr0 = s.cr0 := rfl
@[simp] theorem State.withMem_cr3 (s : State) (v : Memory) : (s.withMem v).cr3 = s.cr3 := rfl
@[simp] theorem State.withMem_mem (s : State) (v : Memory) : (s.withMem v).mem = v := rfl
@[simp] theorem State.withMem_draws (s : State) (v : Memory) : (s.withMem v).draws = s.draws := rfl

/-! ### withDraws -/

@[simp] theorem State.withDraws_gprs (s : State) (v : Nat) : (s.withDraws v).gprs = s.gprs := rfl
@[simp] theorem State.withDraws_eip (s : State) (v : Nat) : (s.withDraws v).eip = s.eip := rfl
@[simp] theorem State.withDraws_eflags (s : State) (v : Nat) : (s.withDraws v).eflags = s.eflags := rfl
@[simp] theorem State.withDraws_segs (s : State) (v : Nat) : (s.withDraws v).segs = s.segs := rfl
@[simp] theorem State.withDraws_gdtr (s : State) (v : Nat) : (s.withDraws v).gdtr = s.gdtr := rfl
@[simp] theorem State.withDraws_idtr (s : State) (v : Nat) : (s.withDraws v).idtr = s.idtr := rfl
@[simp] theorem State.withDraws_ldtr (s : State) (v : Nat) : (s.withDraws v).ldtr = s.ldtr := rfl
@[simp] theorem State.withDraws_tr (s : State) (v : Nat) : (s.withDraws v).tr = s.tr := rfl
@[simp] theorem State.withDraws_cr0 (s : State) (v : Nat) : (s.withDraws v).cr0 = s.cr0 := rfl
@[simp] theorem State.withDraws_cr3 (s : State) (v : Nat) : (s.withDraws v).cr3 = s.cr3 := rfl
@[simp] theorem State.withDraws_mem (s : State) (v : Nat) : (s.withDraws v).mem = s.mem := rfl
@[simp] theorem State.withDraws_draws (s : State) (v : Nat) : (s.withDraws v).draws = v := rfl

/-! ### withGpr -/

@[simp] theorem State.withGpr_gprs (s : State) (r : Reg) (v : Word) : (s.withGpr r v).gprs = s.gprs.set r v := rfl
@[simp] theorem State.withGpr_eip (s : State) (r : Reg) (v : Word) : (s.withGpr r v).eip = s.eip := rfl
@[simp] theorem State.withGpr_eflags (s : State) (r : Reg) (v : Word) : (s.withGpr r v).eflags = s.eflags := rfl
@[simp] theorem State.withGpr_segs (s : State) (r : Reg) (v : Word) : (s.withGpr r v).segs = s.segs := rfl
@[simp] theorem State.withGpr_gdtr (s : State) (r : Reg) (v : Word) : (s.withGpr r v).gdtr = s.gdtr := rfl
@[simp] theorem State.withGpr_idtr (s : State) (r : Reg) (v : Word) : (s.withGpr r v).idtr = s.idtr := rfl
@[simp] theorem State.withGpr_ldtr (s : State) (r : Reg) (v : Word) : (s.withGpr r v).ldtr = s.ldtr := rfl
@[simp] theorem State.withGpr_tr (s : State) (r : Reg) (v : Word) : (s.withGpr r v).tr = s.tr := rfl
@[simp] theorem State.withGpr_cr0 (s : State) (r : Reg) (v : Word) : (s.withGpr r v).cr0 = s.cr0 := rfl
@[simp] theorem State.withGpr_cr3 (s : State) (r : Reg) (v : Word) : (s.withGpr r v).cr3 = s.cr3 := rfl
@[simp] theorem State.withGpr_mem (s : State) (r : Reg) (v : Word) : (s.withGpr r v).mem = s.mem := rfl
@[simp] theorem State.withGpr_draws (s : State) (r : Reg) (v : Word) : (s.withGpr r v).draws = s.draws := rfl

/-! ### withSeg -/

@[simp] theorem State.withSeg_gprs (s : State) (n : SegName) (r : SegReg) : (s.withSeg n r).gprs = s.gprs := rfl
@[simp] theorem State.withSeg_eip (s : State) (n : SegName) (r : SegReg) : (s.withSeg n r).eip = s.eip := rfl
@[simp] theorem State.withSeg_eflags (s : State) (n : SegName) (r : SegReg) : (s.withSeg n r).eflags = s.eflags := rfl
@[simp] theorem State.withSeg_segs (s : State) (n : SegName) (r : SegReg) : (s.withSeg n r).segs = s.segs.set n r := rfl
@[simp] theorem State.withSeg_gdtr (s : State) (n : SegName) (r : SegReg) : (s.withSeg n r).gdtr = s.gdtr := rfl
@[simp] theorem State.withSeg_idtr (s : State) (n : SegName) (r : SegReg) : (s.withSeg n r).idtr = s.idtr := rfl
@[simp] theorem State.withSeg_ldtr (s : State) (n : SegName) (r : SegReg) : (s.withSeg n r).ldtr = s.ldtr := rfl
@[simp] theorem State.withSeg_tr (s : State) (n : SegName) (r : SegReg) : (s.withSeg n r).tr = s.tr := rfl
@[simp] theorem State.withSeg_cr0 (s : State) (n : SegName) (r : SegReg) : (s.withSeg n r).cr0 = s.cr0 := rfl
@[simp] theorem State.withSeg_cr3 (s : State) (n : SegName) (r : SegReg) : (s.withSeg n r).cr3 = s.cr3 := rfl
@[simp] theorem State.withSeg_mem (s : State) (n : SegName) (r : SegReg) : (s.withSeg n r).mem = s.mem := rfl
@[simp] theorem State.withSeg_draws (s : State) (n : SegName) (r : SegReg) : (s.withSeg n r).draws = s.draws := rfl

/-! ### The register files -/

@[simp] theorem State.gpr_withGpr_self (s : State) (r : Reg) (v : Word) : (s.withGpr r v).gpr r = v := by
  cases r <;> rfl

theorem State.gpr_withGpr_other (s : State) (r q : Reg) (v : Word) (h : q ≠ r) :
    (s.withGpr r v).gpr q = s.gpr q := by
  cases r <;> cases q <;> first | rfl | exact absurd rfl h

@[simp] theorem State.seg_withSeg_self (s : State) (n : SegName) (r : SegReg) : (s.withSeg n r).seg n = r := by
  cases n <;> rfl

theorem State.seg_withSeg_other (s : State) (n q : SegName) (r : SegReg) (h : q ≠ n) :
    (s.withSeg n r).seg q = s.seg q := by
  cases n <;> cases q <;> first | rfl | exact absurd rfl h

@[simp] theorem State.withMem_self (s : State) : s.withMem s.mem = s := rfl

@[simp] theorem State.withMem_withMem (s : State) (m n : Memory) : (s.withMem m).withMem n = s.withMem n := rfl

@[simp] theorem State.paging_withMem (s : State) (m : Memory) : (s.withMem m).paging = s.paging := rfl

@[simp] theorem State.physWidth_withMem (s : State) (m : Memory) : (s.withMem m).physWidth = s.physWidth := rfl

end Sys2Proof.Machine
end

