-- ==== Sys2Proof/Laws/Memory.lean ====
section
/-! SUPPORT. The laws of memory: reads after writes, the canonical form, and what each access primitive does in a
state with paging off. -/

namespace Sys2Proof.Machine

/-! ### Results -/

theorem Res.bind_eq_ok {x : Res α} {f : α → Res β} {b : β} :
    (x >>= f) = .ok b ↔ ∃ a, x = .ok a ∧ f a = .ok b := by
  cases x with
  | error e => exact ⟨fun h => by simp [bind, Except.bind] at h, fun ⟨a, h, _⟩ => by simp at h⟩
  | ok a => exact ⟨fun h => ⟨a, rfl, h⟩, fun ⟨a', h, h'⟩ => by cases h; exact h'⟩

@[simp] theorem Res.ok_bind (a : α) (f : α → Res β) : (Except.ok a >>= f : Res β) = f a := rfl

@[simp] theorem Res.error_bind (e : Stop) (f : α → Res β) : (Except.error e >>= f : Res β) = .error e := rfl

@[simp] theorem require_true (e : Exc) : require true e = .ok () := rfl

@[simp] theorem require_false (e : Exc) : require false e = .error (.raise e) := rfl

theorem require_eq_ok {c : Bool} {e : Exc} {u : Unit} : require c e = .ok u ↔ c = true := by
  cases c <;> simp

@[simp] theorem raise_ne_ok (e : Exc) (a : α) : (raise e : Res α) ≠ .ok a := by simp [raise]

@[simp] theorem refuse_ne_ok (r : Refusal) (a : α) : (refuse r : Res α) ≠ .ok a := by simp [refuse]

/-! ### One byte -/

@[simp] theorem Memory.read_write_self (m : Memory) (a : Nat) (v : Byte) : (m.write a v).read a = some v := by
  induction m with
  | nil => simp [Memory.write, Memory.read]
  | cons c m ih =>
    unfold Memory.write
    split
    · simp [Memory.read]
    · split
      · simp [Memory.read]
      · next h => simp [Memory.read, Ne.symm h, ih]

theorem Memory.read_write_other (m : Memory) (a b : Nat) (v : Byte) (h : b ≠ a) :
    (m.write a v).read b = m.read b := by
  induction m with
  | nil => simp [Memory.write, Memory.read, h.symm]
  | cons c m ih =>
    unfold Memory.write
    split
    · simp [Memory.read, h.symm]
    · split
      · next hac => subst hac; simp [Memory.read, h.symm]
      · simp [Memory.read, ih]

theorem Memory.mem_write {m : Memory} {a : Nat} {v : Byte} {c : Host.Cell} (h : c ∈ m.write a v) :
    c = (a, v) ∨ c ∈ m := by
  induction m with
  | nil => simpa [Memory.write] using h
  | cons d m ih =>
    unfold Memory.write at h
    split at h
    · simpa using h
    · split at h
      · rcases List.mem_cons.1 h with h | h
        · exact .inl h
        · exact .inr (List.mem_cons_of_mem _ h)
      · rcases List.mem_cons.1 h with h | h
        · exact .inr (h ▸ List.mem_cons_self ..)
        · exact (ih h).imp_right (List.mem_cons_of_mem _)

theorem Memory.wf_write (m : Memory) (a : Nat) (v : Byte) (h : m.wf) : (m.write a v).wf := by
  induction m with
  | nil => simp [Memory.write, Memory.wf]
  | cons c m ih =>
    obtain ⟨hc, hm⟩ := List.pairwise_cons.1 h
    unfold Memory.write
    split
    · next hac =>
      refine List.pairwise_cons.2 ⟨fun d hd => ?_, h⟩
      rcases List.mem_cons.1 hd with rfl | hd
      · exact hac
      · exact Nat.lt_trans hac (hc d hd)
    · next hac =>
      split
      · next he => exact List.pairwise_cons.2 ⟨fun d hd => by simpa [he] using hc d hd, hm⟩
      · next hne =>
        refine List.pairwise_cons.2 ⟨fun d hd => ?_, ih hm⟩
        rcases Memory.mem_write hd with rfl | hd
        · show c.1 < a; omega
        · exact hc d hd

/-! ### Several bytes -/

/-- Memory after bytes are written at a list of addresses, in order. -/
def writeCells (m : Memory) : List Nat → List Byte → Memory
  | pa :: pas, v :: vs => writeCells (m.write pa v) pas vs
  | _, _ => m

theorem writeCells_wf (pas : List Nat) (vs : List Byte) (m : Memory) (h : m.wf) : (writeCells m pas vs).wf := by
  induction pas generalizing vs m with
  | nil => simpa [writeCells] using h
  | cons pa pas ih =>
    cases vs with
    | nil => simpa [writeCells] using h
    | cons v vs => exact ih vs _ (Memory.wf_write m pa v h)

theorem writeCells_read_other (pas : List Nat) (vs : List Byte) (m : Memory) (a : Nat) (h : a ∉ pas) :
    (writeCells m pas vs).read a = m.read a := by
  induction pas generalizing vs m with
  | nil => simp [writeCells]
  | cons pa pas ih =>
    cases vs with
    | nil => simp [writeCells]
    | cons v vs =>
      simp only [List.mem_cons, not_or] at h
      simp [writeCells, ih vs _ h.2, Memory.read_write_other _ _ _ _ h.1]

theorem writePhys_ok {s s' : State} {pa : Nat} {v : Byte} (h : writePhys s pa v = .ok s') :
    pa < 2 ^ s.physWidth ∧ s' = s.withMem (s.mem.write pa v) := by
  obtain ⟨u, hu, h⟩ := Res.bind_eq_ok.1 h
  unfold checkPhys at hu
  split at hu
  · next hp => exact ⟨hp, (Except.ok.inj h).symm⟩
  · cases hu

theorem writePhys_eq {s : State} {pa : Nat} (v : Byte) (h : pa < 2 ^ s.physWidth) :
    writePhys s pa v = .ok (s.withMem (s.mem.write pa v)) := by
  simp [writePhys, checkPhys, h]

/-- The one thing a list of byte writes does. -/
theorem writeList_ok {pas : List Nat} {vs : List Byte} {s s' : State} (h : writeList s pas vs = .ok s') :
    s' = s.withMem (writeCells s.mem pas vs) := by
  induction pas generalizing vs s with
  | nil => simpa [writeList, writeCells] using h.symm
  | cons pa pas ih =>
    cases vs with
    | nil => simpa [writeList, writeCells] using h.symm
    | cons v vs =>
      obtain ⟨s1, h1, h2⟩ := Res.bind_eq_ok.1 h
      obtain ⟨-, rfl⟩ := writePhys_ok h1
      simpa [writeCells] using ih h2

theorem writeList_eq {pas : List Nat} (vs : List Byte) {s : State} (h : ∀ pa ∈ pas, pa < 2 ^ s.physWidth) :
    writeList s pas vs = .ok (s.withMem (writeCells s.mem pas vs)) := by
  induction pas generalizing vs s with
  | nil => simp [writeList, writeCells]
  | cons pa pas ih =>
    cases vs with
    | nil => simp [writeList, writeCells]
    | cons v vs =>
      rw [writeList, writePhys_eq v (h pa (List.mem_cons_self ..)), Res.ok_bind,
        ih vs (s := s.withMem (s.mem.write pa v)) (fun q hq => h q (List.mem_cons_of_mem _ hq))]
      simp [writeCells]

theorem readPhys_ok {s : State} {pa : Nat} {b : Byte} (h : readPhys s pa = .ok b) :
    pa < 2 ^ s.physWidth ∧ s.mem.read pa = some b := by
  obtain ⟨u, hu, h⟩ := Res.bind_eq_ok.1 h
  unfold checkPhys at hu
  split at hu
  · next hp => refine ⟨hp, ?_⟩; split at h <;> simp_all
  · cases hu

theorem readPhys_eq {s : State} {pa : Nat} {b : Byte} (hp : pa < 2 ^ s.physWidth) (h : s.mem.read pa = some b) :
    readPhys s pa = .ok b := by
  simp [readPhys, checkPhys, hp, h]

/-- Reading listed bytes gives them. -/
theorem readList_eq {pas : List Nat} {bs : List Byte} {s : State} (hp : ∀ pa ∈ pas, pa < 2 ^ s.physWidth)
    (h : pas.map s.mem.read = bs.map some) : readList s pas = .ok bs := by
  induction pas generalizing bs with
  | nil => cases bs <;> simp_all [readList]
  | cons pa pas ih =>
    cases bs with
    | nil => simp at h
    | cons b bs =>
      simp only [List.map_cons, List.cons.injEq] at h
      rw [readList, readPhys_eq (hp pa (List.mem_cons_self ..)) h.1, Res.ok_bind,
        ih (fun q hq => hp q (List.mem_cons_of_mem _ hq)) h.2]
      rfl

theorem readList_ok {pas : List Nat} {bs : List Byte} {s : State} (h : readList s pas = .ok bs) :
    (∀ pa ∈ pas, pa < 2 ^ s.physWidth) ∧ pas.map s.mem.read = bs.map some := by
  induction pas generalizing bs with
  | nil => simp [readList] at h; simp [h]
  | cons pa pas ih =>
    obtain ⟨b, hb, h⟩ := Res.bind_eq_ok.1 h
    obtain ⟨bs', hbs, h⟩ := Res.bind_eq_ok.1 h
    obtain ⟨hp, hr⟩ := readPhys_ok hb
    obtain ⟨hps, hrs⟩ := ih hbs
    cases h
    exact ⟨by simpa using ⟨hp, hps⟩, by simp [hr, hrs]⟩

/-- A read depends on the bytes it reads and on the width of physical addresses alone. -/
theorem readList_congr {pas : List Nat} {s t : State} (hw : t.physWidth = s.physWidth)
    (h : ∀ pa ∈ pas, t.mem.read pa = s.mem.read pa) : readList t pas = readList s pas := by
  induction pas with
  | nil => rfl
  | cons pa pas ih =>
    have h1 : readPhys t pa = readPhys s pa := by
      simp [readPhys, checkPhys, hw, h pa (List.mem_cons_self ..)]
    rw [readList, readList, h1, ih (fun q hq => h q (List.mem_cons_of_mem _ hq))]

/-- Bytes written at distinct addresses read back. -/
theorem writeCells_read_back (pas : List Nat) (vs : List Byte) (m : Memory) (hn : pas.Nodup)
    (hl : pas.length = vs.length) : pas.map (writeCells m pas vs).read = vs.map some := by
  induction pas generalizing vs m with
  | nil => cases vs <;> simp_all
  | cons pa pas ih =>
    cases vs with
    | nil => simp at hl
    | cons v vs =>
      obtain ⟨hnot, hn⟩ := List.nodup_cons.1 hn
      simp only [List.map_cons, writeCells, List.cons.injEq]
      exact ⟨by rw [writeCells_read_other _ _ _ _ hnot, Memory.read_write_self],
        ih vs _ hn (by simpa using hl)⟩

/-! ### Byte order -/

@[simp] theorem leBytes_length (n v : Nat) : (leBytes n v).length = n := by
  induction n generalizing v with
  | zero => rfl
  | succ n ih => simp [leBytes, ih]

/-- Little-endian bytes give the number back, modulo its width. -/
theorem leNat_leBytes (n v : Nat) : leNat (leBytes n v) = v % 256 ^ n := by
  induction n generalizing v with
  | zero => simp [leBytes, leNat, Nat.mod_one]
  | succ n ih =>
    simp only [leBytes, leNat, ih, BitVec.toNat_ofNat]
    have split : v % 256 ^ (n + 1) = v % 256 + 256 * (v / 256 % 256 ^ n) := by rw [Nat.pow_succ', Nat.mod_mul]
    exact split.symm

/-! ### Paging off (20_memory.md R63) -/

theorem physWidth_flat {s : State} (h : s.paging = false) : s.physWidth = 32 := by simp [State.physWidth, h]

theorem translate_flat {s : State} (h : s.paging = false) (k : Access) (l : BitVec 2) (lin : Word) :
    translate s k l lin = .ok lin.toNat := by simp [translate, h]

/-- The addresses of `n` bytes from a linear address, modulo 2^32 (R62). -/
def linBytes : Word → Nat → List Nat
  | _, 0 => []
  | lin, n + 1 => lin.toNat :: linBytes (lin + 1) n

theorem linBytes_lt {lin : Word} {n a : Nat} (h : a ∈ linBytes lin n) : a < 2 ^ 32 := by
  induction n generalizing lin with
  | zero => simp [linBytes] at h
  | succ n ih =>
    rcases List.mem_cons.1 h with rfl | h
    · exact lin.isLt
    · exact ih h

@[simp] theorem linBytes_length (lin : Word) (n : Nat) : (linBytes lin n).length = n := by
  induction n generalizing lin with
  | zero => rfl
  | succ n ih => simp [linBytes, ih]

/-- The addresses as numbers: the sums modulo 2^32. -/
theorem linBytes_eq (lin : Word) (n : Nat) :
    linBytes lin n = (List.range n).map fun i => (lin.toNat + i) % 0x100000000 := by
  induction n generalizing lin with
  | zero => rfl
  | succ n ih =>
    rw [linBytes, ih, List.range_succ_eq_map, List.map_cons, List.map_map]
    congr 1
    · have := lin.isLt; omega
    · refine List.map_congr_left fun i _ => ?_
      have one : (1 : Word).toNat = 1 := rfl
      simp only [BitVec.toNat_add, Function.comp, Nat.succ_eq_add_one, one]
      omega

theorem linBytes_nodup (lin : Word) (n : Nat) (h : n ≤ 0x100000000) : (linBytes lin n).Nodup := by
  rw [linBytes_eq]
  refine List.Nodup.map_on (fun i hi j hj hij => ?_) List.nodup_range
  have := lin.isLt
  simp only [List.mem_range] at hi hj
  omega

theorem translateBytes_flat {s : State} (h : s.paging = false) (k : Access) (l : BitVec 2) (n : Nat) (lin : Word) :
    translateBytes s k l n lin = .ok (linBytes lin n) := by
  induction n generalizing lin with
  | zero => rfl
  | succ n ih => simp [translateBytes, translate_flat h, ih, linBytes]

theorem memRead_flat {s : State} (h : s.paging = false) (k : Access) (l : BitVec 2) (lin : Word) (n : Nat) :
    memRead s k l lin n = (do let bs ← readList s (linBytes lin n); .ok (leNat bs)) := by
  simp [memRead, translateBytes_flat h]

theorem memWrite_flat {s : State} (h : s.paging = false) (l : BitVec 2) (lin : Word) (n v : Nat) :
    memWrite s l lin n v = .ok (s.withMem (writeCells s.mem (linBytes lin n) (leBytes n v))) := by
  rw [memWrite, translateBytes_flat h, Res.ok_bind, writeList_eq]
  intro pa hpa
  rw [physWidth_flat h]
  exact linBytes_lt hpa

/-- The physical addresses of a TSS access, paging off (R104). -/
theorem tssAddrs_flat {s : State} (h : s.paging = false) (base : Word) (off n : Nat) :
    tssAddrs s base.toNat off n = (List.range n).map fun i => (base.toNat + off + i) % 0x100000000 := by
  simp [tssAddrs, h]

theorem tssAddrs_lt {s : State} (h : s.paging = false) {pa0 off n a : Nat} (ha : a ∈ tssAddrs s pa0 off n) :
    a < 2 ^ s.physWidth := by
  simp only [tssAddrs, h, List.mem_map] at ha
  obtain ⟨i, -, rfl⟩ := ha
  rw [physWidth_flat h]
  simp only [Bool.false_eq_true, if_false]
  omega

@[simp] theorem tssAddrs_withMem (s : State) (m : Memory) : tssAddrs (s.withMem m) = tssAddrs s := rfl

theorem tssWrite_flat {s : State} (h : s.paging = false) (base : Word) (off n v : Nat) :
    tssWrite s base off n v =
      .ok (s.withMem (writeCells s.mem (tssAddrs s base.toNat off n) (leBytes n v))) := by
  rw [tssWrite, translate_flat h, Res.ok_bind, writeList_eq]
  exact fun pa hpa => tssAddrs_lt h hpa

/-! ### What every write primitive does -/

/-- A change of memory alone, which keeps the canonical form. -/
def MemOnly (s t : State) : Prop := ∃ m, t = s.withMem m ∧ (s.mem.wf → m.wf)

theorem MemOnly.refl (s : State) : MemOnly s s := ⟨s.mem, rfl, id⟩

theorem MemOnly.trans {s t u : State} : MemOnly s t → MemOnly t u → MemOnly s u := by
  rintro ⟨m, rfl, h⟩ ⟨m', rfl, h'⟩
  exact ⟨m', rfl, fun hw => h' (h hw)⟩

theorem writeList_memOnly {pas : List Nat} {vs : List Byte} {s s' : State} (h : writeList s pas vs = .ok s') :
    MemOnly s s' := ⟨_, writeList_ok h, writeCells_wf _ _ _⟩

theorem memWrite_memOnly {s s' : State} {l : BitVec 2} {lin : Word} {n v : Nat}
    (h : memWrite s l lin n v = .ok s') : MemOnly s s' := by
  obtain ⟨pas, -, h⟩ := Res.bind_eq_ok.1 h
  exact writeList_memOnly h

theorem segWrite_memOnly {s s' : State} {seg : SegName} {off : Word} {n v : Nat}
    (h : segWrite s seg off n v = .ok s') : MemOnly s s' := by
  obtain ⟨u, -, h⟩ := Res.bind_eq_ok.1 h
  exact memWrite_memOnly h

/-- Every translation names an address that exists (20_memory.md R61, R63). -/
theorem translate_lt {s : State} {kind : Access} {l : BitVec 2} {lin : Word} {pa : Nat}
    (h : translate s kind l lin = .ok pa) : pa < 2 ^ s.physWidth := by
  unfold translate at h
  cases hp : s.paging
  · simp only [hp, Bool.false_eq_true, if_false] at h
    cases h
    simpa [State.physWidth, hp] using lin.isLt
  · simp only [hp, if_true] at h
    split at h
    · next pa _ =>
      cases h
      simpa [State.physWidth, hp] using pa.isLt
    · cases h

theorem translateBytes_lt {s : State} {kind : Access} {l : BitVec 2} {n : Nat} {lin : Word} {pas : List Nat}
    (h : translateBytes s kind l n lin = .ok pas) : ∀ pa ∈ pas, pa < 2 ^ s.physWidth := by
  induction n generalizing lin pas with
  | zero => cases h; simp
  | succ n ih =>
    obtain ⟨pa, h1, h⟩ := Res.bind_eq_ok.1 h
    obtain ⟨rest, h2, h⟩ := Res.bind_eq_ok.1 h
    cases h
    exact List.forall_mem_cons.2 ⟨translate_lt h1, ih h2⟩

theorem translateBytes_withDraws (s : State) (k : Nat) (kind : Access) (l : BitVec 2) (n : Nat) (lin : Word) :
    translateBytes (s.withDraws k) kind l n lin = translateBytes s kind l n lin := by
  induction n generalizing lin with
  | zero => rfl
  | succ n ih => simp only [translateBytes, ih]; rfl

/-- A write through a segment register either fails whatever the value and the counter of free values, or writes the
value's bytes at addresses that depend on neither (R62, R67). -/
theorem segWrite_cases (s : State) (seg : SegName) (off : Word) (n : Nat) :
    (∃ x, ∀ k v, segWrite (s.withDraws k) seg off n v = .error x) ∨
      ∃ pas, ∀ k v, segWrite (s.withDraws k) seg off n v =
        .ok ((s.withDraws k).withMem (writeCells s.mem pas (leBytes n v))) := by
  cases hc : segCheck s seg .write off n with
  | error x =>
    refine .inl ⟨x, fun k v => ?_⟩
    have hc' : segCheck (s.withDraws k) seg .write off n = .error x := hc
    rw [segWrite, hc', Res.error_bind]
  | ok u =>
    have hw : ∀ k v, segWrite (s.withDraws k) seg off n v =
        (translateBytes s .write s.cpl n (segLinear s seg off) >>=
          fun pas => writeList (s.withDraws k) pas (leBytes n v)) := by
      intro k v
      have hc' : segCheck (s.withDraws k) seg .write off n = .ok u := hc
      rw [segWrite, hc', Res.ok_bind, memWrite, translateBytes_withDraws]
      rfl
    cases ht : translateBytes s .write s.cpl n (segLinear s seg off) with
    | error x => exact .inl ⟨x, fun k v => by rw [hw, ht, Res.error_bind]⟩
    | ok pas =>
      refine .inr ⟨pas, fun k v => ?_⟩
      rw [hw, ht, Res.ok_bind]
      exact writeList_eq (s := s.withDraws k) _ (translateBytes_lt (s := s) ht)

theorem tssWrite_memOnly {s s' : State} {base : Word} {off n v : Nat} (h : tssWrite s base off n v = .ok s') :
    MemOnly s s' := by
  obtain ⟨pa, -, h⟩ := Res.bind_eq_ok.1 h
  exact writeList_memOnly h

theorem tssWriteAll_memOnly {es : List (Nat × Nat × Nat)} {base : Word} {s s' : State}
    (h : tssWriteAll s base es = .ok s') : MemOnly s s' := by
  induction es generalizing s with
  | nil => cases h; exact .refl _
  | cons e es ih =>
    obtain ⟨s1, h1, h2⟩ := Res.bind_eq_ok.1 h
    exact (tssWrite_memOnly h1).trans (ih h2)

theorem setBusy_memOnly {s s' : State} {sel : Selector} {b : Bool} (h : setBusy s sel b = .ok s') :
    MemOnly s s' := by
  obtain ⟨t, -, h⟩ := Res.bind_eq_ok.1 h
  exact memWrite_memOnly h

end Sys2Proof.Machine
end

