-- ==== Sys2Proof/Laws/Switch.lean ====
section
/-! SUPPORT. What a task switch can do: its phases one by one, and the completion of a whole switch. -/

namespace Sys2Proof.Machine

open Sys2Proof.Safety

/-! ### Reporting a failing check (42_task_switch.md R205) -/

theorem pickExc_mem (init : Initiator) (e : Exc) (es : List Exc) : pickExc init e es ∈ e :: es := by
  have h : Config.checkOrder init (e :: es) % (es.length + 1) < (e :: es).length := by
    simpa using Nat.mod_lt _ (Nat.succ_pos _)
  rw [pickExc, List.getD_eq_getElem _ _ h]
  exact List.getElem_mem h

/-- Whatever the order of the checks, the one reported is one that fails. -/
theorem reported_mem {init : Initiator} {fails : List Exc} {e : Exc} (h : reported init fails = some e) :
    e ∈ fails := by
  match fails, h with
  | [a], h => simpa [reported, eq_comm] using h
  | a :: b :: es, h =>
    have he : pickExc init a (b :: es) = e := by simpa [reported] using h
    exact he ▸ pickExc_mem init a (b :: es)

theorem reported_eq_none {init : Initiator} {fails : List Exc} : reported init fails = none ↔ fails = [] := by
  match fails with
  | [] => simp [reported]
  | [_] => simp [reported]
  | _ :: _ :: _ => simp [reported]

theorem requireNone_ok {init : Initiator} {fails : List Exc} {u : Unit} :
    requireNone init fails = .ok u ↔ fails = [] := by
  rw [← reported_eq_none (init := init)]
  unfold requireNone
  cases reported init fails <;> simp

@[simp] theorem requireNone_nil (init : Initiator) : requireNone init [] = .ok () := rfl

theorem requireNone_error {init : Initiator} {fails : List Exc} (h : fails ≠ []) :
    ∃ e ∈ fails, requireNone init fails = .error (.raise e) := by
  cases he : reported init fails with
  | none => exact absurd (reported_eq_none.1 he) h
  | some e => exact ⟨e, reported_mem he, by simp [requireNone, he, raise]⟩

theorem check_eq_nil {c : Bool} {e : Exc} : check c e = [] ↔ c = true := by cases c <;> simp [check]

/-- The checks of phase 1 list no failure exactly when they pass. -/
theorem switchFailures_eq_nil {init : Initiator} {nsel : Selector} {nd : Desc} {ext : Bool} {s : State} :
    switchFailures init nsel nd ext s = [] ↔ ChecksPass init nsel nd s := by
  simp only [switchFailures, List.append_eq_nil_iff, check_eq_nil, decide_eq_true_eq]
  constructor
  · rintro ⟨⟨⟨hp, hl⟩, hb⟩, hg⟩
    refine ⟨hp, hl, ?_, hg⟩
    cases init <;> simpa [busyCheck, check_eq_nil] using hb
  · rintro ⟨hp, hl, hb, hg⟩
    refine ⟨⟨⟨hp, hl⟩, ?_⟩, hg⟩
    cases init <;> simpa [busyCheck, check_eq_nil] using hb

/-! ### Phase 2 -/

theorem saveTask_ok {ret img : Word} {s t : State} (h : saveTask ret img s = .ok t) :
    ∃ m, t = (s.withMem m).withDraws (s.draws + 6) ∧ (s.mem.wf → m.wf) := by
  obtain ⟨s', h1, h2⟩ := Res.bind_eq_ok.1 h
  obtain ⟨m, rfl, hm⟩ := tssWriteAll_memOnly h1
  exact ⟨m, (Except.ok.inj h2).symm, hm⟩

theorem applyIf_memOnly {c : Bool} {f : State → Res State} {s t : State} (h : applyIf c f s = .ok t)
    (hf : f s = .ok t → MemOnly s t) : MemOnly s t := by
  cases c with
  | false => cases h; exact .refl _
  | true => exact hf h

/-- What phase 2 does, whatever the mode of paging: memory, the counter of free values, TR and CR0.TS. -/
theorem commitSwitch_ok {init : Initiator} {nsel : Selector} {nd : Desc} {ret : Word} {s t : State}
    (h : commitSwitch init nsel nd ret s = .ok t) :
    ∃ m, t = (((s.withMem m).withDraws (s.draws + 6)).withTr (taskReg nsel nd)).withCr0 (setTs s.cr0) ∧
      (s.mem.wf → m.wf) := by
  obtain ⟨s1, h1, h⟩ := Res.bind_eq_ok.1 h
  obtain ⟨s2, h2, h⟩ := Res.bind_eq_ok.1 h
  obtain ⟨s3, h3, h⟩ := Res.bind_eq_ok.1 h
  obtain ⟨s4, h4, h⟩ := Res.bind_eq_ok.1 h
  obtain ⟨m1, rfl, w1⟩ := applyIf_memOnly h1 setBusy_memOnly
  obtain ⟨m2, rfl, w2⟩ := saveTask_ok h2
  obtain ⟨m3, rfl, w3⟩ := applyIf_memOnly h3 setBusy_memOnly
  obtain ⟨m4, rfl, w4⟩ := applyIf_memOnly h4 tssWrite_memOnly
  exact ⟨m4, (Except.ok.inj h).symm, fun hw => w4 (w3 (w2 (w1 hw)))⟩

/-! ### Phase 3 -/

theorem inStep12_ok {x : Res α} {a : α} (h : inStep12 x = .ok a) : x = .ok a := by
  match x, h with
  | .ok b, h => simpa [inStep12] using h

/-- Step 13 changes the hidden parts of the segment registers and of the LDTR alone. -/
def HiddenOnly (s t : State) : Prop :=
  ∃ g l, t = (s.withSegs g).withLdtr l ∧ (∀ n, (g.get n).selector = (s.seg n).selector) ∧
    l.selector = s.ldtr.selector

theorem HiddenOnly.refl (s : State) : HiddenOnly s s := ⟨s.segs, s.ldtr, rfl, fun _ => rfl, rfl⟩

theorem HiddenOnly.trans {s t u : State} : HiddenOnly s t → HiddenOnly t u → HiddenOnly s u := by
  rintro ⟨g, l, rfl, hg, hl⟩ ⟨g', l', rfl, hg', hl'⟩
  exact ⟨g', l', rfl, fun n => (hg' n).trans (hg n), hl'.trans hl⟩

theorem HiddenOnly.withLdtr {s : State} {r : LdtReg} (h : r.selector = s.ldtr.selector) :
    HiddenOnly s (s.withLdtr r) := ⟨s.segs, r, rfl, fun _ => rfl, h⟩

theorem HiddenOnly.withSeg {s : State} {n : SegName} {r : SegReg} (h : r.selector = (s.seg n).selector) :
    HiddenOnly s (s.withSeg n r) := by
  refine ⟨s.segs.set n r, s.ldtr, rfl, fun m => ?_, rfl⟩
  by_cases hm : m = n
  · subst hm
    exact (congrArg SegReg.selector (State.seg_withSeg_self s m r)).trans h
  · exact congrArg SegReg.selector (State.seg_withSeg_other s n m r hm)

theorem loadVia_eq_loaded {s : State} {sel : Selector} {bad : Exc} {rows : Desc → List Exc} {load : Desc → α} {r : α}
    (h : loadVia s sel bad rows load = .loaded r) : ∃ d, r = load d := by
  unfold loadVia at h
  split at h
  case h_5 d _ =>
    split at h
    · exact ⟨d, (Loading.loaded.inj h).symm⟩
    · cases h
  all_goals cases h

/-- A register that qualifies keeps its selector. -/
theorem qualifyLdtr_selector {s : State} {ext : Bool} {r : LdtReg} (h : qualifyLdtr s ext = .loaded r) :
    r.selector = s.ldtr.selector := by
  unfold qualifyLdtr at h
  simp only at h
  split at h
  · cases h; rfl
  · split at h
    · cases h
    · obtain ⟨d, rfl⟩ := loadVia_eq_loaded h
      rfl

theorem qualifyData_selector {s : State} {ext : Bool} {n : SegName} {r : SegReg}
    (h : qualifyData s ext n = .loaded r) : r.selector = (s.seg n).selector := by
  unfold qualifyData at h
  simp only at h
  split at h
  · cases h; rfl
  · obtain ⟨d, rfl⟩ := loadVia_eq_loaded h
    rfl

theorem qualifySeg_selector {s : State} {ext : Bool} {n : SegName} {r : SegReg}
    (h : qualifySeg s ext n = .loaded r) : r.selector = (s.seg n).selector := by
  unfold qualifySeg at h
  simp only at h
  split at h
  case h_1 =>
    split at h
    · cases h
    · obtain ⟨d, rfl⟩ := loadVia_eq_loaded h
      rfl
  case h_2 =>
    split at h
    · cases h
    · obtain ⟨d, rfl⟩ := loadVia_eq_loaded h
      rfl
  all_goals exact qualifyData_selector h

theorem take_ok {q q' : Qualifying} {put : State → α → State} {x : Loading α}
    (hput : ∀ a, x = .loaded a → HiddenOnly q.state (put q.state a)) (h : q.take put x = .ok q') :
    HiddenOnly q.state q'.state := by
  cases x with
  | loaded r =>
    cases h
    by_cases hq : q.fails.isEmpty <;> simp only [hq, if_true, if_false, Bool.false_eq_true]
    · exact hput r rfl
    · exact .refl _
  | failed es => cases h; exact .refl _
  | stopped y =>
    simp only [Qualifying.take] at h
    split at h
    · cases h
    · cases h; exact .refl _

theorem qualifySegs_ok {ext : Bool} {ns : List SegName} {q q' : Qualifying} (h : qualifySegs ext q ns = .ok q') :
    HiddenOnly q.state q'.state := by
  induction ns generalizing q with
  | nil => cases h; exact .refl _
  | cons n ns ih =>
    obtain ⟨q1, h1, h2⟩ := Res.bind_eq_ok.1 h
    exact (take_ok (fun r hr => .withSeg (qualifySeg_selector hr)) h1).trans (ih h2)

theorem qualifyAll_ok {ext : Bool} {s : State} {q : Qualifying} (h : qualifyAll s ext = .ok q) :
    HiddenOnly s q.state := by
  obtain ⟨q1, h1, h2⟩ := Res.bind_eq_ok.1 h
  exact (take_ok (q := { state := s, fails := [] }) (fun r hr => .withLdtr (qualifyLdtr_selector hr)) h1).trans
    (qualifySegs_ok h2)

theorem finishStart_ok {init : Initiator} {ext trap : Bool} {q : Qualifying} {sw : Switched}
    (h : finishStart init ext trap q = .ok sw) : sw.state = q.state := by
  unfold finishStart at h
  split at h
  · split at h
    · cases h
    · cases h; rfl
  · cases h; rfl

/-- What phase 3 does: it loads the image of the new TSS and the segment registers, and nothing else. -/
theorem startTask_ok {init : Initiator} {ext : Bool} {s : State} {sw : Switched}
    (h : startTask init ext s = .ok sw) :
    ∃ img, readTask s s.tr.base = .ok img ∧ eflagsVm (incomingEflags init img.eflags) = false ∧
      HiddenOnly (loadTask init img s) sw.state := by
  obtain ⟨img, h1, h⟩ := Res.bind_eq_ok.1 h
  split at h
  · cases h
  · next hv =>
    obtain ⟨q, h2, h⟩ := Res.bind_eq_ok.1 h
    refine ⟨img, inStep12_ok h1, by simpa using hv, ?_⟩
    rw [finishStart_ok h]
    exact qualifyAll_ok h2

/-! ### What a completed switch keeps -/

theorem readTask_cr3 {s : State} {nb : Word} {img : TaskImage} (hpg : s.paging = false)
    (h : readTask s nb = .ok img) : img.cr3 = s.cr3 := by
  obtain ⟨_, -, h⟩ := Res.bind_eq_ok.1 h
  obtain ⟨c, hc, h⟩ := Res.bind_eq_ok.1 h
  rw [tssCr3, hpg] at hc
  cases hc
  iterate 17 obtain ⟨_, -, h⟩ := Res.bind_eq_ok.1 h
  cases h
  rfl

/-- After a task switch, and after any event delivered by one: the registers no switch writes are kept, CR0.TS is
set, CR3 is kept with paging off, EFLAGS is well formed, TR caches a busy TSS, and memory keeps its form. -/
structure SwitchKept (s t : State) : Prop where
  gdtr : t.gdtr = s.gdtr
  idtr : t.idtr = s.idtr
  cr0 : t.cr0 = setTs s.cr0
  cr3 : s.paging = false → t.cr3 = s.cr3
  eflags : EflagsOk t.eflags
  tr : t.tr.attr.type = 11#4
  mem : s.mem.wf → t.mem.wf

theorem setTs_setTs (c : Word) : setTs (setTs c) = setTs c := by
  simp [setTs, BitVec.or_assoc]

theorem cr0Ts_setTs (c : Word) : cr0Ts (setTs c) = true := by
  simp [cr0Ts, setTs]

theorem paging_setTs (c : Word) : cr0Pg (setTs c) = cr0Pg c := by
  simp [cr0Pg, setTs]

theorem SwitchKept.paging {s t : State} (h : SwitchKept s t) : t.paging = s.paging := by
  rw [State.paging, h.cr0, paging_setTs]
  rfl

theorem SwitchKept.trans {s t u : State} (h : SwitchKept s t) (h' : SwitchKept t u) : SwitchKept s u where
  gdtr := h'.gdtr.trans h.gdtr
  idtr := h'.idtr.trans h.idtr
  cr0 := by rw [h'.cr0, h.cr0, setTs_setTs]
  cr3 := fun hp => (h'.cr3 (h.paging.trans hp)).trans (h.cr3 hp)
  eflags := h'.eflags
  tr := h'.tr
  mem := fun hw => h'.mem (h.mem hw)

/-- The loaded EFLAGS is well formed when it has VM = 0 (R232). -/
theorem maskEflags_ok {f : Word} (h : eflagsVm f = false) : EflagsOk (maskEflags f) := by
  unfold EflagsOk maskEflags
  ext i hi
  by_cases h17 : i = 17
  · subst h17
    simp [eflagsVm] at h
    simp [h]
  · simp only [← BitVec.getLsbD_eq_getElem, BitVec.getLsbD_and, BitVec.getLsbD_or]
    have : ∀ j < 32, j ≠ 17 → ∀ b : Bool,
        ((b && (0x003F7FD5#32).getLsbD j || (0x00000002#32).getLsbD j) && (0xFFC2802A#32).getLsbD j) =
          (0x00000002#32).getLsbD j := by decide
    exact this i hi h17 _

theorem taskSwitch_kept {init : Initiator} {nsel : Selector} {nd : Desc} {ret : Word} {ext : Bool}
    {front : List Exc} {s : State} {sw : Switched}
    (h : taskSwitch init nsel nd ret ext front s = .ok sw) : SwitchKept s sw.state := by
  obtain ⟨u, -, h⟩ := Res.bind_eq_ok.1 h
  obtain ⟨s1, h1, h2⟩ := Res.bind_eq_ok.1 h
  obtain ⟨m, rfl, hm⟩ := commitSwitch_ok h1
  obtain ⟨img, hr, hv, g, l, hs, -⟩ := startTask_ok h2
  have hcr3 : s.paging = false → img.cr3 = s.cr3 := fun hp => by
    rw [readTask_cr3 _ hr]
    · rfl
    · exact (paging_setTs s.cr0).trans hp
  rw [hs]
  exact
    { gdtr := rfl, idtr := rfl, cr0 := rfl
      cr3 := hcr3
      eflags := maskEflags_ok hv
      tr := rfl
      mem := hm }

/-! ### Completion -/

theorem loadVia_loaded {s : State} {sel : Selector} {bad : Exc} {rows : Desc → List Exc} {load : Desc → α}
    {d : Desc} (h : readDesc s sel = .ok (some d)) (hr : rows d = []) :
    loadVia s sel bad rows load = .loaded (load d) := by
  simp [loadVia, h, hr]

theorem qualifyLdtr_loaded {s : State} {ext : Bool} {d : Option Desc} (h : LdtQualifies s s.ldtr.selector d) :
    qualifyLdtr s ext = .loaded (ldtrOf s.ldtr d) := by
  cases d with
  | none => simp only [LdtQualifies] at h; simp [qualifyLdtr, h, ldtrOf]
  | some d =>
    obtain ⟨hn, ht, hd, hl, hp⟩ := h
    simp only [qualifyLdtr, hn, ht, Bool.false_eq_true, if_false]
    exact loadVia_loaded hd (by simp [hl, hp, check])

/-! ### The rows of step 13 (42_task_switch.md R236) -/

theorem mem_check {c : Bool} {x e : Exc} : x ∈ check c e ↔ c = false ∧ x = e := by cases c <;> simp [check]

/-- A lookup and its rows: loaded when no row fails. -/
theorem loadVia_failed {s : State} {sel : Selector} {bad : Exc} {rows : Desc → List Exc} {load : Desc → α} {e : Exc}
    (h : readDesc s sel = .error (.raise e) ∨ (readDesc s sel = .ok none ∧ e = bad) ∨
      ∃ d, readDesc s sel = .ok (some d) ∧ e ∈ rows d) :
    ∃ es, loadVia s sel bad rows load = .failed es ∧ e ∈ es ∧ ∀ x ∈ es,
      readDesc s sel = .error (.raise x) ∨ (readDesc s sel = .ok none ∧ x = bad) ∨
        ∃ d, readDesc s sel = .ok (some d) ∧ x ∈ rows d := by
  rcases h with h | ⟨h, rfl⟩ | ⟨d, h, hd⟩
  · exact ⟨[e], by simp [loadVia, h], by simp, by simp [h]⟩
  · exact ⟨[e], by simp [loadVia, h], by simp, by simp [h]⟩
  · refine ⟨rows d, ?_, hd, fun x hx => .inr (.inr ⟨d, h, hx⟩)⟩
    cases hr : rows d with
    | nil => rw [hr] at hd; cases hd
    | cons a as => simp [loadVia, h, hr]

/-- The rows of a segment register for a descriptor that was found. -/
def segRows (n : SegName) (sel : Selector) (ext : Bool) (cpl : BitVec 2) : Desc → List Exc :=
  match n with
  | .cs => csRows sel ext
  | .ss => ssRows sel ext cpl
  | .ds | .es | .fs | .gs => dataRows sel ext cpl

/-- The rows by the bits of the descriptor: kind and privilege together, then P. -/
theorem segRows_eq (n : SegName) (sel : Selector) (ext : Bool) (cpl : BitVec 2) (d : Desc) :
    segRows n sel ext cpl d =
      check (rowKind n d && rowPrivilege n cpl sel d) (excCode .ts (selCode sel ext)) ++
      check (d.getLsbD 47) (excCode (if n = .ss then .ss else .np) (selCode sel ext)) := by
  have h43 : (descType d).getLsbD 3 = d.getLsbD 43 := by simp [descType]
  have h42 : (descType d).getLsbD 2 = d.getLsbD 42 := by simp [descType]
  have h41 : (descType d).getLsbD 1 = d.getLsbD 41 := by simp [descType]
  cases n <;> simp only [segRows, csRows, ssRows, dataRows, rowKind, rowPrivilege, isCodeDesc, isConforming,
    isWritableData, isReadableDesc, descS, descP, h43, h42, h41, reduceCtorEq, if_true, if_false] <;>
    cases d.getLsbD 44 <;> cases d.getLsbD 43 <;> simp [Bool.and_assoc]

/-- Step 13 for one segment register: null, or through the table. -/
theorem qualifySeg_eq (s : State) (ext : Bool) (n : SegName) :
    qualifySeg s ext n =
      if selNull (s.seg n).selector then
        if n = .cs ∨ n = .ss then .failed [excCode .ts (selCode (s.seg n).selector ext)]
        else .loaded { s.seg n with valid := false }
      else loadVia s (s.seg n).selector (excCode .ts (selCode (s.seg n).selector ext))
        (segRows n (s.seg n).selector ext s.cpl) (s.seg n).load := by
  cases n <;> simp [qualifySeg, qualifyData, segRows]

/-- A register whose rows hold is loaded. -/
theorem qualifySeg_loaded {s : State} {ext : Bool} {n : SegName} {d : Option Desc}
    (h : SegQualifies s s.cpl n (s.seg n).selector d) : qualifySeg s ext n = .loaded (segOf (s.seg n) d) := by
  rw [qualifySeg_eq]
  cases d with
  | none => simp [h.2.2, h.1, h.2.1, segOf]
  | some d =>
    obtain ⟨h0, hd, hk, hp, h47⟩ := h
    simp only [h0, Bool.false_eq_true, if_false]
    exact loadVia_loaded hd (by rw [segRows_eq]; simp [check, hk, hp, h47])

/-- A register of which some row fails: exactly the failing rows are listed. -/
theorem qualifySeg_failed {s : State} {ext : Bool} {n : SegName} {e : Exc}
    (h : SegRowFails s s.cpl ext n (s.seg n).selector e) :
    ∃ es, qualifySeg s ext n = .failed es ∧ e ∈ es ∧ ∀ x ∈ es, SegRowFails s s.cpl ext n (s.seg n).selector x := by
  rw [qualifySeg_eq]
  by_cases h0 : selNull (s.seg n).selector = true
  · have no : selNull (s.seg n).selector ≠ false := by simp [h0]
    obtain ⟨hn, he⟩ : (n = .cs ∨ n = .ss) ∧ e = excCode .ts (selCode (s.seg n).selector ext) := by
      cases h with
      | null hn => exact ⟨hn, rfl⟩
      | outOfTable h1 | kind _ h1 | privilege _ h1 | notPresent _ h1 | lookup _ h1 => exact absurd h1 no
    subst he
    simp only [h0, if_true, hn]
    exact ⟨_, rfl, by simp, fun x hx => List.mem_singleton.1 hx ▸ .null hn h0⟩
  · have h0 : selNull (s.seg n).selector = false := by simpa using h0
    simp only [h0, Bool.false_eq_true, if_false]
    obtain ⟨es, h1, h2, h3⟩ := loadVia_failed (s := s) (sel := (s.seg n).selector)
      (bad := excCode .ts (selCode (s.seg n).selector ext)) (rows := segRows n (s.seg n).selector ext s.cpl)
      (load := (s.seg n).load) (e := e) (by
        simp only [segRows_eq, List.mem_append, mem_check, Bool.and_eq_false_iff]
        cases h with
        | null _ h => rw [h0] at h; cases h
        | outOfTable _ h => exact .inr (.inl ⟨h, rfl⟩)
        | kind d _ h hk => exact .inr (.inr ⟨d, h, .inl ⟨.inl hk, rfl⟩⟩)
        | privilege d _ h hp => exact .inr (.inr ⟨d, h, .inl ⟨.inr hp, rfl⟩⟩)
        | notPresent d _ h hp => exact .inr (.inr ⟨d, h, .inr ⟨hp, rfl⟩⟩)
        | lookup e _ h => exact .inl h)
    refine ⟨es, h1, h2, fun x hx => ?_⟩
    have h4 := h3 x hx
    simp only [segRows_eq, List.mem_append, mem_check, Bool.and_eq_false_iff] at h4
    rcases h4 with h | ⟨h, rfl⟩ | ⟨d, h, ⟨hk | hp, rfl⟩ | ⟨hp, rfl⟩⟩
    · exact .lookup x h0 h
    · exact .outOfTable h0 h
    · exact .kind d h0 h hk
    · exact .privilege d h0 h hp
    · exact .notPresent d h0 h hp

/-- The LDTR, when a row of it fails. -/
theorem qualifyLdtr_failed {s : State} {ext : Bool} {e : Exc} (h : LdtRowFails s ext s.ldtr.selector e) :
    ∃ es, qualifyLdtr s ext = .failed es ∧ es ≠ [] ∧ ∀ x ∈ es, LdtRowFails s ext s.ldtr.selector x := by
  have h0 : selNull s.ldtr.selector = false := by cases h <;> assumption
  simp only [qualifyLdtr, h0, Bool.false_eq_true, if_false]
  by_cases ht : selTi s.ldtr.selector = true
  · simp only [ht, if_true]
    exact ⟨_, rfl, by simp, fun x hx => List.mem_singleton.1 hx ▸ .inLdt h0 ht⟩
  · have ht : selTi s.ldtr.selector = false := by simpa using ht
    simp only [ht, Bool.false_eq_true, if_false]
    obtain ⟨es, h1, h2, h3⟩ := loadVia_failed (s := s) (sel := s.ldtr.selector)
      (bad := excCode .ts (selCode s.ldtr.selector ext))
      (rows := fun d => check (isLdt d && descP d) (excCode .ts (selCode s.ldtr.selector ext)))
      (load := s.ldtr.load) (e := e) (by
        simp only [mem_check, Bool.and_eq_false_iff]
        cases h with
        | inLdt _ h => rw [ht] at h; cases h
        | outOfTable _ _ h => exact .inr (.inl ⟨h, rfl⟩)
        | desc d _ _ h hd => exact .inr (.inr ⟨d, h, hd, rfl⟩)
        | lookup e _ _ h => exact .inl h)
    refine ⟨es, h1, List.ne_nil_of_mem h2, fun x hx => ?_⟩
    have h4 := h3 x hx
    simp only [mem_check, Bool.and_eq_false_iff] at h4
    rcases h4 with h | ⟨h, rfl⟩ | ⟨d, h, hd, rfl⟩
    · exact .lookup x h0 ht h
    · exact .outOfTable h0 ht h
    · exact .desc d h0 ht h hd

/-- A lookup does not depend on the segment registers. -/
theorem readDesc_withSegs (s : State) (g : Segs) (sel : Selector) :
    readDesc (s.withSegs g) sel = readDesc s sel := by
  have hr : ∀ pas, readList (s.withSegs g) pas = readList s pas := fun pas =>
    readList_congr rfl (fun _ _ => rfl)
  have ht : ∀ n lin, translateBytes (s.withSegs g) .read 0 n lin = translateBytes s .read 0 n lin := by
    intro n
    induction n with
    | zero => intro lin; rfl
    | succ n ih => intro lin; simp only [translateBytes, ih]; rfl
  have hd : ∀ lin, readDescAt (s.withSegs g) lin = readDescAt s lin := by
    intro lin
    simp only [readDescAt, sysRead, memRead, ht, hr]
  unfold readDesc
  simp only [hd]
  rfl

/-- The lookups of step 13 do not depend on the segment registers loaded so far. -/
theorem segQualifies_withSegs {u : State} {g : Segs} {cpl : BitVec 2} {n : SegName} {sel : Selector} {d : Option Desc} :
    SegQualifies (u.withSegs g) cpl n sel d ↔ SegQualifies u cpl n sel d := by
  cases d <;> simp only [SegQualifies, readDesc_withSegs]

theorem segRowFails_withSegs {u : State} {g : Segs} {cpl : BitVec 2} {ext : Bool} {n : SegName} {sel : Selector}
    {e : Exc} : SegRowFails (u.withSegs g) cpl ext n sel e ↔ SegRowFails u cpl ext n sel e := by
  constructor <;> intro h <;> cases h with
  | null hn h => exact .null hn h
  | outOfTable h0 h => exact .outOfTable h0 (by simpa only [readDesc_withSegs] using h)
  | kind d h0 h hk => exact .kind d h0 (by simpa only [readDesc_withSegs] using h) hk
  | privilege d h0 h hp => exact .privilege d h0 (by simpa only [readDesc_withSegs] using h) hp
  | notPresent d h0 h hp => exact .notPresent d h0 (by simpa only [readDesc_withSegs] using h) hp
  | lookup e h0 h => exact .lookup e h0 (by simpa only [readDesc_withSegs] using h)

/-- A register taken into step 13 with no failure so far, and one taken after a failure. -/
@[simp] theorem take_loaded (s : State) (put : State → α → State) (r : α) :
    Qualifying.take { state := s, fails := [] } put (.loaded r) = .ok { state := put s r, fails := [] } := rfl

@[simp] theorem take_failed (s : State) (fs es : List Exc) (put : State → α → State) :
    Qualifying.take { state := s, fails := fs } put (.failed es) = .ok { state := s, fails := fs ++ es } := rfl

@[simp] theorem take_late (s : State) (f : Exc) (fs : List Exc) (put : State → α → State) (r : α) :
    Qualifying.take { state := s, fails := f :: fs } put (.loaded r) = .ok { state := s, fails := f :: fs } := rfl

/-- The selectors that step 12 has loaded, with the privilege level of the new CS. -/
structure HasSelectors (cpl : BitVec 2) (sel : SegName → Selector) (g : Segs) : Prop where
  sel : ∀ n, (g.get n).selector = sel n
  cpl : ∀ s : State, (s.withSegs g).cpl = cpl

theorem HasSelectors.set {cpl : BitVec 2} {sel : SegName → Selector} {g : Segs} (h : HasSelectors cpl sel g)
    (n : SegName) {r : SegReg} (hr : r.selector = sel n) : HasSelectors cpl sel (g.set n r) := by
  constructor
  · intro m
    have := h.sel m
    cases n <;> cases m <;> first | exact this | exact hr
  · intro s
    have hc := h.cpl s
    have hs : r.selector = (g.get n).selector := hr.trans (h.sel n).symm
    cases n <;> first | exact hc | (rw [← hc]; exact congrArg (BitVec.setWidth 2) hs)

/-- Step 13 once a register has failed: nothing more is loaded, and only failing rows are added. -/
theorem qualifySegs_late {u : State} {g : Segs} {cpl : BitVec 2} {ext : Bool} {sel : SegName → Selector}
    {dd : SegName → Option Desc} (hs : HasSelectors cpl sel g) (ns : List SegName) (f : Exc) (fs : List Exc)
    (h : ∀ n ∈ ns, SegQualifies u cpl n (sel n) (dd n) ∨ ∃ e, SegRowFails u cpl ext n (sel n) e) :
    ∃ es, qualifySegs ext { state := u.withSegs g, fails := f :: fs } ns =
        .ok { state := u.withSegs g, fails := f :: fs ++ es } ∧
      ∀ e ∈ es, ∃ n ∈ ns, SegRowFails u cpl ext n (sel n) e := by
  induction ns generalizing fs with
  | nil => exact ⟨[], by simp [qualifySegs], by simp⟩
  | cons n ns ih =>
    have hsel : ((u.withSegs g).seg n).selector = sel n := hs.sel n
    rcases h n (List.mem_cons_self ..) with hq | ⟨e, he⟩
    · obtain ⟨es, h1, h2⟩ := ih fs fun m hm => h m (List.mem_cons_of_mem _ hm)
      refine ⟨es, ?_, fun x hx => ?_⟩
      · rw [qualifySegs, qualifyNext,
          qualifySeg_loaded (by rw [hs.cpl, hsel]; exact segQualifies_withSegs.2 hq), take_late, Res.ok_bind, h1]
      · obtain ⟨m, hm, hx⟩ := h2 x hx
        exact ⟨m, List.mem_cons_of_mem _ hm, hx⟩
    · obtain ⟨es, h1, -, h3⟩ := qualifySeg_failed (s := u.withSegs g) (ext := ext) (n := n)
        (by rw [hs.cpl, hsel]; exact segRowFails_withSegs.2 he)
      obtain ⟨es', h4, h5⟩ := ih (fs ++ es) fun m hm => h m (List.mem_cons_of_mem _ hm)
      refine ⟨es ++ es', ?_, fun x hx => ?_⟩
      · rw [qualifySegs, qualifyNext, h1, take_failed, Res.ok_bind, List.cons_append, h4]
        simp
      · rcases List.mem_append.1 hx with hx | hx
        · have := h3 x hx
          rw [hs.cpl, hsel] at this
          exact ⟨n, List.mem_cons_self .., segRowFails_withSegs.1 this⟩
        · obtain ⟨m, hm, hx⟩ := h5 x hx
          exact ⟨m, List.mem_cons_of_mem _ hm, hx⟩

/-- Step 13 over registers that qualify: each is loaded. -/
theorem qualifySegs_loaded {u : State} {cpl : BitVec 2} {ext : Bool} {sel : SegName → Selector}
    {dd : SegName → Option Desc} (ns rest : List SegName) (hn : ns.Nodup)
    (h : ∀ n ∈ ns, SegQualifies u cpl n (sel n) (dd n)) (g : Segs) (hs : HasSelectors cpl sel g) :
    ∃ g', qualifySegs ext { state := u.withSegs g, fails := [] } (ns ++ rest) =
        qualifySegs ext { state := u.withSegs g', fails := [] } rest ∧ HasSelectors cpl sel g' ∧
      (∀ n ∈ ns, g'.get n = segOf (g.get n) (dd n)) ∧ ∀ n, n ∉ ns → g'.get n = g.get n := by
  induction ns generalizing g with
  | nil => exact ⟨g, rfl, hs, by simp, fun _ _ => rfl⟩
  | cons n ns ih =>
    have hsel : ((u.withSegs g).seg n).selector = sel n := hs.sel n
    have hq : qualifySeg (u.withSegs g) ext n = .loaded (segOf (g.get n) (dd n)) :=
      qualifySeg_loaded (by rw [hs.cpl, hsel]; exact segQualifies_withSegs.2 (h n (List.mem_cons_self ..)))
    have hr : (segOf (g.get n) (dd n)).selector = sel n := by
      rw [← hs.sel n]; cases dd n <;> rfl
    obtain ⟨hn1, hn2⟩ := List.nodup_cons.1 hn
    obtain ⟨g', h1, h2, h3, h4⟩ := ih hn2 (fun m hm => h m (List.mem_cons_of_mem _ hm))
      (g.set n (segOf (g.get n) (dd n))) (hs.set n hr)
    have get_self : ∀ r, (g.set n r).get n = r := fun r => State.seg_withSeg_self (u.withSegs g) n r
    have get_other : ∀ r m, m ≠ n → (g.set n r).get m = g.get m := fun r m hm =>
      State.seg_withSeg_other (u.withSegs g) n m r hm
    refine ⟨g', ?_, h2, fun m hm => ?_, fun m hm => ?_⟩
    · rw [List.cons_append, qualifySegs, qualifyNext, hq, take_loaded, Res.ok_bind, ← h1]
      rfl
    · by_cases hmn : m = n
      · subst hmn
        rw [h4 m hn1, get_self]
      · rw [h3 m ((List.mem_cons.1 hm).resolve_left hmn), get_other _ _ hmn]
    · obtain ⟨hmn, hm⟩ := not_or.1 (fun hx => hm (List.mem_cons.2 hx))
      rw [h4 m hm, get_other _ _ hmn]

/-- Step 13 when the registers before `n` qualify and `n` is the first to fail: those are loaded, nothing else is, and
only failing rows are listed (42_task_switch.md R237). -/
theorem qualifySegs_fails {u : State} {cpl : BitVec 2} {ext : Bool} {sel : SegName → Selector}
    {dd : SegName → Option Desc} {g : Segs} (hs : HasSelectors cpl sel g) (pre : List SegName) (n : SegName)
    (post : List SegName) (hn : pre.Nodup) (hpre : ∀ m ∈ pre, SegQualifies u cpl m (sel m) (dd m)) {e : Exc}
    (he : SegRowFails u cpl ext n (sel n) e)
    (hpost : ∀ m ∈ post, SegQualifies u cpl m (sel m) (dd m) ∨ ∃ e, SegRowFails u cpl ext m (sel m) e) :
    ∃ g' fs, qualifySegs ext { state := u.withSegs g, fails := [] } (pre ++ n :: post) =
        .ok { state := u.withSegs g', fails := fs } ∧ fs ≠ [] ∧
      (∀ x ∈ fs, ∃ m, SegRowFails u cpl ext m (sel m) x) ∧ (∀ m, (g'.get m).selector = sel m) ∧
      (∀ m ∈ pre, g'.get m = segOf (g.get m) (dd m)) ∧ ∀ m, m ∉ pre → g'.get m = g.get m := by
  obtain ⟨g', h1, h2, h3, h4⟩ := qualifySegs_loaded (ext := ext) pre (n :: post) hn hpre g hs
  obtain ⟨es, k1, k2, k3⟩ := qualifySeg_failed (s := u.withSegs g') (ext := ext) (n := n) (e := e)
    (by rw [h2.cpl, show ((u.withSegs g').seg n).selector = sel n from h2.sel n]; exact segRowFails_withSegs.2 he)
  obtain ⟨f, fs, rfl⟩ : ∃ f fs, es = f :: fs := by
    cases es with
    | nil => cases k2
    | cons f fs => exact ⟨f, fs, rfl⟩
  obtain ⟨es', l1, l2⟩ := qualifySegs_late h2 post f fs hpost
  refine ⟨g', f :: fs ++ es', ?_, by simp, fun x hx => ?_, h2.sel, h3, h4⟩
  · rw [h1, qualifySegs, qualifyNext, k1, take_failed, Res.ok_bind, List.nil_append, l1]
  · rcases List.mem_append.1 hx with hx | hx
    · have := k3 x hx
      rw [h2.cpl, show ((u.withSegs g').seg n).selector = sel n from h2.sel n] at this
      exact ⟨n, segRowFails_withSegs.1 this⟩
    · obtain ⟨m, -, hx⟩ := l2 x hx
      exact ⟨m, hx⟩

/-- A register that qualifies fails no row. -/
theorem not_fails_of_qualifies {s : State} {cpl : BitVec 2} {ext : Bool} {n : SegName} {sel : Selector}
    {d : Option Desc} {e : Exc} (h : SegQualifies s cpl n sel d) : ¬ SegRowFails s cpl ext n sel e := by
  intro hf
  cases d with
  | none =>
    obtain ⟨h1, h2, h3⟩ := h
    cases hf with
    | null hn => exact hn.elim h1 h2
    | outOfTable h0 | kind _ h0 | privilege _ h0 | notPresent _ h0 | lookup _ h0 => simp [h3] at h0
  | some d =>
    obtain ⟨h0, h1, h2, h3, h4⟩ := h
    cases hf with
    | null _ h => simp [h0] at h
    | outOfTable _ h | lookup _ _ h => rw [h1] at h; simp at h
    | kind _ _ h hk | privilege _ _ h hk | notPresent _ _ h hk => rw [h1] at h; simp_all

theorem loadTask_selectors (init : Initiator) (img : TaskImage) (s : State) :
    HasSelectors (selRpl img.cs) (imageSel img) (loadTask init img s).segs :=
  ⟨fun n => by cases n <;> rfl, fun _ => by simp [State.cpl, selRpl, loadTask, SegReg.select]⟩

/-- Step 13 with every selector accepted (R236). -/
theorem qualifyAll_entered {init : Initiator} {img : TaskImage} {segs : NewSegs} {s : State} {ext : Bool}
    (h : Qualifies init img segs s) :
    qualifyAll (loadTask init img s) ext = .ok { state := entered init img segs s, fails := [] } := by
  obtain ⟨g, h1, -, h3, -⟩ := qualifySegs_loaded (u := withNewLdtr init img segs s) (ext := ext) qualifyOrder []
    (by decide) (fun n _ => h.segs n) (loadTask init img s).segs (loadTask_selectors init img s)
  have hg : (entered init img segs s).segs = g := by
    have := fun n (hn : n ∈ qualifyOrder) => (h3 n hn).symm
    simp only [qualifyOrder, List.forall_mem_cons, List.not_mem_nil, IsEmpty.forall_iff, implies_true, and_true] at this
    obtain ⟨e1, e2, e3, e4, e5, e6⟩ := this
    cases g
    simp only [entered, Segs.mk.injEq]
    exact ⟨e1, e2, e3, e4, e5, e6⟩
  rw [qualifyAll, qualifyLdtr_loaded (s := loadTask init img s) h.ldt, take_loaded, Res.ok_bind]
  rw [List.append_nil] at h1
  exact h1.trans (by rw [← hg]; rfl)

theorem eflagsVm_incoming (init : Initiator) (f : Word) : eflagsVm (incomingEflags init f) = eflagsVm f := by
  cases init <;> simp [incomingEflags, nests, setNt, eflagsVm]

/-- Phase 3 from a committed state whose new task can be loaded: the task is entered, with `#DB` pending when its
T flag is set (R230 to R241). -/
theorem startTask_entered {init : Initiator} {ext : Bool} {nd : Desc} {img : TaskImage} {segs : NewSegs}
    {s : State} (hb : s.tr.base = descBase nd) (h : Loadable init nd img segs s) :
    startTask init ext s =
      .ok { state := entered init img segs s, pending := if img.trap then some (exc .db) else none } := by
  have hv : eflagsVm (incomingEflags init img.eflags) = false := by rw [eflagsVm_incoming]; exact h.notV86
  have he : (entered init img segs s).eip.toNat ≤ (entered init img segs s).segs.cs.limit.toNat := h.eip
  unfold startTask
  rw [hb, h.image]
  simp only [inStep12, Res.ok_bind, hv, Bool.false_eq_true, if_false, qualifyAll_entered h.qualifies]
  simp only [finishStart, startFailure, reported, he, if_true]

/-- Phase 2 writes only `switchWrites`, paging off (R211 to R222). -/
theorem commitSwitch_frame {init : Initiator} {nsel : Selector} {nd : Desc} {ret : Word} {s t : State}
    (hpg : s.paging = false) (h : commitSwitch init nsel nd ret s = .ok t) {a : Nat}
    (ha : a ∉ switchWrites init nsel nd s) : t.mem.read a = s.mem.read a := by
  simp only [switchWrites, List.mem_append, not_or] at ha
  obtain ⟨⟨⟨hsave, hold⟩, hnew⟩, hlink⟩ := ha
  have busy : ∀ (u v : State) (sel : Selector) (b : Bool), u.paging = false → u.gdtr = s.gdtr →
      setBusy u sel b = .ok v → a ∉ [busyAddr s sel] → v.mem.read a = u.mem.read a ∧ MemOnly u v := by
    intro u v sel b hu hg hb hnot
    refine ⟨?_, setBusy_memOnly hb⟩
    obtain ⟨x, -, hb⟩ := Res.bind_eq_ok.1 hb
    rw [sysWrite, memWrite_flat hu] at hb
    cases hb
    refine writeCells_read_other _ _ _ _ ?_
    simpa [linBytes, busyAddr, gdtAddr, hg] using hnot
  have tss : ∀ (u : State) (base : Word) (off n v : Nat), u.paging = false →
      a ∉ tssBytes base off n → ∀ w, tssWrite u base off n v = .ok w → w.mem.read a = u.mem.read a := by
    intro u base off n v hu hnot w hw
    rw [tssWrite_flat hu] at hw
    cases hw
    refine writeCells_read_other _ _ _ _ ?_
    rwa [tssAddrs_flat hu]
  have all : ∀ (es : List (Nat × Nat × Nat)) (u v : State) (base : Word), u.paging = false →
      (∀ e ∈ es, a ∉ tssBytes base e.1 e.2.1) → tssWriteAll u base es = .ok v →
      v.mem.read a = u.mem.read a := by
    intro es
    induction es with
    | nil => intro u v base _ _ hv; cases hv; rfl
    | cons e es ih =>
      intro u v base hu hes hv
      obtain ⟨w, h1, h2⟩ := Res.bind_eq_ok.1 hv
      obtain ⟨m, rfl, -⟩ := tssWrite_memOnly h1
      rw [ih (u.withMem m) v base hu (fun e' he' => hes e' (List.mem_cons_of_mem _ he')) h2]
      exact tss u base _ _ _ hu (hes e (List.mem_cons_self ..)) _ h1
  have sub : ∀ base off n, 32 ≤ off → off + n ≤ 96 → a ∉ tssBytes base 32 64 → a ∉ tssBytes base off n := by
    intro base off n h1 h2 hnot hin
    refine hnot ?_
    simp only [tssBytes, List.mem_map, List.mem_range] at hin ⊢
    obtain ⟨i, hi, rfl⟩ := hin
    exact ⟨off - 32 + i, by omega, by congr 1; omega⟩
  obtain ⟨s1, h1, h⟩ := Res.bind_eq_ok.1 h
  obtain ⟨s2, h2, h⟩ := Res.bind_eq_ok.1 h
  obtain ⟨s3, h3, h⟩ := Res.bind_eq_ok.1 h
  obtain ⟨s4, h4, last⟩ := Res.bind_eq_ok.1 h
  have e1 : s1.mem.read a = s.mem.read a ∧ MemOnly s s1 := by
    cases hc : leavesOld init with
    | false => rw [hc] at h1; cases h1; exact ⟨rfl, .refl _⟩
    | true => rw [hc] at h1 hold; exact busy s s1 s.tr.selector false hpg rfl h1 hold
  obtain ⟨e1, m1, rfl, -⟩ := e1
  obtain ⟨s2', h2a, h2b⟩ := Res.bind_eq_ok.1 h2
  have e2 : s2.mem.read a = (s.withMem m1).mem.read a := by
    rw [← Except.ok.inj h2b]
    refine all _ (s.withMem m1) s2' _ hpg ?_ h2a
    intro e he
    have : 32 ≤ e.1 ∧ e.1 + e.2.1 ≤ 96 := by
      simp only [savedFields, List.mem_cons, List.not_mem_nil, or_false] at he
      rcases he with rfl | rfl | rfl | rfl | rfl | rfl | rfl | rfl | rfl | rfl | rfl | rfl | rfl | rfl | rfl |
        rfl | rfl | rfl | rfl | rfl | rfl | rfl <;> simp
    exact sub _ _ _ this.1 this.2 hsave
  obtain ⟨m2, rfl, -⟩ := saveTask_ok h2
  have e3 : s3.mem.read a = m2.read a ∧ MemOnly (((s.withMem m1).withMem m2).withDraws (s.draws + 6)) s3 := by
    cases hc : marksNew init with
    | false => rw [hc] at h3; cases h3; exact ⟨rfl, .refl _⟩
    | true =>
      rw [hc] at h3 hnew
      exact busy (((s.withMem m1).withMem m2).withDraws (s.draws + 6)) s3 nsel true hpg rfl h3 hnew
  obtain ⟨e3, m3, rfl, -⟩ := e3
  have e4 : s4.mem.read a = m3.read a := by
    cases hc : nests init with
    | false => rw [hc] at h4; cases h4; rfl
    | true =>
      rw [hc] at h4 hlink
      exact tss ((((s.withMem m1).withMem m2).withDraws (s.draws + 6)).withMem m3) (descBase nd) 0 2 _ hpg hlink s4 h4
  cases last
  exact e4.trans (e3.trans (e2.trans e1))

/-- A task switch whose checks pass, which commits, and whose new task can be loaded: what it answers, for a T flag
of either value (R243). -/
theorem taskSwitch_entered {init : Initiator} {nsel : Selector} {nd : Desc} {ret : Word} {ext : Bool}
    {s s1 : State} {img : TaskImage} {segs : NewSegs} (hc : ChecksPass init nsel nd s)
    (h1 : commitSwitch init nsel nd ret s = .ok s1) (hl : Loadable init nd img segs s1) :
    taskSwitch init nsel nd ret ext [] s =
      .ok { state := entered init img segs s1, pending := if img.trap then some (exc .db) else none } := by
  have hb : s1.tr.base = descBase nd := by
    obtain ⟨m, rfl, -⟩ := commitSwitch_ok h1
    rfl
  rw [taskSwitch, List.nil_append, switchFailures_eq_nil.2 hc, requireNone_nil, Res.ok_bind, h1, Res.ok_bind,
    startTask_entered hb hl]

@[simp] theorem entered_tr (init : Initiator) (img : TaskImage) (segs : NewSegs) (s : State) :
    (entered init img segs s).tr = s.tr := rfl

@[simp] theorem entered_cr0 (init : Initiator) (img : TaskImage) (segs : NewSegs) (s : State) :
    (entered init img segs s).cr0 = s.cr0 := rfl

@[simp] theorem entered_cr3 (init : Initiator) (img : TaskImage) (segs : NewSegs) (s : State) :
    (entered init img segs s).cr3 = img.cr3 := rfl

@[simp] theorem entered_gdtr (init : Initiator) (img : TaskImage) (segs : NewSegs) (s : State) :
    (entered init img segs s).gdtr = s.gdtr := rfl

@[simp] theorem entered_idtr (init : Initiator) (img : TaskImage) (segs : NewSegs) (s : State) :
    (entered init img segs s).idtr = s.idtr := rfl

@[simp] theorem entered_mem (init : Initiator) (img : TaskImage) (segs : NewSegs) (s : State) :
    (entered init img segs s).mem = s.mem := rfl

/-- The frame of a committed switch whose new task is entered. -/
theorem entered_frame {init : Initiator} {nsel : Selector} {nd : Desc} {ret : Word} {s s1 : State}
    {img : TaskImage} {segs : NewSegs} (h1 : commitSwitch init nsel nd ret s = .ok s1)
    (hl : Loadable init nd img segs s1) : SwitchFrame init nsel nd s (entered init img segs s1) := by
  have fr := fun hpg a ha => commitSwitch_frame (a := a) hpg h1 ha
  have cr3 : s.paging = false → img.cr3 = s.cr3 := by
    obtain ⟨m, hm, -⟩ := commitSwitch_ok h1
    intro hpg
    have hp1 : s1.paging = false := by rw [hm]; exact (paging_setTs s.cr0).trans hpg
    rw [readTask_cr3 hp1 hl.image, hm]
    rfl
  obtain ⟨m, hm, -⟩ := commitSwitch_ok h1
  exact
    { tr := by rw [entered_tr, hm]; rfl
      cr0 := by rw [entered_cr0, hm]; rfl
      gdtr := by rw [entered_gdtr, hm]; rfl
      idtr := by rw [entered_idtr, hm]; rfl
      cr3 := fun hpg => by rw [entered_cr3]; exact cr3 hpg
      mem := fun hpg a ha => by rw [entered_mem]; exact fr hpg a ha }

end Sys2Proof.Machine
end

