-- ==== Sys2Proof/Laws/Commit.lean ====
section
/-! SUPPORT. Reads after writes with paging off: consecutive bytes of memory, the busy flag, the fields of a TSS, and
what a committed task switch leaves in memory. -/

namespace Sys2Proof.Machine

open Sys2Proof.Safety

/-! ### Consecutive bytes -/

theorem linBytes_getElem (lin : Word) (n k : Nat) (h : k < n) : (linBytes lin n)[k]'(by simpa using h) = (lin + BitVec.ofNat 32 k).toNat := by
  induction n generalizing lin k with
  | zero => omega
  | succ n ih =>
    cases k with
    | zero => simp [linBytes]
    | succ k =>
      simp only [linBytes, List.getElem_cons_succ]
      rw [ih (lin + 1) k (by omega)]
      congr 1
      rw [BitVec.add_assoc]
      congr 1
      apply BitVec.eq_of_toNat_eq
      simp
      omega

/-- A read of bytes that are there. -/
theorem memRead_bytes {s : State} (hp : s.paging = false) (k : Access) (l : BitVec 2) (lin : Word) (bs : List Byte)
    (h : ∀ i (hi : i < bs.length), s.mem.read (lin + BitVec.ofNat 32 i).toNat = some bs[i]) :
    memRead s k l lin bs.length = .ok (leNat bs) := by
  rw [memRead_flat hp, readList_eq (bs := bs), Res.ok_bind]
  · intro pa hpa; rw [physWidth_flat hp]; exact linBytes_lt hpa
  · apply List.ext_getElem
    · simp
    · intro i h1 h2
      simp only [List.getElem_map]
      rw [linBytes_getElem _ _ _ (by simpa using h2)]
      exact h i (by simpa using h2)
theorem leNat_take (n k v : Nat) (h : k ≤ n) : leNat ((leBytes n v).take k) = v % 256 ^ k := by
  have : (leBytes n v).take k = leBytes k v := by
    induction n generalizing k v with
    | zero => obtain rfl : k = 0 := by omega
              rfl
    | succ n ih =>
      cases k with
      | zero => rfl
      | succ k => simp only [leBytes, List.take_succ_cons]; rw [ih k _ (by omega)]
  rw [this, leNat_leBytes]

theorem leBytes_getElem (n v i : Nat) (h : i < n) : (leBytes n v)[i]'(by simpa using h) = BitVec.ofNat 8 (v / 256 ^ i) := by
  induction n generalizing v i with
  | zero => omega
  | succ n ih =>
    cases i with
    | zero => simp [leBytes]
    | succ i =>
      simp only [leBytes, List.getElem_cons_succ]
      rw [ih _ _ (by omega), Nat.div_div_eq_div_mul, Nat.pow_succ']

/-! ### The busy flag (20_memory.md R76) -/

theorem setBusy_flat {s : State} {sel : Selector} {b : Bool} {t : Byte} (hp : s.paging = false)
    (h : s.mem.read (busyAddr s sel) = some t) :
    setBusy s sel b = .ok (s.withMem (s.mem.write (busyAddr s sel) (busyByte t b))) := by
  unfold setBusy sysRead
  have := memRead_bytes hp .read 0 (gdtAddr s sel + 5) [t] (by
    intro i hi
    have : i = 0 := by simpa using hi
    subst this
    simpa [busyAddr] using h)
  simp only [List.length_cons, List.length_nil, leNat] at this
  rw [this, Res.ok_bind, sysWrite, memWrite_flat hp]
  simp [linBytes, leBytes, writeCells, busyAddr]

theorem setBusy_ok_flat {s t : State} {sel : Selector} {b : Bool} (hp : s.paging = false) (h : setBusy s sel b = .ok t) :
    ∃ x, s.mem.read (busyAddr s sel) = some x ∧ t = s.withMem (s.mem.write (busyAddr s sel) (busyByte x b)) := by
  have h' := h
  obtain ⟨n, hn, -⟩ := Res.bind_eq_ok.1 h
  rw [sysRead, memRead_flat hp] at hn
  obtain ⟨bs, h3, h4⟩ := Res.bind_eq_ok.1 hn
  obtain ⟨-, hr⟩ := readList_ok h3
  match bs, hr with
  | [x], hr =>
    have hx : s.mem.read (busyAddr s sel) = some x := by simpa [linBytes, busyAddr] using hr
    exact ⟨x, hx, by rw [setBusy_flat hp hx] at h'; exact (Except.ok.inj h').symm⟩
  | [], hr => simp [linBytes] at hr
  | _ :: _ :: _, hr => simp [linBytes] at hr

theorem busy_listed {s : State} {sel : Selector} {d : Desc} (hp : s.paging = false)
    (h : readDescAt s (gdtAddr s sel) = .ok d) : s.mem.read (busyAddr s sel) = some (d.extractLsb' 40 8) := by
  obtain ⟨n, h1, h2⟩ := Res.bind_eq_ok.1 h
  rw [sysRead, memRead_flat hp] at h1
  obtain ⟨bs, h3, h4⟩ := Res.bind_eq_ok.1 h1
  cases h4; cases h2
  obtain ⟨-, hr⟩ := readList_ok h3
  have hl : bs.length = 8 := by
    have := congrArg List.length hr
    simpa using this.symm
  match bs, hl with
  | [b0,b1,b2,b3,b4,b5,b6,b7], _ =>
  have h5 := congrArg (fun l => l[5]?) hr
  simp only [List.getElem?_map] at h5
  rw [List.getElem?_eq_getElem (by simp)] at h5
  rw [linBytes_getElem _ _ _ (by omega)] at h5
  simp only [Option.map_some, List.getElem?_cons_succ, List.getElem?_cons_zero, Option.some.injEq] at h5
  rw [busyAddr]
  show s.mem.read (gdtAddr s sel + BitVec.ofNat 32 5).toNat = _
  rw [h5]
  congr 1
  apply BitVec.eq_of_toNat_eq
  simp only [BitVec.extractLsb'_toNat, BitVec.toNat_ofNat, leNat, Nat.shiftRight_eq_div_pow]
  have := b0.isLt; have := b1.isLt; have := b2.isLt; have := b3.isLt; have := b4.isLt; have := b5.isLt; have := b6.isLt; have := b7.isLt
  omega

/-! ### The fields of a TSS (R104) -/

theorem tss_lin (s : State) (hp : s.paging = false) (base : Word) (off n : Nat) (h : off + n ≤ 104) :
    tssAddrs s base.toNat off n = linBytes (base + BitVec.ofNat 32 off) n := by
  rw [tssAddrs_flat hp, linBytes_eq]
  apply List.map_congr_left
  intro i hi
  simp only [BitVec.toNat_add, BitVec.toNat_ofNat]
  omega

theorem tssRead_flat {s : State} (h : s.paging = false) (base : Word) (off n : Nat) :
    tssRead s base off n = (do let bs ← readList s (tssBytes base off n); .ok (leNat bs)) := by
  rw [tssRead, translate_flat h, Res.ok_bind, tssAddrs_flat h]; rfl

/-- A field of a TSS whose bytes are listed can be read. -/
theorem tssRead_listed {s : State} (hp : s.paging = false) {base : Word} {off n : Nat}
    (h : ∀ a ∈ tssBytes base off n, s.mem.read a ≠ none) : ∃ v, tssRead s base off n = .ok v := by
  have key : ∀ pas : List Nat, (∀ a ∈ pas, a < 2 ^ 32 ∧ s.mem.read a ≠ none) → ∃ bs, readList s pas = .ok bs := by
    intro pas
    induction pas with
    | nil => exact fun _ => ⟨[], rfl⟩
    | cons pa pas ih =>
      intro h
      obtain ⟨bs, hbs⟩ := ih fun a ha => h a (List.mem_cons_of_mem _ ha)
      obtain ⟨hlt, hne⟩ := h pa (List.mem_cons_self ..)
      obtain ⟨b, hb⟩ := Option.ne_none_iff_exists'.1 hne
      exact ⟨b :: bs, by simp only [readList, readPhys, checkPhys, physWidth_flat hp, if_pos hlt, hb, hbs, Res.ok_bind]⟩
  obtain ⟨bs, hbs⟩ := key (tssBytes base off n) fun a ha => ⟨by
    simp only [tssBytes, List.mem_map] at ha
    obtain ⟨i, -, rfl⟩ := ha
    omega, h a ha⟩
  exact ⟨_, by rw [tssRead_flat hp, hbs]; rfl⟩

theorem tssBytes_nodup (base : Word) (off n : Nat) (h : n ≤ 0x100000000) : (tssBytes base off n).Nodup := by
  refine List.Nodup.map_on (fun i hi j hj hij => ?_) List.nodup_range
  simp only [List.mem_range] at hi hj
  omega

theorem tssBytes_lt {base : Word} {off n a : Nat} (h : a ∈ tssBytes base off n) : a < 2 ^ 32 := by
  simp only [tssBytes, List.mem_map] at h
  obtain ⟨i, -, rfl⟩ := h
  omega

theorem tssRead_congr {s t : State} (hs : s.paging = false) (ht : t.paging = false) {base : Word} {off n : Nat}
    (h : ∀ a ∈ tssBytes base off n, t.mem.read a = s.mem.read a) : tssRead t base off n = tssRead s base off n := by
  rw [tssRead_flat hs, tssRead_flat ht, readList_congr (by rw [physWidth_flat hs, physWidth_flat ht]) h]

theorem tssWrite_mem {s t : State} (h : s.paging = false) {base : Word} {off n v : Nat} (hw : tssWrite s base off n v = .ok t) :
    t = s.withMem (writeCells s.mem (tssBytes base off n) (leBytes n v)) := by
  rw [tssWrite_flat h, tssAddrs_flat h] at hw
  exact (Except.ok.inj hw).symm

theorem tssWrite_read {s t : State} (h : s.paging = false) {base : Word} {off n v : Nat} (hn : n ≤ 0x100000000)
    (hw : tssWrite s base off n v = .ok t) : tssRead t base off n = .ok (v % 256 ^ n) := by
  obtain rfl := tssWrite_mem h hw
  rw [tssRead_flat (by exact h), readList_eq (bs := leBytes n v), Res.ok_bind, leNat_leBytes]
  · intro pa hpa
    rw [physWidth_flat (by exact h)]
    exact tssBytes_lt hpa
  · exact writeCells_read_back _ _ _ (tssBytes_nodup _ _ _ hn) (by simp [tssBytes])

theorem tssBytes_disjoint {base : Word} {off n off' n' a : Nat} (h : off + n ≤ off' ∨ off' + n' ≤ off)
    (h1 : off + n ≤ 104) (h2 : off' + n' ≤ 104)
    (ha : a ∈ tssBytes base off n) : a ∉ tssBytes base off' n' := by
  simp only [tssBytes, List.mem_map, List.mem_range] at ha ⊢
  obtain ⟨i, hi, rfl⟩ := ha
  rintro ⟨j, hj, he⟩
  omega

theorem tssWriteAll_other {es : List (Nat × Nat × Nat)} {u v : State} {base : Word} (hu : u.paging = false) {a : Nat}
    (ha : ∀ e ∈ es, a ∉ tssBytes base e.1 e.2.1) (h : tssWriteAll u base es = .ok v) : v.mem.read a = u.mem.read a := by
  induction es generalizing u with
  | nil => cases h; rfl
  | cons e es ih =>
    obtain ⟨w, h1, h2⟩ := Res.bind_eq_ok.1 h
    obtain rfl := tssWrite_mem hu h1
    rw [ih (by exact hu) (fun e' he' => ha e' (List.mem_cons_of_mem _ he')) h2]
    exact writeCells_read_other _ _ _ _ (ha e (List.mem_cons_self ..))

/-- Two fields of a TSS that share no byte. -/
abbrev FieldsApart (e f : Nat × Nat × Nat) : Prop := e.1 + e.2.1 ≤ f.1 ∨ f.1 + f.2.1 ≤ e.1

theorem tssWriteAll_read {es : List (Nat × Nat × Nat)} {u v : State} {base : Word} (hu : u.paging = false)
    (hd : es.Pairwise FieldsApart) (hb : ∀ e ∈ es, e.1 + e.2.1 ≤ 104)
    (h : tssWriteAll u base es = .ok v) : ∀ e ∈ es, tssRead v base e.1 e.2.1 = .ok (e.2.2 % 256 ^ e.2.1) := by
  induction es generalizing u with
  | nil => intro e he; cases he
  | cons e es ih =>
    obtain ⟨w, h1, h2⟩ := Res.bind_eq_ok.1 h
    obtain ⟨hde, hd⟩ := List.pairwise_cons.1 hd
    have hw : w.paging = false := by obtain rfl := tssWrite_mem hu h1; exact hu
    have hv : v.paging = false := by obtain ⟨m, rfl, -⟩ := tssWriteAll_memOnly h2; exact hw
    intro f hf
    rcases List.mem_cons.1 hf with rfl | hf
    · rw [tssRead_congr hw hv, tssWrite_read hu _ h1]
      · have := hb f (List.mem_cons_self ..); omega
      · intro a ha
        refine tssWriteAll_other hw (fun g hg => ?_) h2
        exact tssBytes_disjoint (hde g hg) (hb f (List.mem_cons_self ..)) (hb g (List.mem_cons_of_mem _ hg)) ha
    · exact ih hw hd (fun g hg => hb g (List.mem_cons_of_mem _ hg)) h2 f hf

/-! ### The committed state (42_task_switch.md R211 to R223) -/

theorem commit_parts {init : Initiator} {nsel : Selector} {nd : Desc} {ret : Word} {s s1 : State}
    (hp : s.paging = false) (h : commitSwitch init nsel nd ret s = .ok s1) :
    ∃ m1 m2 m3 m4,
      applyIf (leavesOld init) (fun u => setBusy u s.tr.selector false) s = .ok (s.withMem m1) ∧
      tssWriteAll (s.withMem m1) s.tr.base (savedFields ret (savedEflags init s.eflags) s) = .ok (s.withMem m2) ∧
      applyIf (marksNew init) (fun u => setBusy u nsel true) (s.withMem m2) = .ok (s.withMem m3) ∧
      applyIf (nests init) (fun u => tssWrite u (descBase nd) 0 2 s.tr.selector.toNat) (s.withMem m3) = .ok (s.withMem m4) ∧
      s1 = (((s.withMem m4).withDraws (s.draws + 6)).withTr (taskReg nsel nd)).withCr0 (setTs s.cr0) := by
  obtain ⟨s1, h1, h⟩ := Res.bind_eq_ok.1 h
  obtain ⟨s2, h2, h⟩ := Res.bind_eq_ok.1 h
  obtain ⟨s3, h3, h⟩ := Res.bind_eq_ok.1 h
  obtain ⟨s4, h4, h⟩ := Res.bind_eq_ok.1 h
  obtain ⟨m1, rfl, w1⟩ := applyIf_memOnly h1 setBusy_memOnly
  obtain ⟨s2', h2a, h2b⟩ := Res.bind_eq_ok.1 h2
  obtain ⟨m2, rfl, w2⟩ := tssWriteAll_memOnly h2a
  cases h2b
  obtain ⟨m3, rfl, w3⟩ := applyIf_memOnly h3 setBusy_memOnly
  obtain ⟨m4, rfl, w4⟩ := applyIf_memOnly h4 tssWrite_memOnly
  refine ⟨m1, m2, m3, m4, h1, h2a, ?_, ?_, (Except.ok.inj h).symm⟩
  · cases hc : marksNew init with
    | false => rw [hc] at h3; 
               have := congrArg State.mem (Except.ok.inj h3)
               change m2 = m3 at this
               subst this; rfl
    | true =>
      rw [hc] at h3
      simp only [applyIf, if_true] at h3 ⊢
      unfold setBusy at h3 ⊢
      obtain ⟨t, ht, h3⟩ := Res.bind_eq_ok.1 h3
      have ht' : sysRead (s.withMem m2) (gdtAddr (s.withMem m2) nsel + 5) 1 = .ok t := by
        rw [← ht, sysRead, sysRead, memRead_flat (by exact hp), memRead_flat (by exact hp)]
        exact congrArg (· >>= fun bs => .ok (leNat bs)) (readList_congr rfl fun _ _ => rfl)
      rw [ht', Res.ok_bind]
      rw [sysWrite, memWrite_flat (by exact hp)] at h3 ⊢
      have := congrArg State.mem (Except.ok.inj h3)
      change _ = m3 at this
      rw [← this]; rfl
  · cases hc : nests init with
    | false => rw [hc] at h4; 
               have := congrArg State.mem (Except.ok.inj h4)
               change m3 = m4 at this
               subst this; rfl
    | true =>
      rw [hc] at h4
      simp only [applyIf, if_true] at h4 ⊢
      rw [tssWrite_flat (by exact hp)] at h4 ⊢
      have := congrArg State.mem (Except.ok.inj h4)
      change _ = m4 at this
      rw [← this]; rfl

theorem saved_range {ret img : Word} {s : State} : (savedFields ret img s).Pairwise FieldsApart ∧
    ∀ e ∈ savedFields ret img s, 32 ≤ e.1 ∧ e.1 + e.2.1 ≤ 96 := by
  constructor
  · simp [savedFields, FieldsApart]
  · intro e he
    simp only [savedFields, List.mem_cons, List.not_mem_nil, or_false] at he
    rcases he with rfl | rfl | rfl | rfl | rfl | rfl | rfl | rfl | rfl | rfl | rfl | rfl | rfl | rfl | rfl |
        rfl | rfl | rfl | rfl | rfl | rfl | rfl <;> simp

theorem sub_saved {base : Word} {off n a : Nat} (h1 : 32 ≤ off) (h2 : off + n ≤ 96) (h : a ∈ tssBytes base off n) : a ∈ tssBytes base 32 64 := by
  simp only [tssBytes, List.mem_map, List.mem_range] at h ⊢
  obtain ⟨i, hi, rfl⟩ := h
  exact ⟨off - 32 + i, by omega, by congr 1; omega⟩

/-- The memory after each stage of phase 2, read byte by byte. -/
theorem commit_bytes {init : Initiator} {nsel : Selector} {nd : Desc} {ret : Word} {s s1 : State}
    (hp : s.paging = false) (h : commitSwitch init nsel nd ret s = .ok s1) :
    ∃ m1 m2 m3 : Memory, (∀ a, (leavesOld init = true → a ≠ busyAddr s s.tr.selector) → m1.read a = s.mem.read a) ∧
      (leavesOld init = true → m1.read (busyAddr s s.tr.selector) = (s.mem.read (busyAddr s s.tr.selector)).map (· &&& 0xFD#8)) ∧
      tssWriteAll (s.withMem m1) s.tr.base (savedFields ret (savedEflags init s.eflags) s) = .ok (s.withMem m2) ∧
      (∀ a, a ∉ tssBytes s.tr.base 32 64 → m2.read a = m1.read a) ∧
      (∀ a, (marksNew init = true → a ≠ busyAddr s nsel) → m3.read a = m2.read a) ∧
      (marksNew init = true → m3.read (busyAddr s nsel) = (m2.read (busyAddr s nsel)).map (· ||| 2#8)) ∧
      (∀ a, (nests init = true → a ∉ tssBytes (descBase nd) 0 2) → s1.mem.read a = m3.read a) ∧
      (nests init = true → tssHalf s1 (descBase nd) 0 = .ok s.tr.selector) := by
  obtain ⟨m1, m2, m3, m4, h1, h2, h3, h4, rfl⟩ := commit_parts hp h
  refine ⟨m1, m2, m3, ?_, ?_, h2, ?_, ?_, ?_, ?_, ?_⟩
  · intro a ha
    cases hc : leavesOld init with
    | false =>
      rw [hc] at h1
      have := congrArg State.mem (Except.ok.inj h1); change s.mem = m1 at this; rw [this]
    | true =>
      rw [hc] at h1
      obtain ⟨x, -, he⟩ := setBusy_ok_flat hp h1
      have := congrArg State.mem he; change m1 = _ at this; rw [this]
      exact Memory.read_write_other _ _ _ _ (ha hc)
  · intro hc
    rw [hc] at h1
    obtain ⟨x, hx, he⟩ := setBusy_ok_flat hp h1
    have := congrArg State.mem he; change m1 = _ at this; rw [this, State.withMem_mem, Memory.read_write_self, hx]
    simp [busyByte]
  · intro a ha
    exact tssWriteAll_other (by exact hp) (fun e he hin => ha (sub_saved (saved_range.2 e he).1 (saved_range.2 e he).2 hin)) h2
  · intro a ha
    cases hc : marksNew init with
    | false =>
      rw [hc] at h3
      have := congrArg State.mem (Except.ok.inj h3); change m2 = m3 at this; rw [this]
    | true =>
      rw [hc] at h3
      obtain ⟨x, -, he⟩ := setBusy_ok_flat (by exact hp) h3
      have := congrArg State.mem he; change m3 = _ at this; rw [this]
      exact Memory.read_write_other _ _ _ _ (ha hc)
  · intro hc
    rw [hc] at h3
    obtain ⟨x, hx, he⟩ := setBusy_ok_flat (by exact hp) h3
    have := congrArg State.mem he; change m3 = _ at this
    change m2.read (busyAddr s nsel) = some x at hx
    rw [this, hx]
    show (m2.write (busyAddr s nsel) (busyByte x true)).read (busyAddr s nsel) = _
    rw [Memory.read_write_self]
    have : ∀ x : Byte, busyByte x true = x ||| 2#8 := by decide
    simp [this]
  · intro a ha
    cases hc : nests init with
    | false =>
      rw [hc] at h4
      have := congrArg State.mem (Except.ok.inj h4); change m3 = m4 at this; rw [this]; rfl
    | true =>
      rw [hc] at h4
      have := congrArg State.mem (tssWrite_mem (by exact hp) h4)
      change m4 = _ at this
      show m4.read a = _
      rw [this]
      exact writeCells_read_other _ _ _ _ (ha hc)
  · intro hc
    rw [hc] at h4
    have := tssWrite_read (by exact hp) (by omega) h4
    have e : tssRead ((((s.withMem m4).withDraws (s.draws + 6)).withTr (taskReg nsel nd)).withCr0 (setTs s.cr0)) (descBase nd) 0 2 = tssRead (s.withMem m4) (descBase nd) 0 2 := by
      refine tssRead_congr (s := s.withMem m4) hp ?_ ?_
      · exact (paging_setTs s.cr0).trans hp
      · intro a _; rfl
    rw [tssHalf, e, this, Res.ok_bind]
    congr 1
    apply BitVec.eq_of_toNat_eq
    have := s.tr.selector.isLt
    simp only [BitVec.toNat_ofNat]; omega

end Sys2Proof.Machine
end

