-- ==== Sys2Proof/Laws/Decode.lean ====
section
/-! SUPPORT. The laws of the decoder: bytes after an instruction do not matter, and the little-endian fields of an
encoding read back. -/

namespace Sys2Proof

theorem leNat_leBytes_four (v : BitVec 32) :
    BitVec.ofNat 32 (leNat (leBytes 4 v.toNat)) = v := by
  apply BitVec.eq_of_toNat_eq
  have := v.isLt
  simp only [leBytes, leNat, BitVec.toNat_ofNat]
  omega

theorem leNat_leBytes_two (v : BitVec 16) : BitVec.ofNat 16 (leNat (leBytes 2 v.toNat)) = v := by
  apply BitVec.eq_of_toNat_eq
  have := v.isLt
  simp only [leBytes, leNat, BitVec.toNat_ofNat]
  omega

theorem Reg.ofNum_num (r : Reg) : Reg.ofNum r.num = r := by cases r <;> rfl

/-! ### Bytes after the instruction -/

theorem decodeDisp_append {mod : Nat} {bs : List Byte} {d : Disp} (rest : List Byte)
    (h : decodeDisp mod bs = some d) : decodeDisp mod (bs ++ rest) = some d := by
  unfold decodeDisp at h
  split at h <;> first | exact h | simp at h

theorem decodeDisp32_append {bs : List Byte} {d : Word} (rest : List Byte)
    (h : decodeDisp32 bs = some d) : decodeDisp32 (bs ++ rest) = some d := by
  unfold decodeDisp32 at h
  split at h
  · exact h
  · simp at h

theorem decodeSib_append {mod : Nat} {sib : Byte} {bs : List Byte} {m : MemOp} (rest : List Byte)
    (h : decodeSib mod sib bs = some m) : decodeSib mod sib (bs ++ rest) = some m := by
  unfold decodeSib at h ⊢
  simp only at h ⊢
  split at h
  · next hc =>
    rw [if_pos hc]
    obtain ⟨d, hd, rfl⟩ := Option.map_eq_some_iff.1 h
    rw [decodeDisp32_append rest hd]
    rfl
  · next hc =>
    rw [if_neg hc]
    obtain ⟨d, hd, rfl⟩ := Option.map_eq_some_iff.1 h
    rw [decodeDisp_append rest hd]
    rfl

theorem decodeMem_append {mod rm : Nat} {bs : List Byte} {m : MemOp} (rest : List Byte)
    (h : decodeMem mod rm bs = some m) : decodeMem mod rm (bs ++ rest) = some m := by
  unfold decodeMem at h ⊢
  split at h
  · next hc =>
    rw [if_pos hc]
    cases bs with
    | nil => simp at h
    | cons b bs => exact decodeSib_append rest h
  · next hc =>
    rw [if_neg hc]
    split at h
    · next hc' =>
      rw [if_pos hc']
      obtain ⟨d, hd, rfl⟩ := Option.map_eq_some_iff.1 h
      rw [decodeDisp32_append rest hd]
      rfl
    · next hc' =>
      rw [if_neg hc']
      obtain ⟨d, hd, rfl⟩ := Option.map_eq_some_iff.1 h
      rw [decodeDisp_append rest hd]
      rfl

theorem decodeMemOnly_append {f : MemOp → Instr} {modrm : Nat} {bs : List Byte} (rest : List Byte)
    (h : decodeMemOnly f modrm bs ≠ .more) : decodeMemOnly f modrm (bs ++ rest) = decodeMemOnly f modrm bs := by
  unfold decodeMemOnly at h ⊢
  split
  · rfl
  · next hc =>
    rw [if_neg hc] at h
    cases hm : decodeMem (modrm / 64) (modrm % 8) bs with
    | none => simp [hm, Decoded.ofOption] at h
    | some m => rw [decodeMem_append rest hm]

theorem decodeRegMem_append {f : RegMem → Instr} {modrm : Nat} {bs : List Byte} (rest : List Byte)
    (h : decodeRegMem f modrm bs ≠ .more) : decodeRegMem f modrm (bs ++ rest) = decodeRegMem f modrm bs := by
  unfold decodeRegMem at h ⊢
  split
  · rfl
  · next hc =>
    rw [if_neg hc] at h
    cases hm : decodeMem (modrm / 64) (modrm % 8) bs with
    | none => simp [hm, Decoded.ofOption] at h
    | some m => rw [decodeMem_append rest hm]

theorem decodeFarPtr_append {f : Selector → Word → Instr} {bs : List Byte} (rest : List Byte)
    (h : decodeFarPtr f bs ≠ .more) : decodeFarPtr f (bs ++ rest) = decodeFarPtr f bs := by
  unfold decodeFarPtr at h
  split at h
  · rfl
  · exact absurd rfl h

theorem decodeFF_append {bs : List Byte} (rest : List Byte) (h : decodeFF bs ≠ .more) :
    decodeFF (bs ++ rest) = decodeFF bs := by
  cases bs with
  | nil => exact absurd rfl h
  | cons m bs =>
    simp only [List.cons_append, decodeFF] at h ⊢
    split at h
    · exact decodeMemOnly_append rest h
    · exact decodeMemOnly_append rest h
    · rfl

theorem decode0F_append {bs : List Byte} (rest : List Byte) (h : decode0F bs ≠ .more) :
    decode0F (bs ++ rest) = decode0F bs := by
  match bs, h with
  | [], h => exact absurd rfl h
  | [op], h =>
    by_cases h0 : op.toNat = 0
    · simp [decode0F, h0] at h
    · simp [decode0F, h0]
  | op :: m :: bs, h =>
    simp only [List.cons_append, decode0F] at h ⊢
    by_cases h0 : op.toNat = 0
    · simp only [h0, if_true] at h ⊢
      split at h
      · exact decodeRegMem_append rest h
      · exact decodeRegMem_append rest h
      · rfl
    · simp [h0]

theorem if_congr_of {c : Prop} [Decidable c] {a b a' b' : α} (ht : c → a = a') (he : ¬c → b = b') :
    (if c then a else b) = if c then a' else b' := by
  by_cases h : c <;> simp [h, ht, he]

/-- Once the decoder has an answer, further bytes do not change it (30_encoding.md R136). -/
theorem decode_append {bs : List Byte} (rest : List Byte) (h : decode bs ≠ .more) :
    decode (bs ++ rest) = decode bs := by
  cases bs with
  | nil => exact absurd rfl h
  | cons b bs =>
    simp only [List.cons_append, decode] at h ⊢
    refine if_congr_of (fun h1 => ?_) fun h1 => ?_
    · exact decodeFarPtr_append rest (by simpa [h1] using h)
    rw [if_neg h1] at h
    refine if_congr_of (fun h2 => ?_) fun h2 => ?_
    · exact decodeFarPtr_append rest (by simpa [h2] using h)
    rw [if_neg h2] at h
    refine if_congr_of (fun _ => rfl) fun h3 => ?_
    rw [if_neg h3] at h
    refine if_congr_of (fun h4 => ?_) fun h4 => ?_
    · cases bs with
      | nil => simp [h4, decodeInt] at h
      | cons n bs => rfl
    rw [if_neg h4] at h
    refine if_congr_of (fun h5 => ?_) fun h5 => ?_
    · exact decodeFF_append rest (by simpa [h5] using h)
    rw [if_neg h5] at h
    refine if_congr_of (fun h6 => ?_) fun _ => rfl
    exact decode0F_append rest (by simpa [h6] using h)

/-- A part of bytes that the decoder asks to go on with was asked for more all along. -/
theorem decode_take_more {bs : List Byte} (n : Nat) (h : decode bs = .more) : decode (bs.take n) = .more := by
  by_contra hn
  have := decode_append (bs.drop n) hn
  rw [List.take_append_drop, h] at this
  exact hn this.symm

end Sys2Proof
end

