-- ==== Sys2Proof/Laws/Ops.lean ====
section
/-! SUPPORT. What each shared operation of events and each instruction can do: when it answers a next state, what
that state keeps. -/

namespace Sys2Proof.Machine

open Sys2Proof.Safety

/-! ### The push of an error code (41_task_dispatch.md R185) -/

/-- A change of the general registers, of memory and of the counter of free values alone. -/
def StackOnly (s t : State) : Prop :=
  ∃ g m n, t = ((s.withMem m).withDraws n).withGprs g ∧ (s.mem.wf → m.wf)

theorem withStackExt_ok {ext : Bool} {x : Res α} {a : α} (h : withStackExt ext x = .ok a) : x = .ok a := by
  cases x with
  | ok b => exact h
  | error e => cases e <;> simp [withStackExt] at h

theorem push32_ok {v : Word} {ext : Bool} {s t : State} (h : push32 v ext s = .ok t) : StackOnly s t := by
  obtain ⟨s1, h1, h2⟩ := Res.bind_eq_ok.1 h
  obtain ⟨m, rfl, hm⟩ := segWrite_memOnly (withStackExt_ok h1)
  cases h2
  exact ⟨_, m, s.draws, rfl, hm⟩

theorem StackOnly.trans {s t u : State} : StackOnly s t → StackOnly t u → StackOnly s u := by
  rintro ⟨g, m, n, rfl, hm⟩ ⟨g', m', n', rfl, hm'⟩
  exact ⟨g', m', n', rfl, fun hw => hm' (hm hw)⟩

theorem pushErrorCode_ok {c : ErrorCode} {ext : Bool} {s t : State} (h : pushErrorCode c ext s = .ok t) :
    StackOnly s t := by
  cases c with
  | none => cases h; exact ⟨s.gprs, s.mem, s.draws, rfl, id⟩
  | value v => exact push32_ok h
  | pageFault =>
    obtain ⟨g, m, n, rfl, hm⟩ := push32_ok h
    exact ⟨g, m, n, rfl, hm⟩

theorem SwitchKept.stack {s t u : State} (h : SwitchKept s t) (h' : StackOnly t u) : SwitchKept s u := by
  obtain ⟨g, m, n, rfl, hm⟩ := h'
  exact
    { gdtr := h.gdtr, idtr := h.idtr, cr0 := h.cr0, cr3 := h.cr3
      eflags := h.eflags, tr := h.tr, mem := fun hw => hm (h.mem hw) }

/-! ### Gates and events -/

/-- The target of a gate that names a 32-bit TSS (R179). -/
theorem gateTarget_names {s : State} {g nd : Desc} {ext : Bool} (h : GateNames s g nd) :
    gateTarget s (gateSel g) ext = .ok nd := by
  have h16 : isTss16 nd = false := by
    have := h.tss
    revert this
    simp only [isTss32, isTss16]
    cases descS nd <;> cases h9 : descType nd == 9#4 <;> simp_all
  simp [gateTarget, h.ti, h.inTable, h.desc, h.tss, h16]

/-- Through a gate that names a TSS, the switch is made with the gate's own failing checks in front. -/
theorem switchViaGate_names {init : Initiator} {s : State} {g nd : Desc} {ret : Word} {ext : Bool}
    {front : List Exc} (h : GateNames s g nd) :
    switchViaGate init g ret ext front s = taskSwitch init (gateSel g) nd ret ext front s := by
  simp [switchViaGate, gateTarget_names h]

/-- A task switch that answers has no failing check of its caller. -/
theorem taskSwitch_front {init : Initiator} {nsel : Selector} {nd : Desc} {ret : Word} {ext : Bool} {front : List Exc}
    {s : State} {sw : Switched} (h : taskSwitch init nsel nd ret ext front s = .ok sw) :
    taskSwitch init nsel nd ret ext [] s = .ok sw := by
  obtain ⟨_, hr, -⟩ := Res.bind_eq_ok.1 h
  rwa [(List.append_eq_nil_iff.1 (requireNone_ok.1 hr)).1] at h

/-- An operation has answered by a task switch, and perhaps a push after it; what is pending, the switch left. -/
def BySwitch (s : State) (sw : Switched) : Prop :=
  ∃ init nsel nd ret ext sw1, taskSwitch init nsel nd ret ext [] s = .ok sw1 ∧ StackOnly sw1.state sw.state ∧
    (sw.pending ≠ none → sw = sw1)

theorem BySwitch.of_switch {init : Initiator} {nsel : Selector} {nd : Desc} {ret : Word} {ext : Bool}
    {front : List Exc} {s : State} {sw : Switched} (h : taskSwitch init nsel nd ret ext front s = .ok sw) :
    BySwitch s sw :=
  ⟨init, nsel, nd, ret, ext, sw, taskSwitch_front h, ⟨sw.state.gprs, sw.state.mem, sw.state.draws, rfl, id⟩,
    fun _ => rfl⟩

theorem BySwitch.kept {s : State} {sw : Switched} (h : BySwitch s sw) : SwitchKept s sw.state := by
  obtain ⟨_, _, _, _, _, _, h1, h2, -⟩ := h
  exact (taskSwitch_kept h1).stack h2

/-- With nothing pending, the task is entered. -/
theorem BySwitch.enters {s : State} {sw : Switched} (h : BySwitch s sw) : Enters s sw.state := by
  obtain ⟨init, nsel, nd, ret, ext, sw1, h1, ⟨g, m, n, h2, -⟩, -⟩ := h
  exact .last init nsel nd ret ext sw1 h1 (by rw [h2]; rfl)

theorem switchViaGate_by {init : Initiator} {g : Desc} {ret : Word} {ext : Bool} {front : List Exc} {s : State}
    {sw : Switched} (h : switchViaGate init g ret ext front s = .ok sw) : BySwitch s sw := by
  unfold switchViaGate at h
  split at h
  · exact .of_switch h
  all_goals
    obtain ⟨_, -, h⟩ := Res.bind_eq_ok.1 h
    simp at h

theorem deliverEvent_by {v : Byte} {cls : EventClass} {code : ErrorCode} {ret : Word} {s : State} {sw : Switched}
    (h : deliverEvent v cls code ret s = .ok sw) : BySwitch s sw := by
  obtain ⟨_, -, h⟩ := Res.bind_eq_ok.1 h
  obtain ⟨g, -, h⟩ := Res.bind_eq_ok.1 h
  split at h
  · simp at h
  obtain ⟨_, -, h⟩ := Res.bind_eq_ok.1 h
  obtain ⟨sw1, h1, h⟩ := Res.bind_eq_ok.1 h
  have b1 := switchViaGate_by h1
  split at h
  · cases h; exact b1
  · next hp =>
    obtain ⟨t, h2, h⟩ := Res.bind_eq_ok.1 h
    cases h
    obtain ⟨init, nsel, nd, ret, ext, sw0, k1, k2, -⟩ := b1
    exact ⟨init, nsel, nd, ret, ext, sw0, k1, k2.trans (pushErrorCode_ok h2), fun hx => absurd rfl hx⟩

/-- Taking an exception ends in a next state only by a task switch (60_exceptions.md R256). -/
theorem takeException_next {e : Exc} {s t : State} (h : takeException e s = .next t) : Enters s t ∧ SwitchKept s t := by
  unfold takeException at h
  split at h
  · next sw hd =>
    split at h
    · cases h; exact ⟨(deliverEvent_by hd).enters, (deliverEvent_by hd).kept⟩
    · cases h
  all_goals cases h

/-- How an instruction or event ends in a next state: with its own effect, or through an exception taken from the
state it began in or from the new task's. -/
theorem finish_next {s t : State} {r : Res Switched} (h : finish s r = .next t) :
    (∃ sw, r = .ok sw ∧ sw.pending = none ∧ t = sw.state) ∨
      (∃ sw e, r = .ok sw ∧ sw.pending = some e ∧ takeException e sw.state = .next t) ∨
      ∃ e, r = .error (.raise e) ∧ takeException e s = .next t := by
  unfold finish at h
  split at h
  · next sw =>
    split at h
    · next hp => cases h; exact .inl ⟨sw, rfl, hp, rfl⟩
    · next e hp => exact .inr (.inl ⟨sw, e, rfl, hp, h⟩)
  · next e => exact .inr (.inr ⟨e, rfl, h⟩)
  all_goals cases h

/-- An operation that answers only by a task switch ends so, or through an exception. -/
theorem finish_by {s t : State} {r : Res Switched} (hr : ∀ sw, r = .ok sw → BySwitch s sw)
    (h : finish s r = .next t) : Enters s t ∧ SwitchKept s t := by
  rcases finish_next h with ⟨sw, hs, -, rfl⟩ | ⟨sw, e, hs, hp, he⟩ | ⟨e, -, he⟩
  · exact ⟨(hr sw hs).enters, (hr sw hs).kept⟩
  · refine ⟨?_, (hr sw hs).kept.trans (takeException_next he).2⟩
    obtain ⟨init, nsel, nd, ret, ext, sw1, h1, -, h3⟩ := hr sw hs
    obtain rfl := h3 (by simp [hp])
    exact .more init nsel nd ret ext sw h1 (takeException_next he).1
  · exact takeException_next he

theorem takeInterrupt_next {v : Byte} {s t : State} (h : takeInterrupt v s = .next t) : Enters s t ∧ SwitchKept s t :=
  finish_by (fun _ => deliverEvent_by) h

/-! ### The instructions -/

theorem requireProtected_ok {s : State} {u : Unit} : requireProtected s = .ok u ↔ s.inProtectedMode = true := by
  cases h : s.inProtectedMode <;> simp [requireProtected, h]

theorem farTaskTransfer_by {init : Initiator} {sel : Selector} {ret : Word} {s : State} {sw : Switched}
    (h : farTaskTransfer init sel ret s = .ok sw) : BySwitch s sw := by
  obtain ⟨_, -, h⟩ := Res.bind_eq_ok.1 h
  obtain ⟨found, -, h⟩ := Res.bind_eq_ok.1 h
  cases found with
  | none => simp at h
  | some d =>
    simp only at h
    repeat' split at h
    all_goals first | exact BySwitch.of_switch h | exact switchViaGate_by h | simp at h

theorem farPtrOp_by {init : Initiator} {sel : Selector} {ret : Word} {s : State} {sw : Switched}
    (h : farPtrOp init sel ret s = .ok sw) : BySwitch s sw := by
  obtain ⟨_, -, h⟩ := Res.bind_eq_ok.1 h
  exact farTaskTransfer_by h

theorem farMemOp_by {init : Initiator} {m : MemOp} {ret : Word} {s : State} {sw : Switched}
    (h : farMemOp init m ret s = .ok sw) : BySwitch s sw := by
  obtain ⟨_, -, h⟩ := Res.bind_eq_ok.1 h
  obtain ⟨_, -, h⟩ := Res.bind_eq_ok.1 h
  exact farTaskTransfer_by h

theorem returnFromTask_by {ret : Word} {s : State} {sw : Switched} (h : returnFromTask ret s = .ok sw) :
    BySwitch s sw := by
  obtain ⟨_, -, h⟩ := Res.bind_eq_ok.1 h
  obtain ⟨_, -, h⟩ := Res.bind_eq_ok.1 h
  obtain ⟨_, -, h⟩ := Res.bind_eq_ok.1 h
  obtain ⟨_, -, h⟩ := Res.bind_eq_ok.1 h
  split at h
  · simp at h
  · obtain ⟨_, -, h⟩ := Res.bind_eq_ok.1 h
    exact BySwitch.of_switch h

theorem iretOp_by {s : State} {sw : Switched} (h : iretOp s = .ok sw) : BySwitch s sw := by
  obtain ⟨_, -, h⟩ := Res.bind_eq_ok.1 h
  split at h
  · exact returnFromTask_by h
  · simp at h

theorem intOp_by {n : Byte} {s : State} {sw : Switched} (h : intOp n s = .ok sw) : BySwitch s sw := by
  obtain ⟨_, -, h⟩ := Res.bind_eq_ok.1 h
  exact deliverEvent_by h

/-- What `LTR` does: a byte of memory, TR and EIP (40_task_register.md R150). -/
theorem ltrOp_ok {rm : RegMem} {s : State} {sw : Switched} (h : ltrOp rm s = .ok sw) :
    ∃ sel d m, readRegMem16 s rm = .ok sel ∧ ltrDesc s sel = .ok d ∧ (s.mem.wf → m.wf) ∧
      sw = done (((s.withMem m).withTr (taskReg sel d)).withEip (s.nextEip (.ltr rm))) := by
  obtain ⟨_, -, h⟩ := Res.bind_eq_ok.1 h
  obtain ⟨_, -, h⟩ := Res.bind_eq_ok.1 h
  obtain ⟨sel, hsel, h⟩ := Res.bind_eq_ok.1 h
  obtain ⟨d, hd, h⟩ := Res.bind_eq_ok.1 h
  obtain ⟨t, ht, h⟩ := Res.bind_eq_ok.1 h
  obtain ⟨m, rfl, hm⟩ := setBusy_memOnly ht
  exact ⟨sel, d, m, hsel, hd, hm, (Except.ok.inj h).symm⟩

/-- What `STR` does: a general register or memory, and EIP (R151). -/
theorem strOp_ok {rm : RegMem} {s : State} {sw : Switched} (h : strOp rm s = .ok sw) :
    ∃ g m, (s.mem.wf → m.wf) ∧ sw = done (((s.withMem m).withGprs g).withEip (s.nextEip (.str rm))) := by
  obtain ⟨_, -, h⟩ := Res.bind_eq_ok.1 h
  obtain ⟨t, ht, h⟩ := Res.bind_eq_ok.1 h
  have hsw := (Except.ok.inj h).symm
  cases rm with
  | reg r =>
    cases ht
    exact ⟨_, s.mem, id, hsw⟩
  | mem m =>
    obtain ⟨m', rfl, hm⟩ := segWrite_memOnly ht
    exact ⟨s.gprs, m', hm, hsw⟩

/-- Every way an instruction ends in a next state: a task switch, or the own effect of LTR or STR. -/
theorem exec_next {i : Instr} {s t : State} (h : exec i s = .next t) :
    (Enters s t ∧ SwitchKept s t) ∨
      (∃ rm, i = .ltr rm ∧ ltrOp rm s = .ok (done t)) ∨
      (∃ rm, i = .str rm ∧ strOp rm s = .ok (done t)) := by
  cases i with
  | jmpPtr sel off => exact .inl (finish_by (fun _ => farPtrOp_by) h)
  | jmpMem m => exact .inl (finish_by (fun _ => farMemOp_by) h)
  | callPtr sel off => exact .inl (finish_by (fun _ => farPtrOp_by) h)
  | callMem m => exact .inl (finish_by (fun _ => farMemOp_by) h)
  | iret => exact .inl (finish_by (fun _ => iretOp_by) h)
  | intN n => exact .inl (finish_by (fun _ => intOp_by) h)
  | ltr rm =>
    rcases finish_next h with ⟨sw, hs, -, rfl⟩ | ⟨sw, e, hs, hp, -⟩ | ⟨e, -, he⟩
    · obtain ⟨sel, d, m, -, -, -, rfl⟩ := ltrOp_ok hs
      exact .inr (.inl ⟨rm, rfl, hs⟩)
    · obtain ⟨sel, d, m, -, -, -, rfl⟩ := ltrOp_ok hs
      cases hp
    · exact .inl (takeException_next he)
  | str rm =>
    rcases finish_next h with ⟨sw, hs, -, rfl⟩ | ⟨sw, e, hs, hp, -⟩ | ⟨e, -, he⟩
    · obtain ⟨g, m, -, rfl⟩ := strOp_ok hs
      exact .inr (.inr ⟨rm, rfl, hs⟩)
    · obtain ⟨g, m, -, rfl⟩ := strOp_ok hs
      cases hp
    · exact .inl (takeException_next he)

/-- A step that ends in a next state, whatever the environment offers, runs an instruction or switches tasks to a
handler. -/
theorem stepWith_next {offer : Option Byte} {s t : State} (h : stepWith offer s = .next t) :
    (Enters s t ∧ SwitchKept s t) ∨ ∃ i, exec i s = .next t := by
  unfold stepWith nextAction at h
  by_cases hm : s.inProtectedMode = true
  · simp only [hm, if_true] at h
    cases hd : dueInterrupt offer s with
    | some v => rw [hd] at h; exact .inl (takeInterrupt_next h)
    | none =>
      rw [hd] at h
      simp only [fetchAction] at h
      split at h
      · next i s' ha =>
        split at ha
        · cases ha
        · split at ha
          all_goals first | (cases ha; exact .inr ⟨_, h⟩) | cases ha
      · next r ha =>
        subst h
        split at ha
        · cases ha
        · split at ha
          all_goals first | (exact .inl (takeException_next (Action.stop.inj ha))) | cases ha
  · simp [hm] at h

end Sys2Proof.Machine
end

