-- ==== Sys2Proof/Laws/Dispatch.lean ====
section
/-! SUPPORT. From an instruction or an event to the task switch it makes (41_task_dispatch.md), and what a switch that
answers a state has done. -/

namespace Sys2Proof.Machine

open Sys2Proof.Safety

/-! ### The task switch -/

theorem fails_iff {init : Initiator} {nsel : Selector} {nd : Desc} {ext : Bool} {s : State} {e : Exc} :
    e ∈ switchFailures init nsel nd ext s ↔ SwitchFails init nsel nd ext s e := by
  have hc : ∀ (c : Bool) (x : Exc), e ∈ check c x ↔ c = false ∧ e = x := by
    intro c x; cases c <;> simp [check]
  constructor
  · intro h
    simp only [switchFailures, List.mem_append, hc] at h
    rcases h with ((⟨h, rfl⟩ | ⟨h, rfl⟩) | h) | ⟨h, rfl⟩
    · exact .notPresent h
    · exact .limit (by simpa using h)
    · cases init <;> simp only [busyCheck, hc] at h <;> obtain ⟨h, rfl⟩ := h
      · exact .busy (by simp) (by simpa using h)
      · exact .busy (by simp) (by simpa using h)
      · exact .busy (by simp) (by simpa using h)
      · exact .notBusy rfl h
    · exact .notPaged h
  · intro h
    simp only [switchFailures, List.mem_append, hc]
    cases h with
    | notPresent h => exact .inl (.inl (.inl ⟨h, rfl⟩))
    | limit h => exact .inl (.inl (.inr ⟨by simpa using h, rfl⟩))
    | busy hi h =>
      refine .inl (.inr ?_)
      cases init <;> first | exact absurd rfl hi | simp [busyCheck, check, h]
    | notBusy hi h =>
      subst hi
      exact .inl (.inr (by simp [busyCheck, check, h]))
    | notPaged h => exact .inr ⟨h, rfl⟩

theorem switch_ok {init : Initiator} {nsel : Selector} {nd : Desc} {ret : Word} {ext : Bool} {s : State} {sw : Switched}
    (h : taskSwitch init nsel nd ret ext [] s = .ok sw) :
    ∃ s1 img, commitSwitch init nsel nd ret s = .ok s1 ∧ readTask s1 (descBase nd) = .ok img ∧
      eflagsVm (incomingEflags init img.eflags) = false ∧ HiddenOnly (loadTask init img s1) sw.state ∧ 
      ∃ m, s1 = (((s.withMem m).withDraws (s.draws + 6)).withTr (taskReg nsel nd)).withCr0 (setTs s.cr0) := by
  obtain ⟨_, -, h⟩ := Res.bind_eq_ok.1 h
  obtain ⟨s1, h1, h2⟩ := Res.bind_eq_ok.1 h
  obtain ⟨img, h3, h4, h5⟩ := startTask_ok h2
  obtain ⟨m, hm, -⟩ := commitSwitch_ok h1
  refine ⟨s1, img, h1, ?_, h4, h5, m, hm⟩
  rw [hm] at h3 ⊢; exact h3

/-- Step 12 reads each field at its offset (20_memory.md R96). -/
theorem readTask_fields {s : State} {nb : Word} {img : TaskImage} (h : readTask s nb = .ok img) :
    TaskFields s nb img := by
  obtain ⟨_, ldt, h⟩ := Res.bind_eq_ok.1 h
  obtain ⟨_, cr3, h⟩ := Res.bind_eq_ok.1 h
  obtain ⟨_, eflags, h⟩ := Res.bind_eq_ok.1 h
  obtain ⟨_, eip, h⟩ := Res.bind_eq_ok.1 h
  obtain ⟨_, eax, h⟩ := Res.bind_eq_ok.1 h
  obtain ⟨_, ecx, h⟩ := Res.bind_eq_ok.1 h
  obtain ⟨_, edx, h⟩ := Res.bind_eq_ok.1 h
  obtain ⟨_, ebx, h⟩ := Res.bind_eq_ok.1 h
  obtain ⟨_, esp, h⟩ := Res.bind_eq_ok.1 h
  obtain ⟨_, ebp, h⟩ := Res.bind_eq_ok.1 h
  obtain ⟨_, esi, h⟩ := Res.bind_eq_ok.1 h
  obtain ⟨_, edi, h⟩ := Res.bind_eq_ok.1 h
  obtain ⟨_, es, h⟩ := Res.bind_eq_ok.1 h
  obtain ⟨_, cs, h⟩ := Res.bind_eq_ok.1 h
  obtain ⟨_, ss, h⟩ := Res.bind_eq_ok.1 h
  obtain ⟨_, ds, h⟩ := Res.bind_eq_ok.1 h
  obtain ⟨_, fs, h⟩ := Res.bind_eq_ok.1 h
  obtain ⟨_, gs, h⟩ := Res.bind_eq_ok.1 h
  obtain ⟨t, trap, h⟩ := Res.bind_eq_ok.1 h
  cases h
  refine
    { eip, eflags, eax, ecx, edx, ebx, esp, ebp, esi, edi, es, cs, ss, ds, fs, gs, ldt
      trap := ⟨t, trap, rfl⟩, cr3 := ?_ }
  unfold tssCr3 at cr3
  cases hp : s.paging <;> rw [hp] at cr3
  · exact (Except.ok.inj cr3).symm
  · exact cr3

/-- The base of a descriptor, bit for bit. -/
theorem descBase_bits (d : Desc) : descBase d = baseBits d := by
  unfold descBase baseBits
  exact BitVec.append_assoc ..

/-- Its effective limit from its bits (R78). -/
theorem descLimit_bits (d : Desc) : (descLimit d).toNat = limitBits d := by
  have hr : (descRawLimit d).toNat = d.toNat % 0x10000 + 0x10000 * (d.toNat / 2 ^ 48 % 16) := by
    unfold descRawLimit
    rw [BitVec.toNat_append, ← Nat.shiftLeft_add_eq_or_of_lt (BitVec.isLt _), Nat.shiftLeft_eq]
    simp only [BitVec.extractLsb'_toNat, Nat.shiftRight_eq_div_pow]
    omega
  have hlt := (descRawLimit d).isLt
  unfold limitBits
  simp only [← hr]
  show (if d.getLsbD 55 then _ else _ : Word).toNat = _
  cases d.getLsbD 55
  · simp only [Bool.false_eq_true, if_false, BitVec.toNat_setWidth]
    omega
  · simp only [if_true, BitVec.toNat_or, BitVec.toNat_shiftLeft, BitVec.toNat_setWidth]
    have e : (descRawLimit d).toNat % 2 ^ 32 = (descRawLimit d).toNat := by omega
    have e2 : ((descRawLimit d).toNat <<< 12) % 2 ^ 32 = (descRawLimit d).toNat <<< 12 := by
      rw [Nat.shiftLeft_eq]; omega
    rw [e, e2, ← Nat.shiftLeft_add_eq_or_of_lt (by decide), Nat.shiftLeft_eq]
    rfl

/-- What a load of a segment register takes from its descriptor (10_state.md R30). -/
theorem hiddenPart_load (r : SegReg) (d : Desc) : HiddenPart d (r.load d) where
  base := descBase_bits d
  limit := descLimit_bits d
  type := rfl
  s := rfl
  dpl := rfl
  p := rfl
  db := rfl
  g := rfl
  valid := rfl

theorem hiddenOrNull_segOf (r : SegReg) (d : Option Desc) : HiddenOrNull (segOf r d) d := by
  cases d with
  | none => rfl
  | some d => exact hiddenPart_load r d

theorem ldtPart_ldtrOf (r : LdtReg) (d : Option Desc) : LdtPart (ldtrOf r d) d := by
  cases d with
  | none => rfl
  | some d => exact ⟨descBase_bits d, descLimit_bits d, rfl, rfl, rfl, rfl, rfl⟩

theorem switch_done {init : Initiator} {nsel : Selector} {nd : Desc} {ret : Word} {ext : Bool} {s s1 : State} {img : TaskImage} {segs : NewSegs}
    (hc : Completes init nsel nd ret s s1 img segs) :
    taskSwitch init nsel nd ret ext [] s = .ok (done (entered init img segs s1)) := by
  rw [taskSwitch_entered hc.checks hc.commits hc.loads, hc.noTrap]; rfl

theorem switch_front {init : Initiator} {nsel : Selector} {nd : Desc} {ret : Word} {ext : Bool} {s : State} {e : Exc} {front : List Exc}
   (hc : ChecksPass init nsel nd s) (hf : ∀ x ∈ front, x = e) (hne : front ≠ []) :
   taskSwitch init nsel nd ret ext front s = raise e := by
  have hs := switchFailures_eq_nil (ext := ext).2 hc
  rw [taskSwitch, hs, List.append_nil]
  obtain ⟨x, hx, hr⟩ := requireNone_error (init := init) hne
  rw [hr, hf x hx]; rfl

theorem switch_to_start {init : Initiator} {nsel : Selector} {nd : Desc} {ret : Word} {ext : Bool} {s s1 : State} (hc : ChecksPass init nsel nd s)
    (h1 : commitSwitch init nsel nd ret s = .ok s1) {img : TaskImage} (h2 : readTask s1 (descBase nd) = .ok img) (hv : img.eflags.getLsbD 17 = false) :
    taskSwitch init nsel nd ret ext [] s = (do
      let q ← qualifyAll (loadTask init img s1) ext
      finishStart init ext img.trap q) := by
  rw [taskSwitch, List.nil_append, switchFailures_eq_nil.2 hc, requireNone_nil, Res.ok_bind, h1, Res.ok_bind]
  obtain ⟨m, hm, -⟩ := commitSwitch_ok h1
  have hb : s1.tr.base = descBase nd := by rw [hm]; rfl
  unfold startTask
  rw [hb, h2]
  have : eflagsVm (incomingEflags init img.eflags) = false := by rw [eflagsVm_incoming]; exact hv
  simp [inStep12, this]

/-! ### The dispatch -/

theorem tss32_facts {d : Desc} (h : isTss32 d = true) : descS d = false ∧ isTss16 d = false ∧ isCallGate d = false ∧ isTaskGate d = false := by
  simp only [isTss32, Bool.and_eq_true, Bool.not_eq_true', Bool.or_eq_true, beq_iff_eq] at h
  obtain ⟨h1, h2⟩ := h
  rcases h2 with h2 | h2 <;> simp [isTss16, isCallGate, isTaskGate, h1, h2]

theorem gate_facts {d : Desc} (h : isTaskGate d = true) : descS d = false ∧ isTss16 d = false ∧ isCallGate d = false ∧ isTss32 d = false ∧ isIntGate d = false := by
  simp only [isTaskGate, Bool.and_eq_true, Bool.not_eq_true', beq_iff_eq] at h
  obtain ⟨h1, h2⟩ := h
  simp [isTss16, isCallGate, isTss32, isIntGate, h1, h2]

theorem far_exec {s : State} {i : Instr} {init : Initiator} {sel : Selector} (hm : s.inProtectedMode = true) (h : FarSelector s i init sel) :
    exec i s = finish s (farTaskTransfer init sel (s.eip + BitVec.ofNat 32 i.length) s) := by
  have hr : requireProtected s = .ok () := by simp [requireProtected, hm]
  cases h with
  | jmpPtr off => show finish s (farPtrOp _ _ _ _) = _; rw [farPtrOp, hr]; rfl
  | jmpMem m _ h => show finish s (farMemOp _ _ _ _) = _; rw [farMemOp, hr, Res.ok_bind, h]; rfl
  | callPtr off => show finish s (farPtrOp _ _ _ _) = _; rw [farPtrOp, hr]; rfl
  | callMem m _ h => show finish s (farMemOp _ _ _ _) = _; rw [farMemOp, hr, Res.ok_bind, h]; rfl

theorem far_tss {init : Initiator} {sel : Selector} {ret : Word} {s : State} {d : Desc} (h1 : selNull sel = false) (h2 : readDesc s sel = .ok (some d))
   (h3 : isTss32 d = true) : farTaskTransfer init sel ret s =
     taskSwitch init sel d ret false (check (!selTi sel) (excCode .gp (selCode sel false)) ++ check (farPrivilege s sel d) (excCode .gp (selCode sel false))) s := by
  obtain ⟨f1, f2, f3, f4⟩ := tss32_facts h3
  simp [farTaskTransfer, h1, h2, h3, f1, f2, f3]

theorem far_gate {init : Initiator} {sel : Selector} {ret : Word} {s : State} {d : Desc} (h1 : selNull sel = false) (h2 : readDesc s sel = .ok (some d))
   (h3 : isTaskGate d = true) : farTaskTransfer init sel ret s =
     switchViaGate init d ret false (check (farPrivilege s sel d) (excCode .gp (selCode sel false)) ++ check (descP d) (excCode .np (selCode sel false))) s := by
  obtain ⟨f1, f2, f3, f4, f5⟩ := gate_facts h3
  simp [farTaskTransfer, h1, h2, h3, f1, f2, f3, f4]

theorem far_direct {init : Initiator} {sel : Selector} {ret : Word} {s : State} {d : Desc} (h : DirectTarget s sel d) :
    farTaskTransfer init sel ret s = taskSwitch init sel d ret false [] s := by
  rw [far_tss h.notNull h.desc h.tss]
  simp [check, h.ti, farPrivilege, h.cpl, h.rpl]

theorem far_gated {init : Initiator} {sel : Selector} {ret : Word} {s : State} {g d : Desc} (h : GatedTarget s sel g d) :
    farTaskTransfer init sel ret s = taskSwitch init (gateSel g) d ret false [] s := by
  rw [far_gate h.notNull h.desc h.gate, switchViaGate_names h.names]
  simp [check, h.present, farPrivilege, h.cpl, h.rpl]

theorem deliver_gate {s : State} {v : Byte} {cls : EventClass} {g nd : Desc} (h1 : inIdt s v = true) (h2 : readDescAt s (idtAddr s v) = .ok g)
   (h3 : isTaskGate g = true) (h4 : GateNames s g nd)
    (code : ErrorCode) (ret : Word) :
    deliverEvent v cls code ret s = (do
      let sw ← taskSwitch .int (gateSel g) nd ret cls.ext (idtGateFailures v cls g s) s
      match sw.pending with
      | some _ => .ok sw
      | none => do
        let s' ← pushErrorCode code cls.ext sw.state
        .ok { state := s', pending := none }) := by
  obtain ⟨f1, f2, f3, f4, f5⟩ := gate_facts h3
  unfold deliverEvent
  simp only [h1, h2, f5, h3, require_true, Res.ok_bind, Bool.false_eq_true, if_false, switchViaGate_names h4] <;>
    rfl

theorem idt_front {s : State} {v : Byte} {cls : EventClass} {g nd : Desc} (h : IdtTarget s v cls g nd) : idtGateFailures v cls g s = [] := by
  have : (!cls.checksDpl || decide (s.cpl ≤ descDpl g)) = true := by
    cases hd : cls.checksDpl
    · rfl
    · simpa using h.dpl hd
  simp [idtGateFailures, check, this, h.present]

theorem deliver_done {s s1 : State} {v : Byte} {cls : EventClass} {g nd : Desc} {img : TaskImage} {segs : NewSegs} {ret : Word}
    (h : IdtTarget s v cls g nd) (hc : Completes .int (gateSel g) nd ret s s1 img segs) (code : ErrorCode) :
    deliverEvent v cls code ret s = (do
      let s' ← pushErrorCode code cls.ext (entered .int img segs s1)
      .ok (done s')) := by
  rw [deliver_gate h.inTable h.desc h.gate h.names, idt_front h, switch_done hc]; rfl

theorem far_ne {s : State} {i : Instr} {init : Initiator} {sel : Selector} (h : FarSelector s i init sel) : init ≠ .iret := by
  cases h <;> simp

theorem int_exec {s : State} {n : Byte} (hm : s.inProtectedMode = true) :
    exec (.intN n) s = finish s (deliverEvent n .softInt .none (s.eip + 2) s) := by
  have hr : requireProtected s = .ok () := by simp [requireProtected, hm]
  show finish s (intOp n s) = _
  rw [intOp, hr, Res.ok_bind]; rfl

theorem iret_exec {s : State} {link : Selector} {nd : Desc} (hm : s.inProtectedMode = true)
    (hn : s.eflags.getLsbD 14 = true) (h : LinkTarget s link nd) :
    exec .iret s = finish s (taskSwitch .iret link nd (s.eip + 1) false [] s) := by
  have hr : requireProtected s = .ok () := by simp [requireProtected, hm]
  have hnt : eflagsNt s.eflags = true := hn
  have e : s.nextEip .iret = s.eip + 1 := rfl
  obtain ⟨v, hv, hl⟩ := h.reads
  have f := tss32_facts h.tss
  show finish s (iretOp s) = _
  rw [iretOp, hr, Res.ok_bind, hnt, if_pos rfl, e, returnFromTask, hv, Res.ok_bind]
  simp only [← hl, h.ti, h.inTable, h.desc, h.tss, f.2.1, Bool.not_false, require_true, Res.ok_bind,
    Bool.false_eq_true, if_false]

/-- An event through a task gate of the IDT whose switch does not complete ends as the switch does. -/
theorem deliver_switch {s : State} {v : Byte} {cls : EventClass} {g nd : Desc} (h : IdtTarget s v cls g nd)
    (code : ErrorCode) (ret : Word) :
    (∀ x, taskSwitch .int (gateSel g) nd ret cls.ext [] s = .error x →
      deliverEvent v cls code ret s = .error x) ∧
    ∀ u e, taskSwitch .int (gateSel g) nd ret cls.ext [] s = .ok { state := u, pending := some e } →
      deliverEvent v cls code ret s = .ok { state := u, pending := some e } := by
  rw [deliver_gate h.inTable h.desc h.gate h.names, idt_front h]
  exact ⟨fun x hx => by rw [hx]; rfl, fun u e hx => by rw [hx]; rfl⟩

/-- Whatever makes a task switch that does not complete ends as the switch does. -/
theorem switchOf_ends {s : State} {r : Result} {init : Initiator} {nsel : Selector} {nd : Desc} {ret : Word} {ext : Bool}
    (h : SwitchOf s r init nsel nd ret ext) :
    (∀ x, taskSwitch init nsel nd ret ext [] s = .error x → r = finish s (.error x)) ∧
    ∀ u e, taskSwitch init nsel nd ret ext [] s = .ok { state := u, pending := some e } → r = takeException e u := by
  cases h with
  | direct i init sel nd hm hf ht =>
    rw [far_exec hm hf, far_direct ht]
    exact ⟨fun x hx => by rw [hx], fun u e hx => by rw [hx]; rfl⟩
  | gated i init sel g nd hm hf ht =>
    rw [far_exec hm hf, far_gated ht]
    exact ⟨fun x hx => by rw [hx], fun u e hx => by rw [hx]; rfl⟩
  | iret link nd hm hn ht =>
    rw [iret_exec hm hn ht]
    exact ⟨fun x hx => by rw [hx], fun u e hx => by rw [hx]; rfl⟩
  | intN n g nd hm ht =>
    rw [int_exec hm]
    exact ⟨fun x hx => by rw [(deliver_switch ht .none _).1 x hx],
      fun u e hx => by rw [(deliver_switch ht .none _).2 u e hx]; rfl⟩
  | extInt v g nd ht =>
    rw [takeInterrupt]
    exact ⟨fun x hx => by rw [(deliver_switch ht .none _).1 x hx],
      fun u e hx => by rw [(deliver_switch ht .none _).2 u e hx]; rfl⟩

end Sys2Proof.Machine
end

