-- ==== Sys2Proof/Laws/Encoding.lean ====
section
/-! SUPPORT. The encoder and the decoder against each other: the fields of the operand bytes that are encoded, and
what an operand that is decoded says of its bytes (30_encoding.md R122 to R127). -/

namespace Sys2Proof

/-! ### From an encoding to its fields -/

theorem modrm_toNat (mod digit rm : Nat) (h1 : mod < 4) (h2 : digit < 8) (h3 : rm < 8) :
    (modrmByte mod digit rm).toNat = mod * 64 + digit * 8 + rm := by
  simp [modrmByte]; omega

theorem num_lt (r : Reg) : r.num < 8 := by cases r <;> simp [Reg.num]

theorem sib_toNat (sc : BitVec 2) (x b : Reg) : (sibByte sc x b).toNat = sc.toNat * 64 + x.num * 8 + b.num := by
  have := num_lt x; have := num_lt b; have := sc.isLt
  simp [sibByte]; omega

theorem decodeDisp_bytes (d : Disp) (rest : List Byte) : decodeDisp d.mod (d.bytes ++ rest) = some d := by
  cases d with
  | none => rfl
  | d8 v => rfl
  | d32 v => exact congrArg (fun x => some (Disp.d32 x)) (leNat_leBytes_four v)

theorem decodeDisp32_bytes (d : Word) (rest : List Byte) : decodeDisp32 (leBytes 4 d.toNat ++ rest) = some d :=
  congrArg some (leNat_leBytes_four d)

theorem mod_lt (d : Disp) : d.mod < 3 := by cases d <;> simp [Disp.mod]

theorem mod_eq_zero (d : Disp) : d.mod = 0 ↔ d = .none := by cases d <;> simp [Disp.mod]

theorem num_eq_four (r : Reg) : r.num = 4 ↔ r = .esp := by cases r <;> simp [Reg.num]
theorem num_eq_five (r : Reg) : r.num = 5 ↔ r = .ebp := by cases r <;> simp [Reg.num]

theorem sib_decode (mod : Nat) (sc : BitVec 2) (x b : Reg) (bs : List Byte) :
    decodeSib mod (sibByte sc x b) bs =
      (if mod = 0 ∧ b = .ebp then (decodeDisp32 bs).map (.sibAbs sc x) else (decodeDisp mod bs).map (.sib sc x b)) := by
  have hx := num_lt x; have hb := num_lt b; have := sc.isLt
  unfold decodeSib
  rw [sib_toNat]
  have e1 : (sc.toNat * 64 + x.num * 8 + b.num) / 64 = sc.toNat := by omega
  have e2 : (sc.toNat * 64 + x.num * 8 + b.num) / 8 % 8 = x.num := by omega
  have e3 : (sc.toNat * 64 + x.num * 8 + b.num) % 8 = b.num := by omega
  simp only [e1, e2, e3, Reg.ofNum_num, BitVec.ofNat_toNat, BitVec.setWidth_eq]

/-- The ModRM byte of an encoded memory operand, and the operand read back from the bytes after it. -/
theorem mem_fields (digit : Nat) (hd : digit < 8) (m : MemOp) (hm : m.wellFormed = true) (rest : List Byte) :
    ∃ b bs, encodeMem digit m ++ rest = b :: (bs ++ rest) ∧ b.toNat / 8 % 8 = digit ∧ b.toNat / 64 ≠ 3 ∧
      decodeMem (b.toNat / 64) (b.toNat % 8) (bs ++ rest) = some m := by
  cases m with
  | base r d =>
    have hmod := mod_lt d; have hr := num_lt r
    refine ⟨modrmByte d.mod digit r.num, d.bytes, rfl, ?_⟩
    rw [modrm_toNat _ _ _ (by omega) hd hr]
    have e1 : (d.mod * 64 + digit * 8 + r.num) / 64 = d.mod := by omega
    have e3 : (d.mod * 64 + digit * 8 + r.num) % 8 = r.num := by omega
    refine ⟨by omega, by omega, ?_⟩
    rw [e1, e3]
    simp [MemOp.wellFormed] at hm
    have h4 : ¬ r.num = 4 := by rw [num_eq_four]; exact hm.1
    have h5 : ¬ (d.mod = 0 ∧ r.num = 5) := by rw [mod_eq_zero, num_eq_five]; intro ⟨a, b⟩; exact hm.2.elim (· b) (· a)
    simp [decodeMem, h4, h5, decodeDisp_bytes, Reg.ofNum_num]
  | abs d =>
    refine ⟨modrmByte 0 digit 5, leBytes 4 d.toNat, rfl, ?_⟩
    rw [modrm_toNat _ _ _ (by omega) hd (by omega)]
    refine ⟨by omega, by omega, ?_⟩
    have e1 : (0 * 64 + digit * 8 + 5) / 64 = 0 := by omega
    have e3 : (0 * 64 + digit * 8 + 5) % 8 = 5 := by omega
    rw [e1, e3]
    simp [decodeMem, decodeDisp32_bytes]
  | sib sc x b d =>
    have hmod := mod_lt d
    refine ⟨modrmByte d.mod digit 4, sibByte sc x b :: d.bytes, rfl, ?_⟩
    rw [modrm_toNat _ _ _ (by omega) hd (by omega)]
    have e1 : (d.mod * 64 + digit * 8 + 4) / 64 = d.mod := by omega
    have e3 : (d.mod * 64 + digit * 8 + 4) % 8 = 4 := by omega
    refine ⟨by omega, by omega, ?_⟩
    rw [e1, e3]
    simp [MemOp.wellFormed] at hm
    have h5 : ¬ (d.mod = 0 ∧ b = .ebp) := by rw [mod_eq_zero]; intro ⟨a, b⟩; exact hm.elim (· b) (· a)
    simp [decodeMem, sib_decode, h5, decodeDisp_bytes]
  | sibAbs sc x d =>
    refine ⟨modrmByte 0 digit 4, sibByte sc x .ebp :: leBytes 4 d.toNat, rfl, ?_⟩
    rw [modrm_toNat _ _ _ (by omega) hd (by omega)]
    refine ⟨by omega, by omega, ?_⟩
    have e1 : (0 * 64 + digit * 8 + 4) / 64 = 0 := by omega
    have e3 : (0 * 64 + digit * 8 + 4) % 8 = 4 := by omega
    rw [e1, e3]
    simp [decodeMem, sib_decode, decodeDisp32_bytes]

theorem reg_fields (digit : Nat) (hd : digit < 8) (f : RegMem → Instr) (rm : RegMem) (hm : rm.wellFormed = true)
    (rest : List Byte) :
    ∃ b bs, encodeRegMem digit rm ++ rest = b :: (bs ++ rest) ∧ b.toNat / 8 % 8 = digit ∧
      decodeRegMem f b.toNat (bs ++ rest) = .instr (f rm) := by
  cases rm with
  | reg r =>
    have hr := num_lt r
    refine ⟨modrmByte 3 digit r.num, [], rfl, ?_⟩
    rw [modrm_toNat _ _ _ (by omega) hd hr]
    refine ⟨by omega, ?_⟩
    have e1 : (3 * 64 + digit * 8 + r.num) / 64 = 3 := by omega
    have e3 : (3 * 64 + digit * 8 + r.num) % 8 = r.num := by omega
    simp only [decodeRegMem, e1, e3, if_true, Reg.ofNum_num]
  | mem m =>
    obtain ⟨b, bs, h1, h2, h3, h4⟩ := mem_fields digit hd m hm rest
    exact ⟨b, bs, h1, h2, by simp [decodeRegMem, h3, h4, Decoded.ofOption]⟩

/-! ### From a decoded operand to its bytes -/

theorem leBytes4_leNat (a b c d : Byte) : leBytes 4 (BitVec.ofNat 32 (leNat [a, b, c, d])).toNat = [a,b,c,d] := by
  have := a.isLt; have := b.isLt; have := c.isLt; have := d.isLt
  simp only [leBytes, leNat, List.cons.injEq, BitVec.toNat_ofNat, and_true]
  refine ⟨?_, ?_, ?_, ?_⟩ <;> apply BitVec.eq_of_toNat_eq <;> simp only [BitVec.toNat_ofNat] <;> omega

theorem leBytes2_leNat (a b : Byte) : leBytes 2 (BitVec.ofNat 16 (leNat [a, b])).toNat = [a,b] := by
  have := a.isLt; have := b.isLt
  simp only [leBytes, leNat, List.cons.injEq, BitVec.toNat_ofNat, and_true]
  refine ⟨?_, ?_⟩ <;> apply BitVec.eq_of_toNat_eq <;> simp only [BitVec.toNat_ofNat] <;> omega

theorem num_ofNum {n : Nat} (h : n < 8) : (Reg.ofNum n).num = n := by
  have : ∀ n < 8, (Reg.ofNum n).num = n := by decide
  exact this n h

theorem modrm_eq (m : Byte) (mod digit rm : Nat) (h1 : m.toNat / 64 = mod) (h2 : m.toNat / 8 % 8 = digit) (h3 : m.toNat % 8 = rm) :
    modrmByte mod digit rm = m := by
  subst h1 h2 h3
  apply BitVec.eq_of_toNat_eq
  have := m.isLt
  rw [modrm_toNat _ _ _ (by omega) (by omega) (by omega)]
  omega

theorem sib_eq (m : Byte) : sibByte (BitVec.ofNat 2 (m.toNat / 64)) (Reg.ofNum (m.toNat / 8 % 8)) (Reg.ofNum (m.toNat % 8)) = m := by
  apply BitVec.eq_of_toNat_eq
  have := m.isLt
  rw [sib_toNat, num_ofNum (by omega), num_ofNum (by omega)]
  simp only [BitVec.toNat_ofNat]
  omega

theorem disp_inv {mod : Nat} {bs : List Byte} {d : Disp} (h : decodeDisp mod bs = some d) :
    d.mod = mod ∧ ∃ rest, bs = d.bytes ++ rest := by
  unfold decodeDisp at h
  split at h <;> cases h
  · exact ⟨rfl, bs, rfl⟩
  · exact ⟨rfl, _, rfl⟩
  · next b0 b1 b2 b3 r => exact ⟨rfl, r, by rw [Disp.bytes, leBytes4_leNat]; rfl⟩

theorem disp32_inv {bs : List Byte} {d : Word} (h : decodeDisp32 bs = some d) :
    ∃ rest, bs = leBytes 4 d.toNat ++ rest := by
  unfold decodeDisp32 at h
  split at h
  · cases h
    next b0 b1 b2 b3 r => exact ⟨r, by rw [leBytes4_leNat]; rfl⟩
  · cases h

theorem mem_inv {m : Byte} {digit : Nat} {bs : List Byte} {op : MemOp} (h3 : m.toNat / 64 ≠ 3) (hd : m.toNat / 8 % 8 = digit)
    (h : decodeMem (m.toNat / 64) (m.toNat % 8) bs = some op) :
    op.wellFormed = true ∧ ∃ rest, m :: bs = encodeMem digit op ++ rest := by
  unfold decodeMem at h
  split at h
  · next h4 =>
    cases bs with
    | nil => cases h
    | cons sib bs =>
      simp only at h
      unfold decodeSib at h
      simp only at h
      split at h
      · next hc =>
        obtain ⟨d, hd2, rfl⟩ := Option.map_eq_some_iff.1 h
        obtain ⟨rest, rfl⟩ := disp32_inv hd2
        refine ⟨rfl, rest, ?_⟩
        simp only [encodeMem, List.cons_append]
        rw [modrm_eq m 0 digit 4 hc.1 hd h4]
        have := sib_eq sib
        rw [hc.2] at this
        rw [this]
      · next hc =>
        obtain ⟨d, hd2, rfl⟩ := Option.map_eq_some_iff.1 h
        obtain ⟨hm, rest, rfl⟩ := disp_inv hd2
        refine ⟨?_, rest, ?_⟩
        · rw [← hm, mod_eq_zero] at hc
          simp only [MemOp.wellFormed, Bool.not_eq_true', Bool.and_eq_false_iff, beq_eq_false_iff_ne, ne_eq]
          tauto
        · simp only [encodeMem, List.cons_append]
          rw [modrm_eq m d.mod digit 4 hm.symm hd h4, sib_eq]
  · next h4 =>
    split at h
    · next hc =>
      obtain ⟨d, hd2, rfl⟩ := Option.map_eq_some_iff.1 h
      obtain ⟨rest, rfl⟩ := disp32_inv hd2
      refine ⟨rfl, rest, ?_⟩
      simp only [encodeMem, List.cons_append]
      rw [modrm_eq m 0 digit 5 hc.1 hd hc.2]
    · next hc =>
      obtain ⟨d, hd2, rfl⟩ := Option.map_eq_some_iff.1 h
      obtain ⟨hm, rest, rfl⟩ := disp_inv hd2
      have hn : (Reg.ofNum (m.toNat % 8)).num = m.toNat % 8 := num_ofNum (by omega)
      refine ⟨?_, rest, ?_⟩
      · rw [← hm, mod_eq_zero, ← hn, num_eq_five] at hc
        rw [← hn, num_eq_four] at h4
        simp [MemOp.wellFormed]
        tauto
      · simp only [encodeMem, List.cons_append]
        rw [modrm_eq m d.mod digit _ hm.symm hd hn.symm]

theorem memOnly_inv {f : MemOp → Instr} {m : Byte} {digit : Nat} {bs : List Byte} {i : Instr} (hd : m.toNat / 8 % 8 = digit)
    (h : decodeMemOnly f m.toNat bs = .instr i) :
    ∃ op, i = f op ∧ op.wellFormed = true ∧ ∃ rest, m :: bs = encodeMem digit op ++ rest := by
  unfold decodeMemOnly at h
  split at h
  · cases h
  · next h3 =>
    cases hm : decodeMem (m.toNat / 64) (m.toNat % 8) bs with
    | none => rw [hm] at h; cases h
    | some op => rw [hm] at h; cases h; exact ⟨op, rfl, mem_inv h3 hd hm⟩

theorem regMem_inv {f : RegMem → Instr} {m : Byte} {digit : Nat} {bs : List Byte} {i : Instr} (hd : m.toNat / 8 % 8 = digit)
    (h : decodeRegMem f m.toNat bs = .instr i) :
    ∃ op, i = f op ∧ op.wellFormed = true ∧ ∃ rest, m :: bs = encodeRegMem digit op ++ rest := by
  unfold decodeRegMem at h
  split at h
  · next h3 =>
    cases h
    refine ⟨_, rfl, rfl, bs, ?_⟩
    simp only [encodeRegMem, List.cons_append, List.nil_append]
    rw [modrm_eq m 3 digit _ h3 hd (num_ofNum (by omega)).symm]
  · next h3 =>
    cases hm : decodeMem (m.toNat / 64) (m.toNat % 8) bs with
    | none => rw [hm] at h; cases h
    | some op =>
      rw [hm] at h; cases h
      exact ⟨_, rfl, mem_inv h3 hd hm⟩

theorem farPtr_inv {f : Selector → Word → Instr} {bs : List Byte} {i : Instr} (h : decodeFarPtr f bs = .instr i) :
    ∃ sel off rest, i = f sel off ∧ bs = leBytes 4 off.toNat ++ leBytes 2 sel.toNat ++ rest := by
  unfold decodeFarPtr at h
  split at h
  · cases h
    next a b c d e g r => exact ⟨_, _, r, rfl, by rw [leBytes4_leNat, leBytes2_leNat]; rfl⟩
  · cases h

theorem byte_eq {b : Byte} {n : Nat} (h : b.toNat = n) : b = BitVec.ofNat 8 n := by subst h; simp

end Sys2Proof
end

