-- ==== Sys2Proof/Laws/PerInstr.lean ====
section
/-! SUPPORT. Statements for all instructions, one lemma a constructor: the family Length says how long an
instruction of each row is (30_encoding.md R128 to R135). -/

namespace Sys2Proof.Laws.Length

/-- The shortest instruction of a row. -/
def least : Instr → Nat
  | .jmpPtr _ _ => 7
  | .jmpMem _ => 2
  | .callPtr _ _ => 7
  | .callMem _ => 2
  | .iret => 1
  | .intN _ => 2
  | .ltr _ => 3
  | .str _ => 3

/-- The longest instruction of a row. -/
def most : Instr → Nat
  | .jmpPtr _ _ => 7
  | .jmpMem _ => 7
  | .callPtr _ _ => 7
  | .callMem _ => 7
  | .iret => 1
  | .intN _ => 2
  | .ltr _ => 8
  | .str _ => 8

/-- The length of an instruction is within the bounds of its row (R128 to R135), so at most 15 bytes (R120). -/
def Statement (i : Instr) : Prop := least i ≤ i.length ∧ i.length ≤ most i

theorem leBytes_length (n v : Nat) : (leBytes n v).length = n := by
  induction n generalizing v with
  | zero => rfl
  | succ n ih => simp [leBytes, ih]

theorem encodeMem_length (digit : Nat) (m : MemOp) :
    1 ≤ (encodeMem digit m).length ∧ (encodeMem digit m).length ≤ 6 := by
  cases m with
  | base r d => cases d <;> simp [encodeMem, Disp.bytes, leBytes_length]
  | abs d => simp [encodeMem, leBytes_length]
  | sib sc ix b d => cases d <;> simp [encodeMem, Disp.bytes, leBytes_length]
  | sibAbs sc ix d => simp [encodeMem, leBytes_length]

theorem encodeRegMem_length (digit : Nat) (rm : RegMem) :
    1 ≤ (encodeRegMem digit rm).length ∧ (encodeRegMem digit rm).length ≤ 6 := by
  cases rm with
  | reg r => simp [encodeRegMem]
  | mem m => exact encodeMem_length digit m

theorem jmpPtr (sel : Selector) (off : Word) : Statement (.jmpPtr sel off) := by
  simp [Statement, least, most, Instr.length, encode, leBytes_length]

theorem jmpMem (m : MemOp) : Statement (.jmpMem m) := by
  have := encodeMem_length 5 m
  simp only [Statement, least, most, Instr.length, encode, List.length_cons]
  omega

theorem callPtr (sel : Selector) (off : Word) : Statement (.callPtr sel off) := by
  simp [Statement, least, most, Instr.length, encode, leBytes_length]

theorem callMem (m : MemOp) : Statement (.callMem m) := by
  have := encodeMem_length 3 m
  simp only [Statement, least, most, Instr.length, encode, List.length_cons]
  omega

theorem iret : Statement .iret := by simp [Statement, least, most, Instr.length, encode]

theorem intN (n : Byte) : Statement (.intN n) := by simp [Statement, least, most, Instr.length, encode]

theorem ltr (src : RegMem) : Statement (.ltr src) := by
  have := encodeRegMem_length 3 src
  simp only [Statement, least, most, Instr.length, encode, List.length_cons]
  omega

theorem str (dst : RegMem) : Statement (.str dst) := by
  have := encodeRegMem_length 1 dst
  simp only [Statement, least, most, Instr.length, encode, List.length_cons]
  omega

end Sys2Proof.Laws.Length
end

