-- ==== Sys2Proof/Laws/Fetch.lean ====
section
/-! SUPPORT. The fetch of an instruction whose bytes are there, and the step that follows (30_encoding.md R136). -/

namespace Sys2Proof.Machine

open Sys2Proof.Safety

theorem fetchFrom_of {s : State} {bs : List Byte} (h : FetchesBytes s bs) (hd : decode bs ≠ .more) (n k : Nat)
    (hk : k ≤ bs.length) (hn : bs.length ≤ k + n) : fetchFrom s n (bs.take k) = .ok (decode bs) := by
  induction n generalizing k with
  | zero => 
    have : k = bs.length := by omega
    subst this
    simp [fetchFrom]
  | succ n ih =>
    unfold fetchFrom
    by_cases hm : decode (bs.take k) = .more
    · rw [hm]
      have hlt : k < bs.length := by
        by_contra hge
        rw [List.take_of_length_le (by omega)] at hm
        exact hd hm
      have hl : (bs.take k).length = k := by simp; omega
      have hb := h k hlt
      simp only [hl, hb, Res.ok_bind]
      have : bs.take k ++ [BitVec.ofNat 8 (bs[k]).toNat] = bs.take (k+1) := by
        simp
      rw [this]
      exact ih (k+1) (by omega) (by omega)
    · have := decode_append (bs.drop k) hm
      rw [List.take_append_drop] at this
      rw [this]
      cases hx : decode (bs.take k) <;> simp_all

theorem fetchInstr_of {s : State} {bs : List Byte} (h : FetchesBytes s bs) (hd : decode bs ≠ .more) (hn : bs.length ≤ 15) :
    fetchInstr s = .ok (decode bs) := by
  have := fetchFrom_of h hd 15 0 (by omega) (by omega)
  simpa [fetchInstr] using this

theorem length_le (i : Instr) : i.length ≤ 15 := by
  cases i with
  | jmpPtr a b => exact (Laws.Length.jmpPtr a b).2.trans (by simp [Laws.Length.most])
  | jmpMem a => exact (Laws.Length.jmpMem a).2.trans (by simp [Laws.Length.most])
  | callPtr a b => exact (Laws.Length.callPtr a b).2.trans (by simp [Laws.Length.most])
  | callMem a => exact (Laws.Length.callMem a).2.trans (by simp [Laws.Length.most])
  | iret => exact (Laws.Length.iret).2.trans (by simp [Laws.Length.most])
  | intN a => exact (Laws.Length.intN a).2.trans (by simp [Laws.Length.most])
  | ltr a => exact (Laws.Length.ltr a).2.trans (by simp [Laws.Length.most])
  | str a => exact (Laws.Length.str a).2.trans (by simp [Laws.Length.most])

theorem fetchAction_of {s : State} {bs : List Byte} (h : FetchesBytes s bs) (hd : decode bs ≠ .more) (hn : bs.length ≤ 15)
    (hdb : s.segs.cs.db = true) : fetchAction s = (match decode bs with
    | .instr i => .run i s
    | .illegal => .stop (takeException (exc .ud) s)
    | .prefixByte => .stop (.refused .prefixNotModelled)
    | .noRow => .stop (.refused .opcodeNotModelled)
    | .more => .stop (.refused .opcodeNotModelled)) := by
  simp only [fetchAction, hdb, Bool.not_true, Bool.and_false, Bool.false_eq_true, if_false, fetchInstr_of h hd hn]
  cases decode bs <;> rfl

/-- A step at bytes that are there, with no interrupt due. -/
theorem stepWith_of {offer : Option Byte} {s : State} {bs : List Byte} (ho : dueInterrupt offer s = none)
    (hr : ReadyToFetch s) (h : FetchesBytes s bs) (hd : decode bs ≠ .more) (hn : bs.length ≤ 15) :
    stepWith offer s = (match decode bs with
    | .instr i => exec i s
    | .illegal => takeException (exc .ud) s
    | .prefixByte => .refused .prefixNotModelled
    | .noRow => .refused .opcodeNotModelled
    | .more => .refused .opcodeNotModelled) := by
  simp only [stepWith, nextAction, hr.mode, if_true, ho, fetchAction_of h hd hn hr.code32]
  cases decode bs <;> rfl

theorem step_of {s : State} {bs : List Byte} (hr : ReadyToFetch s) (h : FetchesBytes s bs) (hd : decode bs ≠ .more)
    (hn : bs.length ≤ 15) :
    step s = (match decode bs with
    | .instr i => exec i s
    | .illegal => takeException (exc .ud) s
    | .prefixByte => .refused .prefixNotModelled
    | .noRow => .refused .opcodeNotModelled
    | .more => .refused .opcodeNotModelled) := stepWith_of rfl hr h hd hn

end Sys2Proof.Machine
end

