-- ==== Sys2Proof/Laws/Run.lean ====
section
/-! SUPPORT. How a run ends, and the premise on TR at launch (70_reset_and_hazards.md R303, R306, R322). -/

namespace Sys2Proof.Safety

open Sys2Proof.Machine

/-- A run is final only at `end_point`. -/
theorem runTo_final {cs : Selector} {eip : Word} {n : Nat} {offers : List (Option Byte)} {s t : State}
    (h : runTo cs eip n offers s = .final t) : AtEnd cs eip t := by
  induction n generalizing offers s with
  | zero =>
    unfold runTo at h
    split at h
    · next he => cases h; exact he
    · cases h
  | succ n ih =>
    unfold runTo at h
    split at h
    · next he => cases h; exact he
    · split at h
      · exact ih h
      all_goals cases h

/-- A run whose steps are used up has not reached `end_point`. -/
theorem runTo_running {cs : Selector} {eip : Word} {n : Nat} {offers : List (Option Byte)} {s t : State}
    (h : runTo cs eip n offers s = .running t) : ¬ AtEnd cs eip t := by
  induction n generalizing offers s with
  | zero =>
    unfold runTo at h
    split at h
    · cases h
    · next he => cases h; exact he
  | succ n ih =>
    unfold runTo at h
    split at h
    · cases h
    · split at h
      · exact ih h
      all_goals cases h

/-- A run that has ended ends the same with one step more. -/
theorem runTo_succ {cs : Selector} {eip : Word} {n : Nat} {offers : List (Option Byte)} {s : State}
    (h : ∀ t, runTo cs eip n offers s ≠ .running t) : runTo cs eip (n + 1) offers s = runTo cs eip n offers s := by
  induction n generalizing offers s with
  | zero =>
    by_cases he : AtEnd cs eip s
    · simp only [runTo, if_pos he]
    · exact absurd (if_neg he) (h s)
  | succ n ih =>
    rw [runTo.eq_def _ _ (n + 1 + 1), runTo.eq_def _ _ (n + 1)]
    by_cases he : AtEnd cs eip s
    · simp only [if_pos he]
    · have h' := h
      simp only [runTo.eq_def _ _ (n + 1), if_neg he] at h'
      simp only [if_neg he]
      cases hs : stepWith (offerNow offers) s with
      | next t => rw [hs] at h'; exact ih h'
      | fault f => rfl
      | refused r => rfl

/-- While TR is as at reset, a step of a run that goes on switches no task. -/
theorem LtrFirst.next {cs : Selector} {eip : Word} {n : Nat} {offers : List (Option Byte)} {s t : State}
    (h : LtrFirst cs eip (n + 1) offers s) (hr : TrAtReset s) (he : ¬ AtEnd cs eip s)
    (hs : stepWith (offerNow offers) s = .next t) :
    SwitchesNoTask (offerNow offers) s t ∧ LtrFirst cs eip n offers.tail t := by
  have h1 := h hr he
  rw [hs] at h1
  exact h1

/-- Once TR is loaded nothing more is asked. -/
theorem LtrFirst.of_loaded {cs : Selector} {eip : Word} {offers : List (Option Byte)} {s : State}
    (h : ¬ TrAtReset s) (n : Nat) : LtrFirst cs eip n offers s := by
  cases n with
  | zero => trivial
  | succ n => exact fun hr => absurd hr h

/-- A first step that switches no task, and what the next ones must do. -/
theorem LtrFirst.of_next {cs : Selector} {eip : Word} {offers : List (Option Byte)} {s t : State}
    (hs : stepWith (offerNow offers) s = .next t) (h : SwitchesNoTask (offerNow offers) s t)
    (ht : ∀ n, LtrFirst cs eip n offers.tail t) (n : Nat) : LtrFirst cs eip n offers s := by
  cases n with
  | zero => trivial
  | succ n =>
    intro _ _
    rw [hs]
    exact ⟨h, ht n⟩

/-- From a launch state with TR as at reset, the first step switches no task. -/
theorem Launch.first {cs : Selector} {eip : Word} {offers : List (Option Byte)} {s t : State}
    (h : Launch cs eip offers s) (hr : TrAtReset s) (he : ¬ AtEnd cs eip s)
    (hs : stepWith (offerNow offers) s = .next t) : SwitchesNoTask (offerNow offers) s t :=
  ((h.ltrFirst 1).next hr he hs).1

end Sys2Proof.Safety
end

