-- ==== Sys2Proof/Tests/Slice0.lean ====
section
/-! SUPPORT. Tests of the model against words and vectors of the spec (95_test_vectors.md; TSS A is at 0800h here and
B and C leave ES, FS and GS null, so that the evaluation is short), and for every obligation with hypotheses a
witness of them: `witness_<Obligation>`, with the clause it is for. -/

namespace Sys2Proof.Tests

set_option Elab.async false

open Sys2Proof.Machine Sys2Proof.Safety

/-! ### Well-formedness: an ill-formed term for each check -/

theorem test_wellFormed_no_esp_base : (MemOp.base .esp .none).wellFormed = false := by decide
theorem test_wellFormed_no_bare_ebp : (MemOp.base .ebp .none).wellFormed = false := by decide
theorem test_wellFormed_no_bare_sib_ebp : (MemOp.sib 0 .eax .ebp .none).wellFormed = false := by decide
theorem test_wellFormed_far : (Instr.jmpMem (.base .esp .none)).wellFormed = false ∧
    (Instr.callMem (.base .esp .none)).wellFormed = false := by decide
theorem test_wellFormed_task_register : (Instr.ltr (.mem (.base .ebp .none))).wellFormed = false ∧
    (Instr.str (.mem (.base .ebp .none))).wellFormed = false := by decide

/-! ### Decoding: the vectors E1 to E16 of 95_test_vectors.md -/

theorem test_decode_far_pointer :
    decode [0xEA, 0x00, 0x00, 0x00, 0x00, 0x20, 0x00] = .instr (.jmpPtr 0x0020 0) ∧
    decode [0xEA, 0x78, 0x56, 0x34, 0x12, 0x2B, 0x00] = .instr (.jmpPtr 0x002B 0x12345678) ∧
    decode [0x9A, 0x00, 0x00, 0x00, 0x00, 0x28, 0x00] = .instr (.callPtr 0x0028 0) := by decide

theorem test_decode_far_memory :
    decode [0xFF, 0x2D, 0x00, 0x50, 0x00, 0x00] = .instr (.jmpMem (.abs 0x5000)) ∧
    decode [0xFF, 0x1D, 0x00, 0x50, 0x00, 0x00] = .instr (.callMem (.abs 0x5000)) ∧
    decode [0xFF, 0x6C, 0x24, 0x08] = .instr (.jmpMem (.sib 0 .esp .esp (.d8 8))) ∧
    decode [0xFF, 0xEB] = .illegal := by decide

theorem test_decode_interrupt : decode [0xCF] = .instr .iret ∧ decode [0xCD, 0x30] = .instr (.intN 0x30) := by
  decide

theorem test_decode_ltr : decode [0x0F, 0x00, 0xD8] = .instr (.ltr (.reg .eax)) ∧
    decode [0x0F, 0x00, 0x18] = .instr (.ltr (.mem (.base .eax .none))) := by decide

theorem test_decode_str : decode [0x0F, 0x00, 0xCB] = .instr (.str (.reg .ebx)) ∧
    decode [0x0F, 0x00, 0x4D, 0xFC] = .instr (.str (.mem (.base .ebp (.d8 0xFC)))) := by decide

theorem test_decode_refused : decode [0x0F, 0x00, 0xD0] = .noRow ∧ decode [0x66, 0xCF] = .prefixByte ∧
    decode [0xCC] = .noRow := by decide

/-- `0F 00 /1` with SIB `B4h`: scale 4, index ESI, base ESP, and a `disp32` (R124). -/
theorem test_decode_sib : decode [0x0F, 0x00, 0x8C, 0xB4, 0x44, 0x33, 0x22, 0x11] =
    .instr (.str (.mem (.sib 2 .esi .esp (.d32 0x11223344)))) := by decide

/-! ### The image of 95_test_vectors.md 2.0 -/

/-- Bytes listed from an address on, below what is listed already. -/
def cells (a : Nat) : List Byte → Memory → Memory
  | [], m => m
  | b :: bs, m => (a, b) :: cells (a + 1) bs m

/-- The GDT: null, code, data, TSS A (busy), TSS B, a task gate to B, TSS C, a TSS of limit 66h. -/
def gdtBytes : List Byte :=
  [0, 0, 0, 0, 0, 0, 0, 0,
   0xFF, 0xFF, 0, 0, 0, 0x9A, 0xCF, 0,
   0xFF, 0xFF, 0, 0, 0, 0x92, 0xCF, 0,
   0x67, 0, 0, 0x08, 0, 0x8B, 0, 0] ++
  [0x67, 0, 0, 0x21, 0, 0x89, 0, 0,
   0, 0, 0x20, 0, 0, 0x85, 0, 0,
   0x67, 0, 0, 0x22, 0, 0x89, 0, 0,
   0x66, 0, 0, 0x23, 0, 0x89, 0, 0]

/-- The bytes of a TSS from EIP (offset 32) to the I/O map base: general registers `r`, `r + 1`, ... -/
def tssBody (eip r esp : Nat) : List Byte :=
  leBytes 4 eip ++ leBytes 4 2 ++ leBytes 4 r ++ leBytes 4 (r + 1) ++ leBytes 4 (r + 2) ++ leBytes 4 (r + 3) ++
  leBytes 4 esp ++ leBytes 4 (r + 5) ++ leBytes 4 (r + 6) ++ leBytes 4 (r + 7) ++
  leBytes 4 0 ++ leBytes 4 0x08 ++ leBytes 4 0x10 ++ leBytes 4 0x10 ++ leBytes 4 0 ++ leBytes 4 0 ++
  leBytes 4 0 ++ leBytes 4 0x680000

/-- GDT, IDT entries 13 and 30h, TSS B and TSS C. -/
def tables : Memory :=
  cells 0x1000 gdtBytes <| cells 0x1868 [0, 0, 0x30, 0, 0, 0x85, 0, 0] <|
  cells 0x1980 [0, 0, 0x30, 0, 0, 0xE5, 0, 0] <|
  cells 0x2120 (tssBody 0x20000 0xB0000000 0x9000) <| cells 0x2220 (tssBody 0x30000 0xC0000000 0xA000) []

def flatCode : SegReg :=
  { selector := 8, base := 0, limit := 0xFFFFFFFF, type := 10, s := true, dpl := 0, p := true, db := true, g := true
    valid := true }

def flatData : SegReg := { flatCode with selector := 0x10, type := 2 }

/-- Task A running (the launch state L1), with nothing in memory. -/
def bareA : State :=
  { State.reset with
    gprs := { eax := 0xA0000000, ecx := 0xA0000001, edx := 0xA0000002, ebx := 0xA0000003, esp := 0x8000
              ebp := 0xA0000005, esi := 0xA0000006, edi := 0xA0000007 }
    eip := 0x10000
    segs := { cs := flatCode, ss := flatData, ds := flatData, es := flatData, fs := flatData, gs := flatData }
    gdtr := { base := 0x1000, limit := 0x3F }
    idtr := { base := 0x1800, limit := 0x1FF }
    tr := { selector := 0x18, base := 0x800, limit := 0x67, attr := { type := 11, dpl := 0, p := true, g := false } }
    cr0 := 1 }

/-- Task A running, with the tables. -/
def taskA : State := { bareA with mem := tables }

/-- The same at privilege level 3 (the launch state L3). -/
def user (s : State) : State := s.withSeg .cs { flatCode with selector := 0x43, dpl := 3 }

/-- Other bytes at an address on. -/
def poke (s : State) (a : Nat) : List Byte → State
  | [] => s
  | b :: bs => poke (s.withMem (s.mem.write a b)) (a + 1) bs

/-- Code at the EIP of task A, and nothing else in memory. -/
def code (bs : List Byte) : State := poke bareA 0x10000 bs

/-- EFLAGS with NT, the link of TSS A and the busy flag of B as a nested task A has them (vector W3). -/
def nestedA : State := poke (poke (taskA.withEflags 0x4002) 0x800 [0x20, 0]) 0x1025 [0x8B]

def codeDesc : Desc := 0x00CF9A000000FFFF
def dataDesc : Desc := 0x00CF92000000FFFF
def tssA : Desc := 0x00008B0008000067
def tssB : Desc := 0x0000890021000067
def busyB : Desc := 0x00008B0021000067
def tssC : Desc := 0x0000890022000067
def gateB : Desc := 0x0000850000200000
def gateC : Desc := 0x0000850000300000
def gateC3 : Desc := 0x0000E50000300000

/-- The descriptors of the segments of B and C. -/
def taskSegs : NewSegs :=
  { ldt := none, cs := codeDesc, ss := dataDesc, ds := some dataDesc, es := none, fs := none, gs := none }

/-! ### Reading a result -/

def after : Result → Option State
  | .next t => some t
  | .fault _ => none
  | .refused _ => none

theorem next_of {r : Result} (h : (after r).isSome = true) : ∃ t, r = .next t := by
  cases r with
  | next t => exact ⟨t, rfl⟩
  | fault f => cases h
  | refused r => cases h

def isOk : Res α → Bool
  | .ok _ => true
  | .error _ => false

def valueOf (d : α) : Res α → α
  | .ok a => a
  | .error _ => d

theorem eq_ok {r : Res α} (d : α) (h : isOk r = true) : r = .ok (valueOf d r) := by
  cases r with
  | ok a => rfl
  | error e => cases h

theorem ok_of {r : Res α} (h : isOk r = true) : ∃ a, r = .ok a := by
  cases r with
  | ok a => exact ⟨a, rfl⟩
  | error e => cases h

/-! ### One step of each instruction -/

/-- Vector T1: `LTR AX` from L0. -/
theorem test_ltr_loads_tr :
    (after (exec (.ltr (.reg .eax)) (poke { taskA with gprs := { taskA.gprs with eax := 0x18 } } 0x101D [0x89]))).map
      (fun t => (t.tr.selector, t.tr.base, t.tr.limit, t.mem.read 0x101D, t.eip, t.cr0)) =
      some (0x18, 0x800, 0x67, some 0x8B, 0x10003, 1) := by decide +kernel

/-- Vector T3: the descriptor of the running task is busy; `#GP(0018h)` enters task C with its error code. -/
theorem test_ltr_busy_raises :
    (after (exec (.ltr (.reg .eax)) { taskA with gprs := { taskA.gprs with eax := 0x18 } })).map
      (fun t => (t.tr.selector, t.eip, t.gprs.esp, t.mem.read 0x9FFC, t.mem.read 0x820)) =
      some (0x30, 0x30000, 0x9FFC, some 0x18, some 0) := by decide +kernel

/-- Vector T12: bits 31:16 of the register are cleared. -/
theorem test_str_register :
    (after (exec (.str (.reg .ebx)) bareA)).map (fun t => (t.gprs.ebx, t.eip)) = some (0x18, 0x10003) := by
  decide +kernel

/-- Vector T14: `STR word [EBP-4]`. -/
theorem test_str_memory :
    (after (exec (.str (.mem (.base .ebp (.d8 0xFC)))) { bareA with gprs := { bareA.gprs with ebp := 0x8004 } })).map
      (fun t => (t.mem.read 0x8000, t.mem.read 0x8001, t.mem.read 0x8002, t.eip)) =
      some (some 0x18, some 0, none, 0x10004) := by decide +kernel

/-- Program P2, step 1, fetched from memory. -/
theorem test_jmp_enters_task :
    (after (step (poke taskA 0x10000 [0xEA, 0, 0, 0, 0, 0x20, 0]))).map
      (fun t => (t.eip, t.gprs.eax, t.tr.selector, t.cr0, t.eflags, t.mem.read 0x820, t.mem.read 0x101D)) =
      some (0x20000, 0xB0000000, 0x20, 9, 2, some 0x07, some 0x89) := by decide +kernel

/-- Program P5: a jump to the own TSS; the EIP saved is that of the JMP. -/
theorem test_jmp_own_task_raises :
    (after (exec (.jmpPtr 0x18 0) taskA)).map
      (fun t => (t.eip, t.eflags, t.gprs.esp, t.mem.read 0x9FFC, t.mem.read 0x9FFF, t.mem.read 0x820)) =
      some (0x30000, 0x4002, 0x9FFC, some 0x18, some 0, some 0) := by decide +kernel

/-- Vector E4: the far pointer of the JMP is in memory at 5000h. -/
theorem test_jmp_memory_enters_task :
    (after (exec (.jmpMem (.abs 0x5000)) (poke taskA 0x5000 [0, 0, 0, 0, 0x20, 0]))).map
      (fun t => (t.eip, t.tr.selector, t.mem.read 0x820)) = some (0x20000, 0x20, some 0x06) := by decide +kernel

/-- Program P3, step 1: through the gate; A stays busy, the link names A, nothing is pushed. -/
theorem test_call_gate_enters_task :
    (after (exec (.callPtr 0x28 0) taskA)).map
      (fun t => (t.eip, t.eflags, t.gprs.esp, t.mem.read 0x101D, t.mem.read 0x1025, t.mem.read 0x2100)) =
      some (0x20000, 0x4002, 0x9000, some 0x8B, some 0x8B, some 0x18) := by decide +kernel

/-- Vector E5: `CALL FAR [DS:00005000h]`. -/
theorem test_call_memory_enters_task :
    (after (exec (.callMem (.abs 0x5000)) (poke taskA 0x5000 [0, 0, 0, 0, 0x20, 0]))).map
      (fun t => (t.eip, t.eflags, t.mem.read 0x820)) = some (0x20000, 0x4002, some 0x06) := by decide +kernel

/-- Vector W3: the image saved has NT clear, B stays busy, A becomes available. -/
theorem test_iret_returns :
    (after (exec .iret nestedA)).map
      (fun t => (t.eip, t.eflags, t.tr.selector, t.mem.read 0x820, t.mem.read 0x825, t.mem.read 0x101D,
        t.mem.read 0x1025)) =
      some (0x20000, 2, 0x20, some 0x01, some 0, some 0x89, some 0x8B) := by decide +kernel

/-- Vector X13. -/
theorem test_iret_without_nt : exec .iret bareA = .refused .iretWithoutNtNotModelled := rfl

/-- Program P4, step 1. -/
theorem test_int_enters_handler :
    (after (exec (.intN 0x30) taskA)).map
      (fun t => (t.eip, t.eflags, t.gprs.esp, t.mem.read 0x820, t.mem.read 0x2200, t.mem.read 0x101D)) =
      some (0x30000, 0x4002, 0xA000, some 0x02, some 0x18, some 0x8B) := by decide +kernel

/-- Vector X20: `INT 0Dh` from privilege level 3; `#GP(006Ah)` is delivered through the same gate. -/
theorem test_int_checks_gate_dpl :
    (after (exec (.intN 13) (user taskA))).map (fun t => (t.eip, t.gprs.esp, t.mem.read 0x9FFC, t.mem.read 0x820)) =
      some (0x30000, 0x9FFC, some 0x6A, some 0) := by decide +kernel

/-- Vector X23: an external interrupt at privilege level 3, the gate's DPL not checked. -/
theorem test_external_interrupt :
    (after (stepWith (some 0x30) ((poke (user taskA) 0x1985 [0x85]).withEflags 0x202))).map
      (fun t => (t.eip, t.eflags, t.gprs.esp, t.mem.read 0x822, t.mem.read 0x825)) =
      some (0x30000, 0x4002, 0xA000, some 0x01, some 0x02) := by decide +kernel

/-- R236: a descriptor of the wrong kind that is not present fails two rows, whichever of them check_order picks. -/
theorem test_rows_fail_independently :
    csRows 0x10 false (dataDesc ^^^ 0x0000800000000000) = [excCode .ts 0x10, excCode .np 0x10] ∧
    ssRows 8 false 0 (codeDesc ^^^ 0x0000800000000000) = [excCode .ts 8, excCode .ss 8] ∧
    dataRows 0x20 false 0 (tssB ^^^ 0x0000800000000000) = [excCode .ts 0x20, excCode .np 0x20] := by decide

/-- R322: a run that has not reached `end_point` is not final. -/
theorem test_run_ends : runTo 8 0x10000 0 [] bareA = .final bareA ∧
    runTo 8 0x10003 0 [] (code [0x0F, 0x00, 0xCB]) = .running (code [0x0F, 0x00, 0xCB]) := by decide +kernel

/-- R322: the fetch reaches `end_point` after one step. -/
theorem test_run_reaches_end :
    (match runTo 8 0x10003 1 [] (code [0x0F, 0x00, 0xCB]) with
     | .final t => some (t.gprs.ebx, t.eip)
     | _ => none) = some (0x18, 0x10003) := by decide +kernel

/-- Program P6: `#TS` finds no gate. -/
theorem test_nested_fault : takeException (excCode .ts 0x38) (poke taskA 0x1850 [0, 0, 0, 0, 0, 0, 0, 0]) =
    .fault .nestedFault := rfl

/-- R303: `withFetchWord` puts an instruction where a launched machine fetches it. -/
theorem test_withFetchWord : fetchInstr (State.reset.withFetchWord 8 0xCF) = .ok (.instr .iret) ∧
    (State.reset.withFetchWord 8 0xCF).inProtectedMode = true := by decide +kernel

/-! ### Witnesses: encoding, fetching, stepping -/

theorem witness_EncodeThenDecode : (Instr.str (.mem (.sib 3 .esp .ebp (.d8 0xFF)))).wellFormed = true := by decide

theorem witness_DecodeThenEncode : decode [0x0F, 0x00, 0xD8, 0xFF] = .instr (.ltr (.reg .eax)) := by decide

theorem witness_DecodeAsksForMore : (Instr.jmpPtr 0xFFFF 0xFFFFFFFF).wellFormed = true ∧
    6 < (Instr.jmpPtr 0xFFFF 0xFFFFFFFF).length := by decide

theorem fetches_code (bs : List Byte)
    (h : ∀ k (h : k < bs.length), segRead (code bs) .cs .fetch ((code bs).eip + BitVec.ofNat 32 k) 1 = .ok (bs[k]).toNat) :
    FetchesBytes (code bs) bs := h

theorem witness_StepRunsInstruction : ReadyToFetch (code (encode .iret)) ∧ Instr.iret.wellFormed = true ∧
    FetchesBytes (code (encode .iret)) (encode .iret) := ⟨⟨rfl, rfl⟩, rfl, fetches_code _ (by decide +kernel)⟩

theorem witness_IllegalFormRaisesUd : ∀ m ∈ [0xD8#8, 0xEF#8], ReadyToFetch (code [0xFF, m]) ∧ m.toNat / 64 = 3 ∧
    (m.toNat / 8 % 8 = 3 ∨ m.toNat / 8 % 8 = 5) ∧ FetchesBytes (code [0xFF, m]) [0xFF, m] := by
  intro m hm
  simp only [List.mem_cons, List.not_mem_nil, or_false] at hm
  rcases hm with rfl | rfl <;>
    exact ⟨⟨rfl, rfl⟩, by decide, by decide, fetches_code _ (by decide +kernel)⟩

theorem witness_StepRefusesOutOfScope_mode : ∀ s ∈ [State.reset, bareA.withEflags 0x20002],
    s.inProtectedMode = false := by decide

theorem witness_StepRefusesOutOfScope_code16 :
    let s := bareA.withSeg .cs { flatCode with db := false }
    s.inProtectedMode = true ∧ s.segs.cs.valid = true ∧ s.segs.cs.db = false := by decide

theorem witness_StepRefusesOutOfScope_prefixByte : ReadyToFetch (code [0xF3]) ∧
    0xF3#8 ∈ [0x26#8, 0x2E#8, 0x36#8, 0x3E#8, 0x64#8, 0x65#8, 0x66#8, 0x67#8, 0xF0#8, 0xF2#8, 0xF3#8] ∧
    FetchesBytes (code [0xF3]) [0xF3] := ⟨⟨rfl, rfl⟩, by decide, fetches_code _ (by decide +kernel)⟩

theorem witness_StepRefusesOutOfScope_noRow : ReadyToFetch (code [0x0F, 0x00, 0xD0]) ∧
    decode [0x0F, 0x00, 0xD0] = .noRow ∧ FetchesBytes (code [0x0F, 0x00, 0xD0]) [0x0F, 0x00, 0xD0] :=
  ⟨⟨rfl, rfl⟩, by decide, fetches_code _ (by decide +kernel)⟩

/-- The byte strings of R137: the second byte after `0F`, the other digits, INT3, and bytes that match a row. -/
theorem witness_StepRefusesOutOfScope_list : NoRowBytes [0x0F, 0x01] ∧ NoRowBytes [0x0F, 0x00, 0xD0] ∧
    NoRowBytes [0xFF, 0x30] ∧ NoRowBytes [0xCC] ∧ (decode [0xCC, 0x90] = .noRow) ∧ decode [0xCF] ≠ .noRow :=
  ⟨.twoByte _ (by decide), .group0F _ (by decide), .groupFF _ (by decide), .first _ (by decide), by decide, by decide⟩

theorem witness_FetchFaultRaisesGp_invalid :
    let s := bareA.withSeg .cs { flatCode with valid := false }
    s.inProtectedMode = true ∧ s.segs.cs.valid = false := by decide

theorem witness_FetchFaultRaisesGp_limit :
    let s := bareA.withSeg .cs { flatCode with limit := 0xFFFF }
    s.inProtectedMode = true ∧ s.segs.cs.db = true ∧ s.segs.cs.isCode = true ∧
      s.segs.cs.limit.toNat < s.eip.toNat := by decide

/-- A data segment in CS, and a system type. -/
theorem witness_FetchFaultRaisesGp_kind : ∀ r ∈ [flatData, { flatCode with s := false }],
    (bareA.withSeg .cs r).inProtectedMode = true ∧ (bareA.withSeg .cs r).segs.cs.db = true ∧
      ((bareA.withSeg .cs r).segs.cs.s = false ∨ (bareA.withSeg .cs r).segs.cs.type.getLsbD 3 = false) := by decide

/-- The code segment ends after the first byte of an instruction of two. -/
def shortFetch : State := (code [0x0F, 0x00]).withSeg .cs { flatCode with limit := 0x10000 }

theorem witness_FetchFaultRaisesGp_later : shortFetch.inProtectedMode = true ∧ shortFetch.segs.cs.db = true ∧
    FetchesBytes shortFetch [0x0F] ∧ decode [0x0F] = .more ∧ shortFetch.segs.cs.isCode = true ∧
    shortFetch.segs.cs.limit.toNat < (shortFetch.eip + BitVec.ofNat 32 1).toNat ∧
    segRead shortFetch .cs .fetch (shortFetch.eip + BitVec.ofNat 32 1) 1 = .error (.raise (excCode .gp 0)) := by
  have hf : ∀ k (h : k < [0x0F#8].length), segRead shortFetch .cs .fetch (shortFetch.eip + BitVec.ofNat 32 k) 1 =
      .ok ([0x0F#8][k]).toNat := by decide +kernel
  exact ⟨rfl, rfl, hf, by decide, by decide, by decide, by decide⟩

theorem witness_StepTakesExternalInterrupt_taken :
    let s := bareA.withEflags 0x202
    s.inProtectedMode = true ∧ s.eflags.getLsbD 9 = true ∧ 32 ≤ (32#8).toNat := by decide

theorem witness_StepTakesExternalInterrupt_masked : (bareA.withEflags 2).inProtectedMode = true ∧
    (bareA.withEflags 2).eflags.getLsbD 9 = false ∧ (31#8).toNat < 32 := by decide

/-! ### Witnesses: operands and memory -/

theorem witness_FarPointerInMemory :
    let s := poke bareA 0x5000 [1, 2, 3, 4, 0x20, 0]
    let m := MemOp.abs 0x5000
    s.paging = false ∧ segCheck s (operandSeg m) .read (effAddr s m) 4 = .ok () ∧
      segCheck s (operandSeg m) .read (effAddr s m + 4) 2 = .ok () ∧
      ∀ k (h : k < 6), s.mem.read (segLinear s (operandSeg m) (effAddr s m) + BitVec.ofNat 32 k).toNat =
        some ([1#8, 2, 3, 4, 0x20, 0][k]) := by decide +kernel

/-- Task A with another DS or SS. -/
def withData (n : SegName) (r : SegReg) : State := bareA.withSeg n r

def data16 : SegReg := { flatData with limit := 0xF }

theorem witness_SegmentAccessChecks_invalid : ∀ n ∈ [SegName.ss, .ds],
    let r := (withData n { flatData with valid := false }).seg n
    r.expandDown = false ∧ r.valid = false := by decide

theorem witness_SegmentAccessChecks_limit : ∀ n ∈ [SegName.ss, .ds],
    let r := (withData n data16).seg n
    r.expandDown = false ∧ r.valid = true ∧ r.limit.toNat + 1 < (0xD#32).toNat + 4 := by decide

theorem witness_SegmentAccessChecks_read :
    let r := (withData .ds data16).seg .ds
    r.expandDown = false ∧ r.valid = true ∧ (0xC#32).toNat + 4 ≤ r.limit.toNat + 1 ∧ r.readable = true ∧
      r.writable = true := by decide

/-- An execute-only code segment is not readable and not writable; a read-only data segment is not writable. -/
theorem witness_SegmentAccessChecks_rights :
    (let r := (withData .ds { data16 with type := 8 }).seg .ds
     r.expandDown = false ∧ r.valid = true ∧ (0xC#32).toNat + 4 ≤ r.limit.toNat + 1 ∧ r.readable = false ∧
       r.writable = false) ∧
    (let r := (withData .ds { data16 with type := 0 }).seg .ds
     r.expandDown = false ∧ r.readable = true ∧ r.writable = false) := by decide

/-- A fetch through a data segment, and through a code segment. -/
theorem witness_SegmentAccessChecks_fetch : ∀ ty ∈ [2#4, 10#4],
    let r := (withData .ds { data16 with type := ty }).seg .ds
    r.expandDown = false ∧ r.valid = true ∧ (0xF#32).toNat + 1 ≤ r.limit.toNat + 1 ∧
      (r.s && r.type.getLsbD 3) = decide (ty = 10) := by decide

theorem witness_LittleEndianAccess : bareA.paging = false ∧ 8 ≤ 8 := by decide

theorem witness_TssAccessIsMemoryAccess : bareA.paging = false ∧ 102 + 2 ≤ 104 := by decide

theorem witness_SetBusyWritesOneByte : taskA.paging = false ∧ taskA.mem.read (busyAddr taskA 0x18) = some 0x8B ∧
    taskA.mem.read (busyAddr taskA 0x20) = some 0x89 := by decide +kernel

theorem witness_EffectiveLimit : tssB.getLsbD 55 = false ∧ codeDesc.getLsbD 55 = true := by decide

/-- Index 100b of a SIB byte is no index; every other number is one. -/
theorem witness_EffectiveAddressForms : Reg.ebp ≠ .esp ∧ Reg.eax ≠ .esp := by decide

/-! ### Witnesses: STR and LTR -/

theorem witness_StrToRegister : bareA.inProtectedMode = true ∧ (user bareA).inProtectedMode = true := by decide

theorem witness_StrToMemory :
    let m := MemOp.base .ebp (.d8 0xFC)
    bareA.inProtectedMode = true ∧ bareA.paging = false ∧
      segCheck bareA (operandSeg m) .write (effAddr bareA m) 2 = .ok () := by decide

/-- One byte too many through DS, for the two bytes of STR and LTR, and for the offset of a far pointer. -/
theorem witness_MemoryOperandTraps :
    let s := withData .ds data16
    s.inProtectedMode = true ∧ s.cpl = 0 ∧
      segWrite s (operandSeg (.abs 0xF)) (effAddr s (.abs 0xF)) 2 s.tr.selector.toNat =
        .error (.raise (excCode .gp 0)) ∧
      segRead s (operandSeg (.abs 0xF)) .read (effAddr s (.abs 0xF)) 2 = .error (.raise (excCode .gp 0)) ∧
      segRead s (operandSeg (.abs 0xD)) .read (effAddr s (.abs 0xD)) 4 = .error (.raise (excCode .gp 0)) := by decide

/-- The offset within the segment, the selector beyond it. -/
theorem witness_MemoryOperandTraps_selector :
    let s := poke (withData .ds data16) 0xC [0, 0, 0, 0]
    s.inProtectedMode = true ∧ (∃ v, segRead s (operandSeg (.abs 0xC)) .read (effAddr s (.abs 0xC)) 4 = .ok v) ∧
      segRead s (operandSeg (.abs 0xC)) .read (effAddr s (.abs 0xC) + 4) 2 = .error (.raise (excCode .gp 0)) :=
  ⟨by decide, ok_of (by decide), by decide⟩

/-- Task A with a selector in EAX. -/
def ltrState (v : Word) : State := { taskA with gprs := { taskA.gprs with eax := v } }

theorem witness_LtrLoadsTask :
    let s := ltrState 0x20
    s.inProtectedMode = true ∧ s.paging = false ∧ s.cpl = 0 ∧ readRegMem16 s (.reg .eax) = .ok 0x20 ∧
      selNull 0x20 = false ∧ selTi 0x20 = false ∧ inGdt s 0x20 = true ∧ readDescAt s (gdtAddr s 0x20) = .ok tssB ∧
      tssB.getLsbD 44 = false ∧ tssB.extractLsb' 40 4 = 0b1001#4 ∧ tssB.getLsbD 47 = true := by decide +kernel

theorem witness_LtrIsPrivileged : (user bareA).inProtectedMode = true ∧ (user bareA).cpl ≠ 0 := by decide

theorem witness_LtrRejects_null : ∀ v ∈ [0#32, 3],
    (ltrState v).inProtectedMode = true ∧ (ltrState v).cpl = 0 ∧
      readRegMem16 (ltrState v) (.reg .eax) = .ok (v.setWidth 16) ∧ selNull (v.setWidth 16) = true := by
  simp only [List.forall_mem_cons, List.not_mem_nil, IsEmpty.forall_iff, implies_true, and_true]
  decide +kernel

/-- The hypotheses of LtrRejects but for those of its clauses. -/
abbrev Ltr (s : State) (sel : Selector) : Prop :=
  s.inProtectedMode = true ∧ s.cpl = 0 ∧ readRegMem16 s (.reg .eax) = .ok sel

theorem witness_LtrRejects_table :
    (Ltr (ltrState 0x1C) 0x1C ∧ selNull 0x1C = false ∧ selTi 0x1C = true) ∧
    (Ltr (ltrState 0x40) 0x40 ∧ selNull 0x40 = false ∧ inGdt (ltrState 0x40) 0x40 = false) := by decide +kernel

/-- Task A with 0020h in EAX and another byte 5 in the descriptor 0020h. -/
def withType (b : Byte) : State := poke (ltrState 0x20) 0x1025 [b]

/-- The descriptor 0020h with that byte 5. -/
def typed (b : Byte) : Desc := 0x0000000021000067 ||| (b.setWidth 64 <<< 40)

/-- A 16-bit TSS, a busy TSS, one that is not present, an LDT. -/
theorem witness_LtrRejects_desc : ∀ b ∈ [0x81#8, 0x8B, 0x09, 0x82],
    Ltr (withType b) 0x20 ∧ selNull 0x20 = false ∧ selTi 0x20 = false ∧ inGdt (withType b) 0x20 = true ∧
      readDescAt (withType b) (gdtAddr (withType b) 0x20) = .ok (typed b) := by
  simp only [List.forall_mem_cons, List.not_mem_nil, IsEmpty.forall_iff, implies_true, and_true]
  decide +kernel

theorem witness_LtrRejects_clauses : isTss16 (typed 0x81) = true ∧
    (isTss16 (typed 0x8B) = false ∧ descBusy (typed 0x8B) = true) ∧
    (isTss16 (typed 0x82) = false ∧ isTss32 (typed 0x82) = false) ∧
    (isTss32 (typed 0x09) = true ∧ descBusy (typed 0x09) = false ∧ descP (typed 0x09) = false) := by decide

/-! ### Witnesses: the task switch -/

theorem witness_SwitchChecks_present : descP (typed 0x09) = false ∧ 0x67 ≤ (descLimit (typed 0x09)).toNat ∧
    descBusy (typed 0x09) = false ∧ pagedIn .jmp 0x20 (typed 0x09) taskA = true := by decide +kernel

/-- The limit 66h is too small, 67h is not. -/
theorem witness_SwitchChecks_limit :
    let d : Desc := 0x0000890023000066
    descP d = true ∧ (descLimit d).toNat < 0x67 ∧ descBusy d = false ∧ pagedIn .call 0x38 d taskA = true := by
  decide +kernel

theorem witness_SwitchChecks_busy : descP busyB = true ∧ 0x67 ≤ (descLimit busyB).toNat ∧ descBusy busyB = true ∧
    Initiator.int ≠ .iret ∧ pagedIn .int 0x20 busyB taskA = true := by decide +kernel

theorem witness_SwitchChecks_notBusy : descP tssB = true ∧ 0x67 ≤ (descLimit tssB).toNat ∧ descBusy tssB = false ∧
    pagedIn .iret 0x20 tssB taskA = true := by decide +kernel

/-- Vector W17: two checks fail. -/
theorem witness_AnyFailingCheckReported : SwitchFails .jmp 0x20 (typed 0x0B) false taskA (excCode .np 0x20) ∧
    SwitchFails .jmp 0x20 (typed 0x0B) false taskA (excCode .gp 0x20) :=
  ⟨.notPresent (by decide), .busy (by decide) (by decide)⟩

/-- The TSS descriptor 0020h is not present, for a JMP that names it. -/
theorem witness_AnyFailingCheckReported_jmp :
    let s := withType 0x09
    SwitchFails .jmp 0x20 (typed 0x09) false s (excCode .np 0x20) ∧
      SwitchOf s (exec (.jmpPtr 0x20 0) s) .jmp 0x20 (typed 0x09) 0x10007 false :=
  ⟨.notPresent (by decide), .direct _ _ _ _ rfl (.jmpPtr ..)
    ⟨by decide, by decide, by decide +kernel, by decide, by decide, by decide⟩⟩

/-- The committed state of a switch. -/
def committed (init : Initiator) (nsel : Selector) (nd : Desc) (ret : Word) (s : State) : State :=
  valueOf s (commitSwitch init nsel nd ret s)

theorem apart_ab : Apart 0x20 tssB taskA where
  old := by decide +kernel
  new := by decide +kernel
  link := by decide +kernel
  busy := by decide +kernel
  oldLink := by decide +kernel
  newLink := by decide +kernel

/-- The hypotheses of SwitchSavesOldTask, SwitchMovesBusyFlags and SwitchLinksNewTask. -/
abbrev Commits (init : Initiator) : Prop := taskA.paging = false ∧ Apart 0x20 tssB taskA ∧
  ∃ s1, commitSwitch init 0x20 tssB 0x10007 taskA = .ok s1

theorem witness_SwitchSavesOldTask (init : Initiator) : Commits init := by
  refine ⟨rfl, apart_ab, ok_of ?_⟩
  cases init <;> decide +kernel

theorem witness_SwitchMovesBusyFlags : Commits .jmp ∧ Commits .iret ∧ Commits .call ∧ Commits .int :=
  ⟨witness_SwitchSavesOldTask _, witness_SwitchSavesOldTask _, witness_SwitchSavesOldTask _,
    witness_SwitchSavesOldTask _⟩

theorem witness_SwitchLinksNewTask : Commits .call ∧ Commits .int ∧ Commits .jmp ∧ Commits .iret :=
  ⟨witness_SwitchSavesOldTask _, witness_SwitchSavesOldTask _, witness_SwitchSavesOldTask _,
    witness_SwitchSavesOldTask _⟩

/-- Task A with the first 32 bytes of TSS B listed too. -/
def listedA : State := taskA.withMem (cells 0x1000 gdtBytes <| cells 0x2100 (List.replicate 32 0) <|
  cells 0x2120 (tssBody 0x20000 0xB0000000 0x9000) [])

theorem witness_SwitchPhasesAnswer (init : Initiator) : listedA.paging = false ∧
    SwitchListed init 0x20 tssB listedA :=
  ⟨rfl, fun _ => by decide +kernel, fun _ => by decide +kernel, by decide +kernel⟩

/-! ### A switch that completes, evaluated once each -/

def noImage : TaskImage :=
  { ldt := 0, cr3 := 0, eflags := 0, eip := 0, gprs := bareA.gprs, es := 0, cs := 0, ss := 0, ds := 0, fs := 0, gs := 0
    trap := false }

/-- The image of the new task in the committed state. -/
def imageOf (nd : Desc) (s1 : State) : TaskImage := valueOf noImage (readTask s1 (descBase nd))

/-- The rows of a segment register hold, by evaluation. -/
def segOk (u : State) (cpl : BitVec 2) (sel : Selector) (n : SegName) : Option Desc → Bool
  | none => decide (n ≠ .cs) && decide (n ≠ .ss) && selNull sel
  | some d =>
    !selNull sel && decide (readDesc u sel = .ok (some d)) && rowKind n d && rowPrivilege n cpl sel d && d.getLsbD 47

theorem segOk_iff {u : State} {cpl : BitVec 2} {sel : Selector} {n : SegName} {d : Option Desc} :
    segOk u cpl sel n d = true ↔ SegQualifies u cpl n sel d := by
  cases d <;> simp [segOk, SegQualifies, and_assoc]

/-- The rows of every segment register but one, or of all. -/
def segsOk (skip : Option SegName) (img : TaskImage) (segs : NewSegs) (u : State) : Bool :=
  qualifyOrder.all fun n => decide (skip = some n) || segOk u (selRpl img.cs) (imageSel img n) n (segs.get n)

theorem segsOk_iff {skip : Option SegName} {img : TaskImage} {segs : NewSegs} {u : State}
    (h : segsOk skip img segs u = true) (n : SegName) (hn : skip ≠ some n) :
    SegQualifies u (selRpl img.cs) n (imageSel img n) (segs.get n) := by
  have hm : n ∈ qualifyOrder := by cases n <;> decide
  have := List.all_eq_true.1 h n hm
  simp only [hn, decide_false, Bool.false_or] at this
  exact segOk_iff.1 this

/-- The LDT selector is null. -/
def noLdt (img : TaskImage) (segs : NewSegs) : Bool := decide (segs.ldt = none) && selNull img.ldt

theorem noLdt_qualifies {s : State} {img : TaskImage} {segs : NewSegs} (h : noLdt img segs = true) :
    LdtQualifies s img.ldt segs.ldt := by
  simp only [noLdt, Bool.and_eq_true, decide_eq_true_eq] at h
  rw [h.1]
  exact h.2

/-- The switch commits, and the new task's image passes `p` (in the state in which step 13 looks its selectors up). -/
def reaches (init : Initiator) (nsel : Selector) (nd : Desc) (ret : Word) (s : State) (segs : NewSegs)
    (p : TaskImage → State → Bool) : Bool :=
  isOk (commitSwitch init nsel nd ret s) && isOk (readTask (committed init nsel nd ret s) (descBase nd)) &&
  p (imageOf nd (committed init nsel nd ret s))
    (withNewLdtr init (imageOf nd (committed init nsel nd ret s)) segs (committed init nsel nd ret s))

theorem reaches_iff {init : Initiator} {nsel : Selector} {nd : Desc} {ret : Word} {s : State} {segs : NewSegs}
    {p : TaskImage → State → Bool} (h : reaches init nsel nd ret s segs p = true) :
    ∃ s1 img, commitSwitch init nsel nd ret s = .ok s1 ∧ readTask s1 (descBase nd) = .ok img ∧
      p img (withNewLdtr init img segs s1) = true := by
  simp only [reaches, Bool.and_eq_true] at h
  obtain ⟨⟨h1, h2⟩, h3⟩ := h
  exact ⟨_, _, eq_ok s h1, eq_ok noImage h2, h3⟩

/-- The image qualifies in step 13, and its EIP and T flag are as `q` asks. -/
def qualifiesAnd (segs : NewSegs) (q : TaskImage → Bool) (img : TaskImage) (u : State) : Bool :=
  !img.eflags.getLsbD 17 && noLdt img segs && segsOk none img segs u && q img

theorem qualifies_of {init : Initiator} {img : TaskImage} {segs : NewSegs} {s : State} {q : TaskImage → Bool}
    (h : qualifiesAnd segs q img (withNewLdtr init img segs s) = true) :
    img.eflags.getLsbD 17 = false ∧ Qualifies init img segs s ∧ q img = true := by
  simp only [qualifiesAnd, Bool.and_eq_true, Bool.not_eq_true'] at h
  obtain ⟨⟨⟨h1, h2⟩, h3⟩, h4⟩ := h
  exact ⟨h1, ⟨noLdt_qualifies h2, fun n => segsOk_iff h3 n (by simp)⟩, h4⟩

/-- EIP within the code segment, no debug trap. -/
def plainStart (segs : NewSegs) (img : TaskImage) : Bool :=
  decide (img.eip.toNat ≤ (descLimit segs.cs).toNat) && !img.trap

theorem completes_of {init : Initiator} {nsel : Selector} {nd : Desc} {ret : Word} {s : State} {segs : NewSegs}
    (hc : ChecksPass init nsel nd s)
    (h : reaches init nsel nd ret s segs (qualifiesAnd segs (plainStart segs)) = true) :
    ∃ s1 img, Completes init nsel nd ret s s1 img segs := by
  obtain ⟨s1, img, h1, h2, h3⟩ := reaches_iff h
  obtain ⟨h4, h5, h6⟩ := qualifies_of h3
  simp only [plainStart, Bool.and_eq_true, decide_eq_true_eq, Bool.not_eq_true'] at h6
  exact ⟨s1, img, hc, h1, ⟨h2, h4, h5, h6.1⟩, h6.2⟩

theorem checks_jmp : ChecksPass .jmp 0x20 tssB taskA := ⟨by decide, by decide, by decide, by decide +kernel⟩
theorem checks_call : ChecksPass .call 0x20 tssB taskA := ⟨by decide, by decide, by decide, by decide +kernel⟩
theorem checks_int : ChecksPass .int 0x30 tssC taskA := ⟨by decide, by decide, by decide, by decide +kernel⟩
theorem checks_iret : ChecksPass .iret 0x20 busyB nestedA := ⟨by decide, by decide, by decide, by decide +kernel⟩

theorem completes_jmp : ∃ s1 img, Completes .jmp 0x20 tssB 0x10007 taskA s1 img taskSegs :=
  completes_of checks_jmp (by decide +kernel)

theorem completes_call : ∃ s1 img, Completes .call 0x20 tssB 0x10007 taskA s1 img taskSegs :=
  completes_of checks_call (by decide +kernel)

theorem completes_int : ∃ s1 img, Completes .int 0x30 tssC 0x10002 taskA s1 img taskSegs :=
  completes_of checks_int (by decide +kernel)

theorem completes_event : ∃ s1 img, Completes .int 0x30 tssC 0x10000 taskA s1 img taskSegs :=
  completes_of checks_int (by decide +kernel)

theorem completes_iret : ∃ s1 img, Completes .iret 0x20 busyB 0x10001 nestedA s1 img taskSegs :=
  completes_of checks_iret (by decide +kernel)

/-- The hypothesis of SwitchLoadsTr, SwitchLoadsEflags and SwitchLoadsContext. -/
abbrev Switches (init : Initiator) (nsel : Selector) (nd : Desc) (ret : Word) (s : State) : Prop :=
  ∃ sw, taskSwitch init nsel nd ret false [] s = .ok sw

theorem switches_of {init : Initiator} {nsel : Selector} {nd : Desc} {ret : Word} {s : State}
    (h : ∃ s1 img, Completes init nsel nd ret s s1 img taskSegs) : Switches init nsel nd ret s := by
  obtain ⟨_, _, h⟩ := h
  exact ⟨_, switch_done h⟩

theorem witness_SwitchLoadsTr : Switches .jmp 0x20 tssB 0x10007 taskA := switches_of completes_jmp

theorem witness_SwitchLoadsEflags : Switches .call 0x20 tssB 0x10007 taskA ∧
    Switches .jmp 0x20 tssB 0x10007 taskA := ⟨switches_of completes_call, switches_of completes_jmp⟩

theorem witness_SwitchLoadsContext : Switches .iret 0x20 busyB 0x10001 nestedA ∧ nestedA.paging = false :=
  ⟨switches_of completes_iret, rfl⟩

/-- Vector W6: the EFLAGS field of TSS B has VM = 1. -/
theorem witness_VirtualTaskRefused :
    let s := poke taskA 0x2126 [2]
    SwitchOf s (exec (.jmpPtr 0x20 0) s) .jmp 0x20 tssB 0x10007 false ∧ ChecksPass .jmp 0x20 tssB s ∧ ∃ s1 img, commitSwitch .jmp 0x20 tssB 0x10007 s = .ok s1 ∧
      readTask s1 (descBase tssB) = .ok img ∧ img.eflags.getLsbD 17 = true := by
  refine ⟨.direct _ _ _ _ rfl (.jmpPtr ..) ⟨by decide, by decide, by decide +kernel, by decide, by decide, by decide⟩,
    ⟨by decide, by decide, by decide, by decide +kernel⟩, ?_⟩
  exact reaches_iff (segs := taskSegs) (p := fun img _ => img.eflags.getLsbD 17) (by decide +kernel)

/-! ### Witnesses: the instructions and events that switch tasks -/

theorem zero_le_dpl (d : BitVec 2) : 0 ≤ d := Nat.zero_le _

theorem direct_b : DirectTarget taskA 0x20 tssB where
  notNull := by decide
  ti := by decide
  desc := by decide +kernel
  tss := by decide
  cpl := by decide
  rpl := by decide

theorem names_b : GateNames taskA gateB tssB where
  ti := by decide
  inTable := by decide
  desc := by decide +kernel
  tss := by decide

theorem gated_b : GatedTarget taskA 0x28 gateB tssB where
  notNull := by decide
  desc := by decide +kernel
  gate := by decide
  present := by decide
  cpl := by decide
  rpl := by decide
  names := names_b

theorem idt_c (v : Byte) (cls : EventClass) (g : Desc) (hv : inIdt taskA v = true)
    (hd : readDescAt taskA (idtAddr taskA v) = .ok g) (hg : isTaskGate g = true ∧ descP g = true ∧ gateSel g = 0x30) :
    IdtTarget taskA v cls g tssC where
  inTable := hv
  desc := hd
  gate := hg.1
  present := hg.2.1
  dpl := fun _ => zero_le_dpl _
  names := { ti := by rw [hg.2.2]; rfl, inTable := by rw [hg.2.2]; rfl
             desc := by rw [hg.2.2]; decide +kernel, tss := by decide }

theorem witness_JmpEntersTask : taskA.inProtectedMode = true ∧ FarSelector taskA (.jmpPtr 0x20 0) .jmp 0x20 ∧
    DirectTarget taskA 0x20 tssB ∧ ∃ s1 img, Completes .jmp 0x20 tssB 0x10007 taskA s1 img taskSegs :=
  ⟨rfl, .jmpPtr .., direct_b, completes_jmp⟩

theorem witness_JmpThroughGateEntersTask : taskA.inProtectedMode = true ∧
    FarSelector taskA (.jmpPtr 0x28 0) .jmp 0x28 ∧ GatedTarget taskA 0x28 gateB tssB ∧
    ∃ s1 img, Completes .jmp (gateSel gateB) tssB 0x10007 taskA s1 img taskSegs :=
  ⟨rfl, .jmpPtr .., gated_b, completes_jmp⟩

theorem witness_CallEntersTask : taskA.inProtectedMode = true ∧ FarSelector taskA (.callPtr 0x20 0) .call 0x20 ∧
    DirectTarget taskA 0x20 tssB ∧ ∃ s1 img, Completes .call 0x20 tssB 0x10007 taskA s1 img taskSegs :=
  ⟨rfl, .callPtr .., direct_b, completes_call⟩

theorem witness_CallThroughGateEntersTask : taskA.inProtectedMode = true ∧
    FarSelector taskA (.callPtr 0x28 0) .call 0x28 ∧ GatedTarget taskA 0x28 gateB tssB ∧
    ∃ s1 img, Completes .call (gateSel gateB) tssB 0x10007 taskA s1 img taskSegs :=
  ⟨rfl, .callPtr .., gated_b, completes_call⟩

/-- The memory forms of the far pointer. -/
theorem witness_FarSelector_memory : FarSelector (poke bareA 0x5000 [0, 0, 0, 0, 0x20, 0]) (.jmpMem (.abs 0x5000)) .jmp 0x20 ∧
    FarSelector (poke bareA 0x5000 [0, 0, 0, 0, 0x20, 0]) (.callMem (.abs 0x5000)) .call 0x20 :=
  ⟨.jmpMem _ _ (by decide +kernel), .callMem _ _ (by decide +kernel)⟩

theorem idt_30 : IdtTarget taskA 0x30 .softInt gateC3 tssC :=
  idt_c _ _ _ (by decide) (by decide +kernel) (by decide)

theorem idt_30_ext : IdtTarget taskA 0x30 .extInt gateC3 tssC :=
  idt_c _ _ _ (by decide) (by decide +kernel) (by decide)

theorem idt_gp : IdtTarget taskA (vectorOf .gp) .exception gateC tssC :=
  idt_c _ _ _ (by decide) (by decide +kernel) (by decide)

theorem witness_IntEntersHandler : taskA.inProtectedMode = true ∧ IdtTarget taskA 0x30 .softInt gateC3 tssC ∧
    ∃ s1 img, Completes .int (gateSel gateC3) tssC 0x10002 taskA s1 img taskSegs := ⟨rfl, idt_30, completes_int⟩

theorem link_b : LinkTarget nestedA 0x20 busyB where
  reads := ⟨0x20, by decide +kernel, rfl⟩
  ti := by decide
  inTable := by decide
  desc := by decide +kernel
  tss := by decide

theorem witness_IretReturnsToTask : nestedA.inProtectedMode = true ∧ nestedA.eflags.getLsbD 14 = true ∧
    LinkTarget nestedA 0x20 busyB ∧ ∃ s1 img, Completes .iret 0x20 busyB 0x10001 nestedA s1 img taskSegs :=
  ⟨rfl, rfl, link_b, completes_iret⟩

/-- Task A with a gate to C for `#UD`. -/
def withUd : State := poke taskA 0x1830 [0, 0, 0x30, 0, 0, 0x85, 0, 0]

theorem witness_ExceptionEntersHandler : (exc .ud).code = .none ∧
    IdtTarget withUd (vectorOf (exc .ud).name) .exception gateC tssC ∧
    ∃ s1 img, Completes .int (gateSel gateC) tssC withUd.eip withUd s1 img taskSegs :=
  ⟨rfl, ⟨by decide, by decide +kernel, by decide, by decide, fun _ => zero_le_dpl _,
    ⟨by decide, by decide, by decide +kernel, by decide⟩⟩,
    completes_of ⟨by decide, by decide, by decide, by decide +kernel⟩ (by decide +kernel)⟩

/-- The handler task C of an exception, and the push of an error code on its stack. -/
theorem pushes_c {s : State} (hc : ChecksPass .int 0x30 tssC s)
    (h : reaches .int 0x30 tssC 0x10000 s taskSegs
      (qualifiesAnd taskSegs fun i => plainStart taskSegs i && decide (i.gprs.esp = 0xA000)) = true) :
    ∃ s1 img, Completes .int 0x30 tssC 0x10000 s s1 img taskSegs ∧
      (entered .int img taskSegs s1).segs.ss.within (img.gprs.esp - 4) 4 = true := by
  obtain ⟨s1, img, h1, h2, h3⟩ := reaches_iff h
  obtain ⟨h4, h5, h6⟩ := qualifies_of h3
  simp only [plainStart, Bool.and_eq_true, decide_eq_true_eq, Bool.not_eq_true'] at h6
  refine ⟨s1, img, ⟨hc, h1, ⟨h2, h4, h5, h6.1.1⟩, h6.1.2⟩, ?_⟩
  rw [h6.2]
  have h : (flatData.load dataDesc).within 0x9FFC 4 = true := by decide +kernel
  exact h

theorem witness_ExceptionPushesErrorCode : taskA.paging = false ∧ (excCode .gp 0x18).code = .value 0x18 ∧
    IdtTarget taskA (vectorOf (excCode .gp 0x18).name) .exception gateC tssC ∧
    ∃ s1 img, Completes .int (gateSel gateC) tssC taskA.eip taskA s1 img taskSegs ∧
      (entered .int img taskSegs s1).segs.ss.within (img.gprs.esp - 4) 4 = true :=
  ⟨rfl, rfl, idt_gp, pushes_c checks_int (by decide +kernel)⟩

/-- Task A with a gate to C for `#PF`. -/
def withPf : State := poke taskA 0x1870 [0, 0, 0x30, 0, 0, 0x85, 0, 0]

theorem idt_pf : IdtTarget withPf (vectorOf excPf.name) .exception gateC tssC :=
  ⟨by decide, by decide +kernel, by decide, by decide, fun _ => zero_le_dpl _,
    ⟨by decide, by decide, by decide +kernel, by decide⟩⟩

/-- The premises of both clauses, for a page fault. -/
theorem witness_ExceptionPushesErrorCode_pageFault : withPf.paging = false ∧ excPf.code ≠ .none ∧
    IdtTarget withPf (vectorOf excPf.name) .exception gateC tssC ∧
    ∃ s1 img, Completes .int (gateSel gateC) tssC withPf.eip withPf s1 img taskSegs ∧
      (entered .int img taskSegs s1).segs.ss.within (img.gprs.esp - 4) 4 = true ∧
      ∃ w, segWrite (entered .int img taskSegs s1) .ss (img.gprs.esp - 4) 4 0 = .ok w := by
  obtain ⟨s1, img, h, hw⟩ := pushes_c (s := withPf) ⟨by decide, by decide, by decide, by decide +kernel⟩
    (by decide +kernel)
  refine ⟨rfl, by decide, idt_pf, s1, img, h, hw, ?_⟩
  have hp : (entered .int img taskSegs s1).paging = false := by
    rw [State.paging, (entered_frame h.commits h.loads).cr0]
    rfl
  have hv : ((entered .int img taskSegs s1).seg .ss).valid = true := rfl
  have ha : ((entered .int img taskSegs s1).seg .ss).allows .write = true := by
    show isWritableData dataDesc = true
    decide
  have hw : ((entered .int img taskSegs s1).seg .ss).within (img.gprs.esp - 4) 4 = true := hw
  simp only [segWrite, segCheck, hv, hw, ha, require_true, Res.ok_bind, memWrite_flat hp]
  exact ⟨_, rfl⟩

theorem witness_ExternalInterruptEntersHandler : IdtTarget taskA 0x30 .extInt gateC3 tssC ∧
    ∃ s1 img, Completes .int (gateSel gateC3) tssC taskA.eip taskA s1 img taskSegs := ⟨idt_30_ext, completes_event⟩

/-! ### Witnesses: traps and refusals -/

/-- A far transfer by a pointer in the instruction. -/
abbrev Far (s : State) (init : Initiator) (sel : Selector) : Prop :=
  s.inProtectedMode = true ∧
    ((init = .jmp ∧ FarSelector s (.jmpPtr sel 0) .jmp sel) ∨ (init = .call ∧ FarSelector s (.callPtr sel 0) .call sel))

theorem far_jmp {s : State} {sel : Selector} (h : s.inProtectedMode = true) : Far s .jmp sel :=
  ⟨h, .inl ⟨rfl, .jmpPtr ..⟩⟩

theorem far_call {s : State} {sel : Selector} (h : s.inProtectedMode = true) : Far s .call sel :=
  ⟨h, .inr ⟨rfl, .callPtr ..⟩⟩

theorem witness_FarTransferRejects_null : Far taskA .jmp 3 ∧ selNull 3 = true ∧ selNull 0 = true ∧
    selNull 4 = false := ⟨far_jmp rfl, by decide, by decide, by decide⟩

/-- The first selector beyond the GDT, and one of the LDT when there is none. -/
theorem witness_FarTransferRejects_outOfTable :
    let s := taskA.withLdtr { taskA.ldtr with valid := false }
    (Far s .jmp 0x40 ∧ selNull 0x40 = false ∧ readDesc s 0x40 = .ok none) ∧
    (Far s .jmp 0xC ∧ selNull 0xC = false ∧ readDesc s 0xC = .ok none) :=
  ⟨⟨far_jmp rfl, by decide, by decide +kernel⟩, ⟨far_jmp rfl, by decide, by decide +kernel⟩⟩

theorem witness_FarTransferRejects_segment : Far taskA .call 8 ∧ selNull 8 = false ∧
    readDesc taskA 8 = .ok (some codeDesc) ∧ codeDesc.getLsbD 44 = true :=
  ⟨far_call rfl, by decide, by decide +kernel, by decide⟩

theorem witness_FarTransferRejects_types : ∀ b ∈ [0x81#8, 0x83, 0x84, 0x8C, 0x80, 0x8F],
    (withType b).inProtectedMode = true ∧ selNull 0x20 = false ∧
      readDesc (withType b) 0x20 = .ok (some (typed b)) ∧ (typed b).getLsbD 44 = false ∧
      (typed b).extractLsb' 40 4 = b.setWidth 4 := by
  simp only [List.forall_mem_cons, List.not_mem_nil, IsEmpty.forall_iff, implies_true, and_true]
  decide +kernel

/-- The cause of vector X3 at CPL 3. -/
theorem witness_FarPrivilegeRaisesGp_cpl : Far (user taskA) .jmp 0x20 ∧ selNull 0x20 = false ∧
    readDesc (user taskA) 0x20 = .ok (some tssB) ∧ isTss32 tssB = true ∧ ChecksPass .jmp 0x20 tssB (user taskA) ∧
    descDpl tssB < (user taskA).cpl :=
  ⟨far_jmp rfl, by decide, by decide +kernel, by decide, ⟨by decide, by decide, by decide, by decide +kernel⟩,
    by decide⟩

/-- Vector X3, with CALL. -/
theorem witness_FarPrivilegeRaisesGp_rpl : Far taskA .call 0x23 ∧ selNull 0x23 = false ∧
    readDesc taskA 0x23 = .ok (some tssB) ∧ isTss32 tssB = true ∧ ChecksPass .call 0x23 tssB taskA ∧
    descDpl tssB < selRpl 0x23 :=
  ⟨far_call rfl, by decide, by decide +kernel, by decide, ⟨by decide, by decide, by decide, by decide +kernel⟩,
    by decide⟩

/-- A TSS descriptor in the LDT. -/
theorem witness_FarPrivilegeRaisesGp_ldt :
    let s := taskA.withLdtr { taskA.ldtr with base := 0x1000, limit := 0x3F }
    Far s .jmp 0x24 ∧ selNull 0x24 = false ∧ readDesc s 0x24 = .ok (some tssB) ∧ isTss32 tssB = true ∧
      ChecksPass .jmp 0x24 tssB s ∧ selTi 0x24 = true :=
  ⟨far_jmp rfl, by decide, by decide +kernel, by decide, ⟨by decide, by decide, by decide, by decide +kernel⟩,
    by decide⟩

/-- Vector X8 (RPL 3, gate DPL 0). -/
theorem witness_GateChecksRaise_privilege : Far taskA .jmp 0x2B ∧ selNull 0x2B = false ∧
    readDesc taskA 0x2B = .ok (some gateB) ∧ isTaskGate gateB = true ∧ GateNames taskA gateB tssB ∧
    ChecksPass .jmp (gateSel gateB) tssB taskA ∧ descP gateB = true ∧ descDpl gateB < selRpl 0x2B :=
  ⟨far_jmp rfl, by decide, by decide +kernel, by decide, names_b, checks_jmp, by decide, by decide⟩

/-- The gate 0028h names a selector of the LDT (vector X10). -/
def gateLdt : Desc := 0x0000850000240000

theorem witness_GateChecksRaise_target :
    let s := poke taskA 0x102A [0x24]
    Far s .jmp 0x28 ∧ selNull 0x28 = false ∧ readDesc s 0x28 = .ok (some gateLdt) ∧ isTaskGate gateLdt = true ∧
      descP gateLdt = true ∧ s.cpl ≤ descDpl gateLdt ∧ selRpl 0x28 ≤ descDpl gateLdt ∧
      gateTarget s (gateSel gateLdt) false = .error (.raise (excCode .gp 0x24)) :=
  ⟨far_jmp rfl, by decide, by decide +kernel, by decide, by decide, by decide, by decide, by decide +kernel⟩

/-- Vector X9: the gate is not present. -/
theorem witness_GateChecksRaise_present :
    let s := poke taskA 0x102D [0x05]
    let g : Desc := 0x0000050000200000
    Far s .call 0x28 ∧ selNull 0x28 = false ∧ readDesc s 0x28 = .ok (some g) ∧ isTaskGate g = true ∧
      GateNames s g tssB ∧ ChecksPass .call (gateSel g) tssB s ∧ descP g = false ∧ s.cpl ≤ descDpl g ∧
      selRpl 0x28 ≤ descDpl g :=
  ⟨far_call rfl, by decide, by decide +kernel, by decide, ⟨by decide, by decide, by decide +kernel, by decide⟩,
    ⟨by decide, by decide, by decide, by decide +kernel⟩, by decide, by decide, by decide⟩

/-- Vectors X10, X11; 0038h is the last selector in the table, 0040h the first beyond it. -/
theorem witness_GateTargetRejects : selTi 0x24 = true ∧
    (selTi 0x40 = false ∧ taskA.gdtr.limit.toNat < 8 * ((0x40#16).toNat / 8) + 7) ∧
    (selTi 0x38 = false ∧ 8 * ((0x38#16).toNat / 8) + 7 ≤ taskA.gdtr.limit.toNat) ∧
    (readDescAt taskA (gdtAddr taskA 0x08) = .ok codeDesc ∧ isTss16 codeDesc = false ∧ isTss32 codeDesc = false) ∧
    (readDescAt (withType 0x81) (gdtAddr taskA 0x20) = .ok (typed 0x81) ∧ isTss16 (typed 0x81) = true) ∧
    (readDescAt taskA (gdtAddr taskA 0x20) = .ok tssB ∧ isTss32 tssB = true) := by decide +kernel

theorem direct_a : DirectTarget taskA 0x18 tssA where
  notNull := by decide
  ti := by decide
  desc := by decide +kernel
  tss := by decide
  cpl := by decide
  rpl := by decide

/-- Vector X4: the own task. -/
theorem witness_BusyTargetRaisesGp_direct : taskA.inProtectedMode = true ∧ descBusy tssA = true ∧ descP tssA = true ∧
    0x67 ≤ (descLimit tssA).toNat ∧ FarSelector taskA (.jmpPtr 0x18 0) .jmp 0x18 ∧ DirectTarget taskA 0x18 tssA ∧
    pagedIn .jmp 0x18 tssA taskA = true :=
  ⟨rfl, by decide, by decide, by decide, .jmpPtr .., direct_a, by decide +kernel⟩

/-- The gate 0028h names TSS A. -/
def gateA : Desc := 0x0000850000180000

theorem witness_BusyTargetRaisesGp_gate :
    let s := poke taskA 0x102A [0x18]
    s.inProtectedMode = true ∧ FarSelector s (.callPtr 0x28 0) .call 0x28 ∧ GatedTarget s 0x28 gateA tssA ∧
      pagedIn .call (gateSel gateA) tssA s = true :=
  ⟨rfl, .callPtr .., ⟨by decide, by decide +kernel, by decide, by decide, by decide, by decide,
    ⟨by decide, by decide, by decide +kernel, by decide⟩⟩, by decide +kernel⟩

/-- The vector 13 names TSS A. -/
theorem idt_a (cls : EventClass) : IdtTarget (poke taskA 0x186A [0x18]) 13 cls gateA tssA where
  inTable := by decide
  desc := by decide +kernel
  gate := by decide
  present := by decide
  dpl := fun _ => by decide
  names := ⟨by decide, by decide, by decide +kernel, by decide⟩

theorem witness_BusyTargetRaisesGp_int : (poke taskA 0x186A [0x18]).inProtectedMode = true ∧ IdtTarget (poke taskA 0x186A [0x18]) 13 .softInt gateA tssA ∧
    pagedIn .int (gateSel gateA) tssA (poke taskA 0x186A [0x18]) = true := ⟨rfl, idt_a _, by decide +kernel⟩

theorem witness_BusyTargetRaisesGp_external : (poke taskA 0x186A [0x18]).inProtectedMode = true ∧
    IdtTarget (poke taskA 0x186A [0x18]) 13 .extInt gateA tssA ∧
    pagedIn .int (gateSel gateA) tssA (poke taskA 0x186A [0x18]) = true := ⟨rfl, idt_a _, by decide +kernel⟩

/-- The last vector in the IDT is 3Fh (vector X19: 40h is beyond it). -/
theorem witness_InterruptRejects_table : taskA.inProtectedMode = true ∧ inIdt taskA 0x40 = false ∧
    inIdt taskA 0x3F = true := by decide

/-- An interrupt gate, and a type that is no gate. -/
theorem witness_InterruptRejects_type : ∀ b ∈ [0x8E#8, 0x80],
    let g : Desc := 0x0000000000300000 ||| (b.setWidth 64 <<< 40)
    (poke taskA 0x186D [b]).inProtectedMode = true ∧ inIdt (poke taskA 0x186D [b]) 13 = true ∧
      readDescAt (poke taskA 0x186D [b]) (idtAddr taskA 13) = .ok g ∧ isTaskGate g = false ∧
      isIntGate g = decide (b = 0x8E) := by
  simp only [List.forall_mem_cons, List.not_mem_nil, IsEmpty.forall_iff, implies_true, and_true]
  decide +kernel

/-- Vector X20: DPL 0 at CPL 3. -/
theorem witness_InterruptRejects_dpl :
    let s := user taskA
    s.inProtectedMode = true ∧ inIdt s 13 = true ∧ readDescAt s (idtAddr s 13) = .ok gateC ∧
      isTaskGate gateC = true ∧ GateNames s gateC tssC ∧ ChecksPass .int (gateSel gateC) tssC s ∧
      descP gateC = true ∧ descDpl gateC < s.cpl :=
  ⟨rfl, by decide, by decide +kernel, by decide, ⟨by decide, by decide, by decide +kernel, by decide⟩,
    ⟨by decide, by decide, by decide, by decide +kernel⟩, by decide, by decide⟩

theorem witness_InterruptRejects_present :
    let s := poke taskA 0x186D [0x05]
    let g : Desc := 0x0000050000300000
    s.inProtectedMode = true ∧ inIdt s 13 = true ∧ readDescAt s (idtAddr s 13) = .ok g ∧ isTaskGate g = true ∧
      GateNames s g tssC ∧ ChecksPass .int (gateSel g) tssC s ∧ descP g = false ∧ s.cpl ≤ descDpl g :=
  ⟨rfl, by decide, by decide +kernel, by decide, ⟨by decide, by decide, by decide +kernel, by decide⟩,
    ⟨by decide, by decide, by decide, by decide +kernel⟩, by decide, by decide⟩

/-- Vector 13 with a task gate whose TSS selector is in the LDT. -/
theorem witness_InterruptRejects_target :
    let s := poke taskA 0x186A [0x24]
    s.inProtectedMode = true ∧ inIdt s 13 = true ∧ readDescAt s (idtAddr s 13) = .ok gateLdt ∧
      isTaskGate gateLdt = true ∧ descP gateLdt = true ∧ s.cpl ≤ descDpl gateLdt ∧
      gateTarget s (gateSel gateLdt) false = .error (.raise (excCode .gp 0x24)) ∧
      gateTarget s (gateSel gateLdt) true = .error (.raise (excCode .gp 0x25)) := by decide +kernel

/-- Vector X13. -/
theorem witness_IretRejects_nt : bareA.inProtectedMode = true ∧ bareA.eflags.getLsbD 14 = false := by decide

/-- A nested task A whose link is `sel`, the descriptor 0020h having byte 5 `b`. -/
def linked (sel b : Byte) : State := poke (poke nestedA 0x800 [sel]) 0x1025 [b]

/-- The hypotheses of IretRejects but for those of its clauses. -/
abbrev Iret (s : State) (link : Selector) : Prop :=
  s.inProtectedMode = true ∧ s.eflags.getLsbD 14 = true ∧ tssHalf s s.tr.base 0 = .ok link

/-- Vector X15, and the first selector beyond the GDT. -/
theorem witness_IretRejects_table :
    (Iret (linked 0x24 0x8B) 0x24 ∧ selTi 0x24 = true) ∧
    (Iret (linked 0x40 0x8B) 0x40 ∧ inGdt (linked 0x40 0x8B) 0x40 = false) := by decide +kernel

/-- A link to a 16-bit TSS, and to a code segment (vector X17). -/
theorem witness_IretRejects_type :
    (Iret (linked 0x20 0x83) 0x20 ∧ selTi 0x20 = false ∧ inGdt (linked 0x20 0x83) 0x20 = true ∧
      readDescAt (linked 0x20 0x83) (gdtAddr (linked 0x20 0x83) 0x20) = .ok (typed 0x83) ∧
      isTss16 (typed 0x83) = true) ∧
    (Iret (linked 8 0x8B) 8 ∧ selTi 8 = false ∧ inGdt (linked 8 0x8B) 8 = true ∧
      readDescAt (linked 8 0x8B) (gdtAddr (linked 8 0x8B) 8) = .ok codeDesc ∧ isTss16 codeDesc = false ∧
      isTss32 codeDesc = false) := by decide +kernel

/-- Vector X14: the task the link names is not busy. -/
theorem witness_IretRejects_notBusy :
    let s := linked 0x20 0x89
    Iret s 0x20 ∧ selTi 0x20 = false ∧ inGdt s 0x20 = true ∧ readDescAt s (gdtAddr s 0x20) = .ok tssB ∧
      isTss32 tssB = true ∧ descBusy tssB = false ∧ descP tssB = true ∧ 0x67 ≤ (descLimit tssB).toNat ∧
      pagedIn .iret 0x20 tssB s = true := by decide +kernel

/-- Vector 13 beyond the IDT by one byte. -/
theorem witness_NestedException_table :
    inIdt { taskA with idtr := { base := 0x1800, limit := 0x6E } } (vectorOf .gp) = false ∧
    inIdt { taskA with idtr := { base := 0x1800, limit := 0x6F } } (vectorOf .gp) = true := by decide

/-- Vector 13 with an interrupt gate, and with no gate. -/
theorem witness_NestedException_type :
    let g : Desc := 0x00008E0000300000
    let d : Desc := 0x0000800000300000
    (inIdt (poke taskA 0x186D [0x8E]) (vectorOf .gp) = true ∧
      readDescAt (poke taskA 0x186D [0x8E]) (idtAddr taskA (vectorOf .gp)) = .ok g ∧ isIntGate g = true) ∧
    (inIdt (poke taskA 0x186D [0x80]) (vectorOf .gp) = true ∧
      readDescAt (poke taskA 0x186D [0x80]) (idtAddr taskA (vectorOf .gp)) = .ok d ∧ isIntGate d = false ∧
      isTaskGate d = false) := by decide +kernel

/-- Vector 13 with a task gate that is not present, and with one whose TSS selector is in the LDT. -/
theorem witness_NestedException_gate :
    let g : Desc := 0x0000050000300000
    (inIdt (poke taskA 0x186D [0x05]) (vectorOf .gp) = true ∧
      readDescAt (poke taskA 0x186D [0x05]) (idtAddr taskA (vectorOf .gp)) = .ok g ∧ isTaskGate g = true ∧
      descP g = false) ∧
    (inIdt (poke taskA 0x186A [0x24]) (vectorOf .gp) = true ∧
      readDescAt (poke taskA 0x186A [0x24]) (idtAddr taskA (vectorOf .gp)) = .ok gateLdt ∧
      isTaskGate gateLdt = true ∧
      gateTarget (poke taskA 0x186A [0x24]) (gateSel gateLdt) true = .error (.raise (excCode .gp 0x25))) := by
  decide +kernel

theorem witness_NestedException_busy :
    IdtTarget (poke taskA 0x186A [0x18]) (vectorOf .gp) .exception gateA tssA ∧
    SwitchFails .int (gateSel gateA) tssA true (poke taskA 0x186A [0x18]) (excCode .gp 0x19) :=
  ⟨idt_a _, .busy (by decide) (by decide)⟩

/-- The handler TSS of the vector 13 is not present, and (vector 13 naming 0038h) has the limit 66h. -/
theorem witness_NestedException_checks :
    (let nd : Desc := 0x0000090022000067
     IdtTarget (poke taskA 0x1035 [0x09]) (vectorOf .gp) .exception gateC nd ∧
      SwitchFails .int (gateSel gateC) nd true (poke taskA 0x1035 [0x09]) (excCode .np 0x31)) ∧
    (let g : Desc := 0x0000850000380000
     let nd : Desc := 0x0000890023000066
     IdtTarget (poke taskA 0x186A [0x38]) (vectorOf .gp) .exception g nd ∧
      SwitchFails .int (gateSel g) nd true (poke taskA 0x186A [0x38]) (excCode .ts 0x39)) :=
  ⟨⟨⟨by decide, by decide +kernel, by decide, by decide, fun _ => zero_le_dpl _,
      ⟨by decide, by decide, by decide +kernel, by decide⟩⟩, .notPresent (by decide)⟩,
    ⟨⟨by decide, by decide +kernel, by decide, by decide, fun _ => zero_le_dpl _,
      ⟨by decide, by decide, by decide +kernel, by decide⟩⟩, .limit (by decide)⟩⟩

/-- The stack segment of task C is the data segment 0010h with G = 0 and the limit FFFh, below its ESP. -/
def shortStack : State := poke taskA 0x1010 [0xFF, 0x0F, 0, 0, 0, 0x92, 0x40, 0]

def data4k : Desc := 0x0040920000000FFF

/-- The push of an error code on that stack fails. -/
theorem witness_NestedException_push : (excCode .gp 0x18).code ≠ .none ∧
    IdtTarget shortStack (vectorOf .gp) .exception gateC tssC ∧
    ∃ u, taskSwitch .int (gateSel gateC) tssC shortStack.eip true [] shortStack =
        .ok { state := u, pending := none } ∧
      segWrite u .ss (u.gprs.esp - 4) 4 0 = .error (.raise (excCode .ss 0)) := by
  refine ⟨by decide, ⟨by decide, by decide +kernel, by decide, by decide, fun _ => zero_le_dpl _,
    ⟨by decide, by decide, by decide +kernel, by decide⟩⟩, ?_⟩
  obtain ⟨s1, img, h1, h2, h3⟩ := reaches_iff (init := .int) (nsel := 0x30) (nd := tssC) (ret := 0x10000)
    (s := shortStack) (segs := { taskSegs with ss := data4k, ds := some data4k })
    (p := qualifiesAnd { taskSegs with ss := data4k, ds := some data4k } fun i =>
      plainStart taskSegs i && decide (i.gprs.esp = 0xA000)) (by decide +kernel)
  obtain ⟨h4, h5, h6⟩ := qualifies_of h3
  simp only [plainStart, Bool.and_eq_true, decide_eq_true_eq, Bool.not_eq_true'] at h6
  refine ⟨_, switch_done ⟨⟨by decide, by decide, by decide, by decide +kernel⟩, h1, ⟨h2, h4, h5, h6.1.1⟩, h6.1.2⟩, ?_⟩
  have he : (entered .int img { taskSegs with ss := data4k, ds := some data4k } s1).gprs.esp = 0xA000 := h6.2
  have hw : (flatData.load data4k).within 0x9FFC 4 = false := by decide
  have hv : ((entered .int img { taskSegs with ss := data4k, ds := some data4k } s1).seg .ss).valid = true := rfl
  have hw : ((entered .int img { taskSegs with ss := data4k, ds := some data4k } s1).seg .ss).within (0xA000 - 4) 4 =
    false := hw
  rw [he, segWrite, segCheck, hv, hw]
  rfl

theorem checks_poked (a : Nat) (b : Byte) (h : pagedIn .jmp 0x20 tssB (poke taskA a [b]) = true) :
    ChecksPass .jmp 0x20 tssB (poke taskA a [b]) := ⟨by decide, by decide, by decide, h⟩

/-- Each way to make a switch, in the clauses of the next three statements on `SwitchOf`. -/
theorem witness_SwitchOf : SwitchOf taskA (exec (.jmpPtr 0x20 0) taskA) .jmp 0x20 tssB 0x10007 false ∧
    SwitchOf taskA (exec (.callPtr 0x28 0) taskA) .call 0x20 tssB 0x10007 false ∧
    SwitchOf nestedA (exec .iret nestedA) .iret 0x20 busyB 0x10001 false ∧
    SwitchOf taskA (exec (.intN 0x30) taskA) .int 0x30 tssC 0x10002 false ∧
    SwitchOf taskA (takeInterrupt 0x30 taskA) .int 0x30 tssC 0x10000 true :=
  ⟨.direct _ _ _ _ rfl (.jmpPtr ..) direct_b, .gated _ _ _ _ _ rfl (.callPtr ..) gated_b, .iret _ _ rfl rfl link_b,
    .intN _ _ _ rfl idt_30, .extInt _ _ _ idt_30_ext⟩

/-- A switch to TSS B, changed at `a`, that reaches step 13. -/
theorem reaches_b {a : Nat} {b : Byte} {segs : NewSegs} {p : TaskImage → State → Bool}
    (hc : pagedIn .jmp 0x20 tssB (poke taskA a [b]) = true)
    (h : readDesc (poke taskA a [b]) 0x20 = .ok (some tssB))
    (h13 : reaches .jmp 0x20 tssB 0x10007 (poke taskA a [b]) segs
      (fun i u => !i.eflags.getLsbD 17 && p i u) = true) (hm : (poke taskA a [b]).inProtectedMode = true)
    (hcpl : (poke taskA a [b]).cpl = 0) (he : (poke taskA a [b]).eip = 0x10000) :
    SwitchOf (poke taskA a [b]) (exec (.jmpPtr 0x20 0) (poke taskA a [b])) .jmp 0x20 tssB 0x10007 false ∧
    ChecksPass .jmp 0x20 tssB (poke taskA a [b]) ∧
    ∃ s1 img, commitSwitch .jmp 0x20 tssB 0x10007 (poke taskA a [b]) = .ok s1 ∧
      readTask s1 (descBase tssB) = .ok img ∧ img.eflags.getLsbD 17 = false ∧
      p img (withNewLdtr .jmp img segs s1) = true := by
  obtain ⟨s1, img, h1, h2, h3⟩ := reaches_iff h13
  simp only [Bool.and_eq_true, Bool.not_eq_true'] at h3
  refine ⟨?_, checks_poked _ _ hc, s1, img, h1, h2, h3⟩
  have ht : DirectTarget (poke taskA a [b]) 0x20 tssB :=
    ⟨by decide, by decide, h, by decide, by rw [hcpl]; decide, by decide⟩
  have := SwitchOf.direct (.jmpPtr 0x20 0) _ _ _ hm (.jmpPtr ..) ht
  rw [he] at this
  exact this

/-- The switch of vector W8: the CS field of TSS B is null, every other register qualifies. -/
theorem witness_FailingSelectorFault_nullCs :
    let s := poke taskA 0x214C [0]
    SwitchOf s (exec (.jmpPtr 0x20 0) s) .jmp 0x20 tssB 0x10007 false ∧ ChecksPass .jmp 0x20 tssB s ∧
    ∃ s1 img, commitSwitch .jmp 0x20 tssB 0x10007 s = .ok s1 ∧ readTask s1 (descBase tssB) = .ok img ∧
      img.eflags.getLsbD 17 = false ∧ LdtQualifies (loadTask .jmp img s1) img.ldt taskSegs.ldt ∧
      selNull img.cs = true ∧ img.trap = false ∧
      ∀ n, n ≠ .cs → SegQualifies (withNewLdtr .jmp img taskSegs s1) (selRpl img.cs) n (imageSel img n)
        (taskSegs.get n) := by
  obtain ⟨h1, h2, s1, img, h3, h4, h5, h6⟩ := reaches_b (a := 0x214C) (b := 0) (segs := taskSegs)
    (p := fun i u => noLdt i taskSegs && selNull i.cs && !i.trap && segsOk (some .cs) i taskSegs u)
    (by decide +kernel) (by decide +kernel) (by decide +kernel) rfl rfl rfl
  simp only [Bool.and_eq_true, Bool.not_eq_true'] at h6
  obtain ⟨⟨⟨a1, a2⟩, a3⟩, a4⟩ := h6
  exact ⟨h1, h2, s1, img, h3, h4, h5, noLdt_qualifies a1, a2, a3,
    fun n hn => segsOk_iff a4 n (by simpa using fun h => hn h.symm)⟩

/-- The DS field of TSS B names a task gate (row 9); CS and SS, before it, qualify. -/
theorem witness_FailingSelectorFault_ds :
    let s := poke taskA 0x2154 [0x28]
    SwitchOf s (exec (.jmpPtr 0x20 0) s) .jmp 0x20 tssB 0x10007 false ∧ ChecksPass .jmp 0x20 tssB s ∧
    ∃ s1 img, commitSwitch .jmp 0x20 tssB 0x10007 s = .ok s1 ∧ readTask s1 (descBase tssB) = .ok img ∧
      img.eflags.getLsbD 17 = false ∧ LdtQualifies (loadTask .jmp img s1) img.ldt taskSegs.ldt ∧
      img.trap = false ∧
      SegRowFails (withNewLdtr .jmp img taskSegs s1) (selRpl img.cs) false .ds (imageSel img .ds) (excCode .ts 0x28) ∧
      ∀ n, SegQualifies (withNewLdtr .jmp img taskSegs s1) (selRpl img.cs) n (imageSel img n) (taskSegs.get n) ∨
        ∃ e, SegRowFails (withNewLdtr .jmp img taskSegs s1) (selRpl img.cs) false n (imageSel img n) e := by
  obtain ⟨h1, h2, s1, img, h3, h4, h5, h6⟩ := reaches_b (a := 0x2154) (b := 0x28) (segs := taskSegs)
    (p := fun i u => noLdt i taskSegs && !i.trap && segsOk (some .ds) i taskSegs u &&
      decide (imageSel i .ds = 0x28) && decide (readDesc u 0x28 = .ok (some gateB)))
    (by decide +kernel) (by decide +kernel) (by decide +kernel) rfl rfl rfl
  simp only [Bool.and_eq_true, Bool.not_eq_true', decide_eq_true_eq] at h6
  obtain ⟨⟨⟨⟨a1, a2⟩, a3⟩, a4⟩, a5⟩ := h6
  have hf : SegRowFails (withNewLdtr .jmp img taskSegs s1) (selRpl img.cs) false .ds (imageSel img .ds)
      (excCode .ts 0x28) := by
    rw [a4]
    exact .kind gateB (by decide) a5 (by decide)
  refine ⟨h1, h2, s1, img, h3, h4, h5, noLdt_qualifies a1, a2, hf, fun n => ?_⟩
  by_cases hn : n = .ds
  · exact .inr ⟨_, hn ▸ hf⟩
  · exact .inl (segsOk_iff a3 n (by simpa using fun h => hn h.symm))

/-- The LDT field of TSS B names a code segment (row 1), without and with the T flag. -/
theorem witness_FailingSelectorFault_ldtr (t : Bool) :
    let s := poke (poke taskA 0x2164 [(BitVec.ofBool t).setWidth 8]) 0x2160 [8]
    ChecksPass .jmp 0x20 tssB s ∧
    ∃ s1 img, commitSwitch .jmp 0x20 tssB 0x10007 s = .ok s1 ∧ readTask s1 (descBase tssB) = .ok img ∧
      img.eflags.getLsbD 17 = false ∧ img.trap = t ∧
      LdtRowFails (loadTask .jmp img s1) false img.ldt (excCode .ts 8) ∧
      ∀ n, SegQualifies (loadTask .jmp img s1) (selRpl img.cs) n (imageSel img n) (taskSegs.get n) := by
  refine ⟨⟨by decide, by decide, by decide, by cases t <;> decide +kernel⟩, ?_⟩
  obtain ⟨s1, img, h3, h4, h6⟩ := reaches_iff (init := .jmp) (nsel := 0x20) (nd := tssB) (ret := 0x10007)
    (s := poke (poke taskA 0x2164 [(BitVec.ofBool t).setWidth 8]) 0x2160 [8]) (segs := taskSegs)
    (p := fun i u => !i.eflags.getLsbD 17 && decide (i.trap = t) && decide (i.ldt = 8) && segsOk none i taskSegs u &&
      decide (readDesc u 8 = .ok (some codeDesc))) (by cases t <;> decide +kernel)
  simp only [Bool.and_eq_true, Bool.not_eq_true', decide_eq_true_eq] at h6
  obtain ⟨⟨⟨⟨a1, a2⟩, a3⟩, a4⟩, a5⟩ := h6
  have hw : withNewLdtr .jmp img taskSegs s1 = loadTask .jmp img s1 := rfl
  rw [hw] at a4 a5
  refine ⟨s1, img, h3, h4, a1, a2, ?_, fun n => segsOk_iff a4 n (by simp)⟩
  rw [a3]
  exact .desc codeDesc (by decide) (by decide) a5 (.inl (by decide))

/-- Vector W13: the EIP field of TSS B is beyond the limit FFFFh of the code segment (a descriptor with G = 0); without
and with the T flag. -/
def code64k : Desc := 0x00409A000000FFFF

def shortCode (t : Byte) : State := poke (poke taskA 0x100E [0x40]) 0x2164 [t]

theorem witness_EipBeyondCodeLimit (t : Bool) :
    let s := shortCode (BitVec.ofBool t |>.setWidth 8)
    let segs := { taskSegs with cs := code64k }
    SwitchOf s (exec (.jmpPtr 0x20 0) s) .jmp 0x20 tssB 0x10007 false ∧ ChecksPass .jmp 0x20 tssB s ∧
    ∃ s1 img, commitSwitch .jmp 0x20 tssB 0x10007 s = .ok s1 ∧ readTask s1 (descBase tssB) = .ok img ∧
      img.eflags.getLsbD 17 = false ∧ Qualifies .jmp img segs s1 ∧
      limitBits segs.cs < img.eip.toNat ∧ img.trap = t := by
  have ht : DirectTarget (shortCode (BitVec.ofBool t |>.setWidth 8)) 0x20 tssB :=
    ⟨by decide, by decide, by cases t <;> decide +kernel, by decide, by cases t <;> decide, by decide⟩
  refine ⟨.direct _ _ _ _ (by cases t <;> rfl) (.jmpPtr ..) ht,
    ⟨by decide, by decide, by decide, by cases t <;> decide +kernel⟩, ?_⟩
  obtain ⟨s1, img, h1, h2, h3⟩ := reaches_iff (init := .jmp) (nsel := 0x20) (nd := tssB) (ret := 0x10007)
    (s := shortCode (BitVec.ofBool t |>.setWidth 8)) (segs := { taskSegs with cs := code64k })
    (p := qualifiesAnd { taskSegs with cs := code64k } fun i =>
      decide (limitBits code64k < i.eip.toNat) && decide (i.trap = t)) (by cases t <;> decide +kernel)
  obtain ⟨h4, h5, h6⟩ := qualifies_of h3
  simp only [Bool.and_eq_true, decide_eq_true_eq] at h6
  exact ⟨s1, img, h1, h2, h4, h5, h6⟩

/-- The new task can be loaded and its T flag is set. -/
abbrev Traps (init : Initiator) (nsel : Selector) (nd : Desc) (ret : Word) (s : State) : Prop :=
  ∃ s1 img, commitSwitch init nsel nd ret s = .ok s1 ∧ Loadable init nd img taskSegs s1 ∧ img.trap = true

theorem traps_of {init : Initiator} {nsel : Selector} {nd : Desc} {ret : Word} {s : State}
    (h : reaches init nsel nd ret s taskSegs
      (qualifiesAnd taskSegs fun i => decide (i.eip.toNat ≤ (descLimit taskSegs.cs).toNat) && i.trap) = true) :
    Traps init nsel nd ret s := by
  obtain ⟨s1, img, h1, h2, h3⟩ := reaches_iff h
  obtain ⟨h4, h5, h6⟩ := qualifies_of h3
  simp only [Bool.and_eq_true, decide_eq_true_eq] at h6
  exact ⟨s1, img, h1, ⟨h2, h4, h5, h6.1⟩, h6.2⟩

/-- Vector W14: the T flag of TSS B. -/
theorem witness_DebugTrapOfNewTask :
    let s := poke taskA 0x2164 [1]
    SwitchOf s (exec (.jmpPtr 0x20 0) s) .jmp 0x20 tssB 0x10007 false ∧ ChecksPass .jmp 0x20 tssB s ∧
      Traps .jmp 0x20 tssB 0x10007 s :=
  ⟨.direct _ _ _ _ rfl (.jmpPtr ..) ⟨by decide, by decide, by decide +kernel, by decide, by decide, by decide⟩,
    checks_poked _ _ (by decide +kernel), traps_of (by decide +kernel)⟩

/-- The T flag of TSS C, entered by an external interrupt. -/
def trapC : State := poke taskA 0x2264 [1]

theorem idt_trapC (v : Byte) (cls : EventClass) (g : Desc) (hv : inIdt trapC v = true)
    (hd : readDescAt trapC (idtAddr trapC v) = .ok g) (hg : isTaskGate g = true ∧ descP g = true ∧ gateSel g = 0x30) :
    IdtTarget trapC v cls g tssC where
  inTable := hv
  desc := hd
  gate := hg.1
  present := hg.2.1
  dpl := fun _ => zero_le_dpl _
  names := { ti := by rw [hg.2.2]; rfl, inTable := by rw [hg.2.2]; rfl
             desc := by rw [hg.2.2]; decide +kernel, tss := by decide }

theorem traps_c : ChecksPass .int 0x30 tssC trapC ∧ Traps .int 0x30 tssC 0x10000 trapC :=
  ⟨⟨by decide, by decide, by decide, by decide +kernel⟩, traps_of (by decide +kernel)⟩

theorem witness_DebugTrapOfNewTask_external :
    SwitchOf trapC (takeInterrupt 0x30 trapC) .int 0x30 tssC 0x10000 true ∧ ChecksPass .int 0x30 tssC trapC ∧
      Traps .int 0x30 tssC 0x10000 trapC :=
  ⟨.extInt _ _ _ (idt_trapC _ _ gateC3 (by decide) (by decide +kernel) (by decide)), traps_c⟩

/-- The delivery of `#GP` enters task C with its T flag set. -/
theorem witness_NestedException_pending : IdtTarget trapC (vectorOf .gp) .exception gateC tssC ∧
    ∃ u x, taskSwitch .int (gateSel gateC) tssC trapC.eip true [] trapC = .ok { state := u, pending := some x } := by
  obtain ⟨hc, s1, img, h1, h2, h3⟩ := traps_c
  refine ⟨idt_trapC _ _ _ (by decide) (by decide +kernel) (by decide), entered .int img taskSegs s1, exc .db, ?_⟩
  have h := taskSwitch_entered (ext := true) hc h1 h2
  rw [h3] at h
  exact h

/-! ### Witnesses: the whole machine -/

theorem witness_StepKeepsInvariant : Invariant (code [0x0F, 0x00, 0xCB]) ∧
    ∃ t, step (code [0x0F, 0x00, 0xCB]) = .next t :=
  ⟨⟨by decide, by unfold EflagsOk; decide, by decide⟩, next_of (by decide +kernel)⟩

/-- A step in which an offered interrupt is masked. -/
theorem witness_StepKeepsInvariant_offer : ∃ t, stepWith (some 0x30) (code [0x0F, 0x00, 0xCB]) = .next t :=
  next_of (by decide +kernel)

theorem witness_StepKeepsSystemRegisters : (∃ t, step (code [0x0F, 0x00, 0xCB]) = .next t) ∧
    (code [0x0F, 0x00, 0xCB]).paging = false := ⟨next_of (by decide +kernel), rfl⟩

theorem witness_OnlySwitchChangesTask : (∃ t, exec (.str (.reg .ebx)) bareA = .next t ∧ t.cr0.getLsbD 3 = false) ∧
    (∃ t, strOp (.reg .ebx) bareA = .ok (done t)) ∧ (∃ t, exec (.jmpPtr 0x20 0) taskA = .next t) ∧
    ∃ t, stepWith (some 0x30) (taskA.withEflags 0x202) = .next t :=
  ⟨⟨_, rfl, rfl⟩, ⟨_, rfl⟩, next_of (by decide +kernel), next_of (by decide +kernel)⟩

/-- The own effect of LTR, in a state in which TS is 1. -/
theorem witness_OnlySwitchChangesTask_ltr :
    let s := (ltrState 0x20).withCr0 9
    ∃ t, ltrOp (.reg .eax) s = .ok (done t) := by
  obtain ⟨sw, h⟩ := ok_of (r := ltrOp (.reg .eax) ((ltrState 0x20).withCr0 9)) (by decide +kernel)
  obtain ⟨_, _, _, _, _, _, hd⟩ := ltrOp_ok h
  exact ⟨_, by rw [h, hd]⟩

/-! ### Launch states (70_reset_and_hazards.md R303, R306) -/

/-- Task A running with one gate in the IDT. -/
def launchA : State := { taskA with idtr := { base := 0x1868, limit := 7 } }

/-- TR as at reset, and `LTR AX` of TSS A as the first instruction. -/
def launchLtr : State :=
  { poke (poke launchA 0x101D [0x89]) 0x10000 [0x0F, 0x00, 0xD8] with
    gprs := { taskA.gprs with eax := 0x18 }, tr := State.reset.tr }

theorem table_of {s : State} {t : TableReg} {n : Nat} (hl : t.limit.toNat = 8 * n + 7)
    (h : ∀ k < n + 1, isOk (readDescAt s (t.base + BitVec.ofNat 32 (8 * k))) = true) : TableInMemory s t :=
  fun k hk => ok_of (h k (by omega))

/-- A launch state whose TR is loaded. -/
theorem test_launch_loaded : Launch 8 0x20000 [] launchA where
  pe := by decide
  vm := by decide
  csValid := by decide
  ssValid := by decide
  code32 := by decide
  gdt := table_of (n := 7) (by decide) (by decide +kernel)
  idt := table_of (n := 0) (by decide) (by decide +kernel)
  tr := .inr ⟨by decide, by decide, by decide, tssA, by decide +kernel, by decide, by decide, by decide, by decide⟩
  ltrFirst := LtrFirst.of_loaded (by decide)

/-- The state after `LTR AX`. -/
def afterLtr : State := (valueOf (done launchLtr) (ltrOp (.reg .eax) launchLtr)).state

theorem runs_of {s : State} {i : Instr} (hm : s.inProtectedMode = true) (hdb : s.segs.cs.db = true)
    (h : fetchInstr s = .ok (.instr i)) : nextAction none s = .run i s := by
  simp [nextAction, hm, dueInterrupt, fetchAction, hdb, h]

theorem ltr_step : stepWith none launchLtr = .next afterLtr ∧ SwitchesNoTask none launchLtr afterLtr ∧
    ¬ TrAtReset afterLtr := by
  have hr : nextAction none launchLtr = .run (.ltr (.reg .eax)) launchLtr := runs_of rfl rfl (by decide +kernel)
  have ho : ltrOp (.reg .eax) launchLtr = .ok (done afterLtr) := by decide +kernel
  refine ⟨?_, ⟨.reg .eax, .inl ⟨hr, ho⟩⟩, by decide +kernel⟩
  rw [stepWith, hr]
  show finish launchLtr (ltrOp (.reg .eax) launchLtr) = _
  rw [ho]
  rfl

/-- A launch state with TR as at reset: its first instruction is `LTR`. -/
theorem test_launch_ltr : Launch 8 0x20000 [] launchLtr where
  pe := by decide
  vm := by decide
  csValid := by decide
  ssValid := by decide
  code32 := by decide
  gdt := table_of (n := 7) (by decide) (by decide +kernel)
  idt := table_of (n := 0) (by decide) (by decide +kernel)
  tr := .inl (by decide)
  ltrFirst := LtrFirst.of_next ltr_step.1 ltr_step.2.1 (LtrFirst.of_loaded ltr_step.2.2)

/-- `JMP` to task B while TR is as at reset: no launch state. -/
def launchJmp : State := { poke launchA 0x10000 [0xEA, 0, 0, 0, 0, 0x20, 0] with tr := State.reset.tr }

theorem test_no_launch_before_ltr : ¬ Launch 8 0x20000 [] launchJmp := by
  intro h
  obtain ⟨t, ht⟩ := next_of (r := stepWith (offerNow []) launchJmp) (by decide +kernel)
  have hr : TrAtReset launchJmp := by decide +kernel
  have he : ¬ AtEnd 8 0x20000 launchJmp := by decide +kernel
  obtain ⟨rm, h | h⟩ := h.first hr he ht
  all_goals
    rw [show offerNow [] = none from rfl,
      runs_of (i := .jmpPtr 0x20 0) (s := launchJmp) rfl rfl (by decide +kernel)] at h
    cases h.1

end Sys2Proof.Tests
end

section
/-! The statements of 10_state.md: what a step keeps of the system registers and of a task's context, the load of
EFLAGS, and what is refused by name. -/

namespace Sys2Proof.Machine

open Sys2Proof.Safety

/-! ### The load of EFLAGS (42_task_switch.md R232) -/

/-- The two masks of a load say of each bit whether it is kept, cleared or set. -/
theorem maskEflags_getLsbD (f : Word) (n : Nat) : (maskEflags f).getLsbD n =
    (if n = 1 then true else if n = 3 ∨ n = 5 ∨ n = 15 ∨ 22 ≤ n then false else f.getLsbD n) := by
  simp only [maskEflags, BitVec.getLsbD_or, BitVec.getLsbD_and]
  by_cases hn : n < 32
  · have masks : ∀ j < 32, ∀ b : Bool,
        ((b && (0x003F7FD5#32).getLsbD j) || (0x00000002#32).getLsbD j) =
          if j = 1 then true else if j = 3 ∨ j = 5 ∨ j = 15 ∨ 22 ≤ j then false else b := by decide
    exact masks n hn _
  · have beyond : ∀ w : Word, w.getLsbD n = false := fun w => BitVec.getLsbD_of_ge w n (by omega)
    have h1 : n ≠ 1 := by omega
    have h22 : 22 ≤ n := by omega
    simp [beyond, h1, h22]

/-! ### The own effects of LTR and STR (40_task_register.md R150 to R152) -/

theorem exec_ltr (rm : RegMem) (s : State) : exec (.ltr rm) s = finish s (ltrOp rm s) := rfl

theorem exec_str (rm : RegMem) (s : State) : exec (.str rm) s = finish s (strOp rm s) := rfl

@[simp] theorem finish_done (s t : State) : finish s (.ok (done t)) = .next t := rfl

theorem done_inj {s t : State} (h : done s = done t) : s = t := congrArg Switched.state h

/-- What the own effect of LTR or STR leaves of a state: the context of the task, the system registers, TR caching
what it did or a busy TSS, and the canonical form of memory. -/
structure OwnKept (s t : State) : Prop extends TaskKept s t where
  gdtr : t.gdtr = s.gdtr
  idtr : t.idtr = s.idtr
  cr0 : t.cr0 = s.cr0
  tr : t.tr.attr.type = s.tr.attr.type ∨ t.tr.attr.type = 11#4
  mem : s.mem.wf → t.mem.wf

theorem ltrOp_kept {rm : RegMem} {s t : State} (h : ltrOp rm s = .ok (done t)) : OwnKept s t := by
  obtain ⟨sel, d, m, -, -, hm, ht⟩ := ltrOp_ok h
  obtain rfl := done_inj ht
  exact
    { eflags := rfl, segs := rfl, ldtr := rfl, cr3 := rfl, gdtr := rfl, idtr := rfl, cr0 := rfl
      tr := .inr rfl, mem := hm }

/-- STR keeps TR as well. -/
theorem strOp_kept {rm : RegMem} {s t : State} (h : strOp rm s = .ok (done t)) : OwnKept s t ∧ t.tr = s.tr := by
  obtain ⟨g, m, hm, ht⟩ := strOp_ok h
  obtain rfl := done_inj ht
  exact
    ⟨{ eflags := rfl, segs := rfl, ldtr := rfl, cr3 := rfl, gdtr := rfl, idtr := rfl, cr0 := rfl
       tr := .inl rfl, mem := hm }, rfl⟩

theorem OwnKept.cpl {s t : State} (h : OwnKept s t) : t.cpl = s.cpl := by
  rw [State.cpl, h.segs, ← State.cpl]

/-! ### What every step keeps -/

/-- A step that ends in a next state, whatever is offered, keeps what a task switch keeps or what LTR and STR keep. -/
theorem stepWith_kept {offer : Option Byte} {s t : State} (h : stepWith offer s = .next t) :
    SwitchKept s t ∨ OwnKept s t := by
  rcases stepWith_next h with ⟨-, hk⟩ | ⟨i, hi⟩
  · exact .inl hk
  · rcases exec_next hi with ⟨-, hk⟩ | ⟨rm, -, ho⟩ | ⟨rm, -, ho⟩
    · exact .inl hk
    · exact .inr (ltrOp_kept ho)
    · exact .inr (strOp_kept ho).1

/-- `step` is the step with no interrupt offered, so a claim for every offer covers it. -/
theorem stepWith_of_step {offer : Option Byte} {s t : State} (h : stepWith offer s = .next t ∨ step s = .next t) :
    ∃ o, stepWith o s = .next t :=
  h.elim (fun h => ⟨offer, h⟩) (fun h => ⟨none, h⟩)

theorem SwitchKept.invariant {s t : State} (h : SwitchKept s t) (hi : Invariant s) : Invariant t where
  mem := h.mem hi.mem
  eflags := h.eflags
  tr := h.tr

theorem OwnKept.invariant {s t : State} (h : OwnKept s t) (hi : Invariant s) : Invariant t where
  mem := h.mem hi.mem
  eflags := by rw [h.eflags]; exact hi.eflags
  tr := h.tr.elim (fun ht => ht.trans hi.tr) id

theorem SwitchKept.system {s t : State} (h : SwitchKept s t) : SystemKept s t where
  gdtr := h.gdtr
  idtr := h.idtr
  cr0 := by rw [h.cr0, setTs_setTs]
  ts := fun _ => by rw [h.cr0, cr0Ts_setTs]

theorem OwnKept.system {s t : State} (h : OwnKept s t) : SystemKept s t where
  gdtr := h.gdtr
  idtr := h.idtr
  cr0 := by rw [h.cr0]
  ts := fun hs => by rw [h.cr0, hs]

/-- Every task switch sets CR0.TS (42_task_switch.md R229). -/
theorem SwitchKept.ts {s t : State} (h : SwitchKept s t) : t.cr0.getLsbD 3 = true := by
  rw [h.cr0]
  exact cr0Ts_setTs s.cr0

/-! ### Refusals of the mode and of the code segment (10_state.md R41, 30_encoding.md R121) -/

theorem stepWith_outside_protectedMode {s : State} (offer : Option Byte) (h : s.inProtectedMode = false) :
    stepWith offer s = .refused .modeNotModelled := by
  simp [stepWith, nextAction, h]

theorem step_sixteenBitCode {s : State} (hm : s.inProtectedMode = true) (hv : s.segs.cs.valid = true)
    (hdb : s.segs.cs.db = false) : step s = .refused .sixteenBitCode := by
  simp [step, stepWith, nextAction, dueInterrupt, fetchAction, hm, hv, hdb]

theorem decode_prefixByte : ∀ b ∈ [0x26#8, 0x2E#8, 0x36#8, 0x3E#8, 0x64#8, 0x65#8, 0x66#8, 0x67#8, 0xF0#8, 0xF2#8,
    0xF3#8], decode [b] = .prefixByte := by decide

end Sys2Proof.Machine

namespace Sys2Proof

open Sys2Proof.Safety

/-! ### The bytes that match no row (30_encoding.md R137) -/

/-- An operand that is being read ends in an instruction or asks for more. -/
@[simp] theorem Decoded.ofOption_ne_noRow (f : α → Instr) (o : Option α) : Decoded.ofOption f o ≠ .noRow := by
  cases o <;> simp [Decoded.ofOption]

@[simp] theorem decodeFarPtr_ne_noRow (f : Selector → Word → Instr) (bs : List Byte) : decodeFarPtr f bs ≠ .noRow := by
  unfold decodeFarPtr
  split <;> simp

@[simp] theorem decodeMemOnly_ne_noRow (f : MemOp → Instr) (modrm : Nat) (bs : List Byte) :
    decodeMemOnly f modrm bs ≠ .noRow := by
  unfold decodeMemOnly
  split <;> simp

@[simp] theorem decodeRegMem_ne_noRow (f : RegMem → Instr) (modrm : Nat) (bs : List Byte) :
    decodeRegMem f modrm bs ≠ .noRow := by
  unfold decodeRegMem
  split <;> simp

@[simp] theorem decodeInt_ne_noRow (bs : List Byte) : decodeInt bs ≠ .noRow := by
  cases bs <;> simp [decodeInt]

/-- After `FF`, only the digits 3 and 5 have a row. -/
theorem decodeFF_noRow {bs : List Byte} (h : decodeFF bs = .noRow) :
    ∃ m rest, bs = m :: rest ∧ m.toNat / 8 % 8 ≠ 3 ∧ m.toNat / 8 % 8 ≠ 5 := by
  cases bs with
  | nil => cases h
  | cons m rest =>
    rw [decodeFF] at h
    split at h
    · exact absurd h (decodeMemOnly_ne_noRow _ _ _)
    · exact absurd h (decodeMemOnly_ne_noRow _ _ _)
    · next h5 h3 => exact ⟨m, rest, rfl, h3, h5⟩

/-- After `0F`, only `00` with the digits 1 and 3 has a row. -/
theorem decode0F_noRow {bs : List Byte} (h : decode0F bs = .noRow) :
    (∃ op rest, bs = op :: rest ∧ op ≠ 0x00#8) ∨
      ∃ m rest, bs = 0x00#8 :: m :: rest ∧ m.toNat / 8 % 8 ≠ 1 ∧ m.toNat / 8 % 8 ≠ 3 := by
  cases bs with
  | nil => cases h
  | cons op rest =>
    by_cases h0 : op = 0x00#8
    · subst h0
      cases rest with
      | nil => cases h
      | cons m rest =>
        simp only [decode0F, BitVec.toNat_ofNat, Nat.zero_mod, if_true] at h
        split at h
        · exact absurd h (decodeRegMem_ne_noRow _ _ _)
        · exact absurd h (decodeRegMem_ne_noRow _ _ _)
        · next h3 h1 => exact .inr ⟨m, rest, rfl, h1, h3⟩
    · exact .inl ⟨op, rest, rfl, h0⟩

/-- R137's list of first bytes by the decoder's own tests: the six opcode bytes, then the bytes of R121. -/
theorem not_mem_firstBytes {b : Byte} :
    b ∉ [0xEA#8, 0x9A, 0xCF, 0xCD, 0xFF, 0x0F, 0x26, 0x2E, 0x36, 0x3E, 0x64, 0x65, 0x66, 0x67, 0xF0, 0xF2, 0xF3] ↔
      b.toNat ≠ 0xEA ∧ b.toNat ≠ 0x9A ∧ b.toNat ≠ 0xCF ∧ b.toNat ≠ 0xCD ∧ b.toNat ≠ 0xFF ∧ b.toNat ≠ 0x0F ∧
        isPrefixByte b.toNat = false := by
  simp [isPrefixByte, ← BitVec.toNat_inj]

/-- By its first byte: bytes without a row begin with `FF` or `0F`, or with a byte that is neither an opcode of
the table nor of R121's list. -/
theorem decode_cons_noRow {b : Byte} {bs : List Byte} (h : decode (b :: bs) = .noRow) :
    (b = 0xFF#8 ∧ decodeFF bs = .noRow) ∨ (b = 0x0F#8 ∧ decode0F bs = .noRow) ∨
      b ∉ [0xEA#8, 0x9A, 0xCF, 0xCD, 0xFF, 0x0F, 0x26, 0x2E, 0x36, 0x3E, 0x64, 0x65, 0x66, 0x67, 0xF0, 0xF2, 0xF3] := by
  simp only [decode] at h
  split at h
  · exact absurd h (decodeFarPtr_ne_noRow _ _)
  next hEA =>
  split at h
  · exact absurd h (decodeFarPtr_ne_noRow _ _)
  next h9A =>
  split at h
  · cases h
  next hCF =>
  split at h
  · exact absurd h (decodeInt_ne_noRow _)
  next hCD =>
  split at h
  · next hFF => exact .inl ⟨byte_eq hFF, h⟩
  next hFF =>
  split at h
  · next h0F => exact .inr (.inl ⟨byte_eq h0F, h⟩)
  next h0F =>
  split at h
  · cases h
  next hp =>
  refine .inr (.inr ?_)
  rw [not_mem_firstBytes]
  exact ⟨hEA, h9A, hCF, hCD, hFF, h0F, by simpa using hp⟩

theorem noRowBytes_of_decode {bs : List Byte} (h : decode bs = .noRow) :
    ∃ front rest, NoRowBytes front ∧ bs = front ++ rest := by
  cases bs with
  | nil => cases h
  | cons b bs =>
    rcases decode_cons_noRow h with ⟨rfl, hF⟩ | ⟨rfl, h0⟩ | hb
    · obtain ⟨m, rest, rfl, hd⟩ := decodeFF_noRow hF
      exact ⟨_, rest, .groupFF m hd, rfl⟩
    · rcases decode0F_noRow h0 with ⟨op, rest, rfl, hop⟩ | ⟨m, rest, rfl, hd⟩
      · exact ⟨_, rest, .twoByte op hop, rfl⟩
      · exact ⟨_, rest, .group0F m hd, rfl⟩
    · exact ⟨_, bs, .first b hb, rfl⟩

theorem decode_noRowBytes {front : List Byte} (h : NoRowBytes front) : decode front = .noRow := by
  cases h with
  | twoByte op hop =>
    have h0 : op.toNat ≠ 0 := fun h0 => hop (byte_eq h0)
    simp [decode, decode0F, h0]
  | group0F m hd =>
    show decode0F [0x00#8, m] = .noRow
    simp only [decode0F, BitVec.toNat_ofNat, Nat.zero_mod, if_true]
    split
    · next h3 => exact absurd h3 hd.2
    · next h1 => exact absurd h1 hd.1
    · rfl
  | groupFF m hd =>
    show decodeFF [m] = .noRow
    rw [decodeFF]
    split
    · next h5 => exact absurd h5 hd.2
    · next h3 => exact absurd h3 hd.1
    · rfl
  | first b hb =>
    obtain ⟨hEA, h9A, hCF, hCD, hFF, h0F, hp⟩ := not_mem_firstBytes.1 hb
    simp [decode, hEA, h9A, hCF, hCD, hFF, h0F, hp]

/-- R137's list is exact: the bytes that match no row begin with one of its strings. -/
theorem decode_eq_noRow {bs : List Byte} : decode bs = .noRow ↔ ∃ front rest, NoRowBytes front ∧ bs = front ++ rest := by
  refine ⟨noRowBytes_of_decode, ?_⟩
  rintro ⟨front, rest, hf, rfl⟩
  have hd := decode_noRowBytes hf
  rw [decode_append rest (by simp [hd]), hd]

end Sys2Proof

namespace Sys2Proof.Proofs

open Sys2Proof.Machine Sys2Proof.Safety

/-- Settles O56: a task switch and the own effects of LTR and STR each keep the invariant. -/
theorem stepKeepsInvariant : Obligations.StepKeepsInvariant := by
  intro s t offer hi h
  obtain ⟨o, ho⟩ := stepWith_of_step h
  rcases stepWith_kept ho with hk | hk
  · exact hk.invariant hi
  · exact hk.invariant hi

/-- Settles O57: a task switch sets TS in CR0 and keeps the rest; LTR and STR keep every system register. -/
theorem stepKeepsSystemRegisters : Obligations.StepKeepsSystemRegisters := by
  intro s t offer h
  obtain ⟨o, ho⟩ := stepWith_of_step h
  rcases stepWith_kept ho with hk | hk
  · exact ⟨hk.system, hk.cr3⟩
  · exact ⟨hk.system, fun _ => hk.cr3⟩

/-- Settles O9: the mode and the code segment before the fetch, then by what the decoder says of the bytes. -/
theorem stepRefusesOutOfScope : Obligations.StepRefusesOutOfScope := by
  refine ⟨fun offer s => stepWith_outside_protectedMode offer, fun s => step_sixteenBitCode, ?_, ?_,
    fun bs => decode_eq_noRow⟩
  · intro s b hr hb hf
    have hd := decode_prefixByte b hb
    simp [step_of hr hf, hd]
  · intro s bs hr hl hd hf
    simp [step_of hr hf _ hl, hd]

/-- Settles O58: every way an instruction ends in a next state is a task switch, which sets TS, or the own effect of LTR
or STR. -/
theorem onlySwitchChangesTask : Obligations.OnlySwitchChangesTask := by
  intro s t
  refine ⟨fun rm h => ?_, fun rm h => ?_, fun i h => ?_, fun offer h => ?_, fun i h hts => ?_⟩
  · have hk := ltrOp_kept h
    exact ⟨by rw [exec_ltr, h, finish_done], hk.toTaskKept, hk.cpl⟩
  · obtain ⟨hk, htr⟩ := strOp_kept h
    exact ⟨by rw [exec_str, h, finish_done], hk.toTaskKept, hk.cpl, htr⟩
  · rcases exec_next h with ⟨he, -⟩ | ⟨rm, hl⟩ | ⟨rm, hs⟩
    · exact .inr he
    · exact .inl ⟨rm, .inl hl⟩
    · exact .inl ⟨rm, .inr hs⟩
  · exact (stepWith_next h).elim (fun hs => .inr hs.1) .inl
  · rcases exec_next h with ⟨-, hk⟩ | ⟨rm, rfl, hl⟩ | ⟨rm, rfl, hs⟩
    · exact absurd (hts.symm.trans hk.ts) Bool.false_ne_true
    · have hk := ltrOp_kept hl
      exact ⟨hk.toTaskKept, hk.cpl, .inl ⟨rm, rfl⟩⟩
    · obtain ⟨hk, htr⟩ := strOp_kept hs
      exact ⟨hk.toTaskKept, hk.cpl, .inr ⟨⟨rm, rfl⟩, htr⟩⟩

/-- Settles O20, by the bits of the two masks. -/
theorem eflagsReservedBits : Obligations.EflagsReservedBits := maskEflags_getLsbD

end Sys2Proof.Proofs
end

section
/-! The statements of 20_memory.md: accesses through a segment register, linear and TSS accesses with paging off, the
busy flag and the effective limit of a descriptor. -/

namespace Sys2Proof.Machine

open Sys2Proof.Safety

/-! ### The checks of an access through a segment register (20_memory.md R67) -/

theorem segExc_eq (seg : SegName) : segExc seg = if seg = .ss then excCode .ss 0 else excCode .gp 0 := by
  cases seg <;> rfl

/-- Unless the segment is expand-down, the limit check is that the last byte is not beyond the limit. -/
theorem SegReg.within_eq {r : SegReg} (hd : r.expandDown = false) (off : Word) (n : Nat) :
    r.within off n = decide (off.toNat + n ≤ r.limit.toNat + 1) := by
  simp [SegReg.within, hd]

theorem segCheck_invalid {s : State} {seg : SegName} (hv : (s.seg seg).valid = false) (kind : Access) (off : Word)
    (n : Nat) : segCheck s seg kind off n = raise (segExc seg) := by
  rw [segCheck, hv]; rfl

section
variable {s : State} {seg : SegName} {off : Word} {n : Nat}

theorem segCheck_beyond (hd : (s.seg seg).expandDown = false) (hv : (s.seg seg).valid = true)
    (hl : (s.seg seg).limit.toNat + 1 < off.toNat + n) (kind : Access) :
    segCheck s seg kind off n = raise (segExc seg) := by
  have out : (s.seg seg).within off n = false := by
    rw [SegReg.within_eq hd, decide_eq_false_iff_not]; omega
  rw [segCheck, hv, out]; rfl

/-- Past the first two checks the rights alone decide. -/
theorem segCheck_within (hd : (s.seg seg).expandDown = false) (hv : (s.seg seg).valid = true)
    (hl : off.toNat + n ≤ (s.seg seg).limit.toNat + 1) (kind : Access) :
    segCheck s seg kind off n = require ((s.seg seg).allows kind) (excCode .gp 0) := by
  have inside : (s.seg seg).within off n = true := by rw [SegReg.within_eq hd, decide_eq_true hl]
  rw [segCheck, hv, inside]; rfl

theorem segRead_of_segCheck_raise {kind : Access} {e : Exc} (h : segCheck s seg kind off n = raise e) :
    segRead s seg kind off n = raise e := by
  rw [segRead, h]; rfl

theorem segWrite_of_segCheck_raise {e : Exc} (h : segCheck s seg .write off n = raise e) (v : Nat) :
    segWrite s seg off n v = raise e := by
  rw [segWrite, h]; rfl

/-- A read or fetch that is valid and within the limit. -/
theorem segRead_within (hd : (s.seg seg).expandDown = false) (hv : (s.seg seg).valid = true)
    (hl : off.toNat + n ≤ (s.seg seg).limit.toNat + 1) (kind : Access) :
    segRead s seg kind off n =
      if (s.seg seg).allows kind then memRead s kind s.cpl ((s.seg seg).base + off) n else raise (excCode .gp 0) := by
  rw [segRead, segCheck_within hd hv hl]
  cases (s.seg seg).allows kind <;> rfl

/-- A write that is valid and within the limit. -/
theorem segWrite_within (hd : (s.seg seg).expandDown = false) (hv : (s.seg seg).valid = true)
    (hl : off.toNat + n ≤ (s.seg seg).limit.toNat + 1) (v : Nat) :
    segWrite s seg off n v =
      if (s.seg seg).writable then memWrite s s.cpl ((s.seg seg).base + off) n v else raise (excCode .gp 0) := by
  rw [segWrite, segCheck_within hd hv hl, SegReg.allows]
  cases (s.seg seg).writable <;> rfl

end

/-! ### Linear accesses with paging off (R62, R65) -/

theorem mem_linBytes {lin : Word} {n a : Nat} : a ∈ linBytes lin n ↔ ∃ k < n, a = (lin + BitVec.ofNat 32 k).toNat := by
  rw [List.mem_iff_getElem]
  constructor
  · rintro ⟨k, hk, rfl⟩
    have hk : k < n := by simpa using hk
    exact ⟨k, hk, linBytes_getElem lin n k hk⟩
  · rintro ⟨k, hk, rfl⟩
    exact ⟨k, by simpa using hk, linBytes_getElem lin n k hk⟩

theorem linBytes_take {k n : Nat} (lin : Word) (h : k ≤ n) : (linBytes lin n).take k = linBytes lin k := by
  rw [linBytes_eq, linBytes_eq, ← List.map_take, List.take_range, Nat.min_eq_left h]

/-- What has been written at a linear address is read back there at every width up to that of the write. -/
theorem memRead_written {s : State} (hp : s.paging = false) {lin : Word} {k n : Nat} (v : Nat) (hk : k ≤ n)
    (hn : n ≤ 0x100000000) (kind : Access) (l : BitVec 2) :
    memRead (s.withMem (writeCells s.mem (linBytes lin n) (leBytes n v))) kind l lin k = .ok (v % 256 ^ k) := by
  have hp' : (s.withMem (writeCells s.mem (linBytes lin n) (leBytes n v))).paging = false := hp
  have back := writeCells_read_back (linBytes lin n) (leBytes n v) s.mem (linBytes_nodup lin n hn) (by simp)
  rw [memRead_flat hp', readList_eq (bs := (leBytes n v).take k), Res.ok_bind, leNat_take n k v hk]
  · intro pa hpa
    rw [physWidth_flat hp']
    exact linBytes_lt hpa
  · rw [← linBytes_take lin hk, List.map_take, List.map_take, State.withMem_mem, back]

/-! ### The busy byte and the effective limit (R76, R78) -/

/-- The busy byte by its bits: bit 1 is the flag, and the other bits stay. -/
theorem busyByte_eq (t : Byte) (b : Bool) :
    busyByte t b = (t &&& 0xFD#8) ||| (BitVec.ofBool b).setWidth 8 <<< 1 := by
  cases b <;> rfl

theorem descLimit_of_bytes {d : Desc} (hg : d.getLsbD 55 = false) : (descLimit d).toNat = (descRawLimit d).toNat := by
  have hlt := (descRawLimit d).isLt
  rw [descLimit, descG, hg, if_neg Bool.false_ne_true, BitVec.toNat_setWidth, Nat.mod_eq_of_lt (by omega)]

/-- With G = 1 the twelve low bits of the limit are all 1, so that the bitwise or is a sum. -/
theorem descLimit_of_pages {d : Desc} (hg : d.getLsbD 55 = true) :
    (descLimit d).toNat = (descRawLimit d).toNat * 4096 + 4095 := by
  have hlt := (descRawLimit d).isLt
  have shifted : ((descRawLimit d).setWidth 32 <<< 12).toNat = (descRawLimit d).toNat <<< 12 := by
    rw [BitVec.toNat_shiftLeft, BitVec.toNat_setWidth, Nat.shiftLeft_eq, Nat.shiftLeft_eq]
    omega
  rw [descLimit, descG, if_pos hg, BitVec.toNat_or, shifted, ← Nat.shiftLeft_add_eq_or_of_lt (by decide),
    Nat.shiftLeft_eq]
  rfl

end Sys2Proof.Machine

namespace Sys2Proof.Proofs

open Sys2Proof.Machine Sys2Proof.Safety

/-- Settles O14: an access fails the first of the three checks that does not hold, or is made. -/
theorem segmentAccessChecks : Obligations.SegmentAccessChecks := by
  intro s seg off n v hd r e isCode
  have he : segExc seg = e := segExc_eq seg
  have fails (h : ∀ kind, segCheck s seg kind off n = raise (segExc seg)) :
      segRead s seg .read off n = raise e ∧ segRead s seg .fetch off n = raise e ∧
        segWrite s seg off n v = raise e :=
    he ▸ ⟨segRead_of_segCheck_raise (h _), segRead_of_segCheck_raise (h _), segWrite_of_segCheck_raise (h _) v⟩
  exact ⟨fun hv => fails fun kind => segCheck_invalid hv kind off n,
    fun hv hl => fails (segCheck_beyond hd hv hl),
    fun hv hl hr => (segRead_within hd hv hl .read).trans (if_neg (ne_true_of_eq_false hr)),
    fun hv hl hr => (segRead_within hd hv hl .read).trans (if_pos hr),
    fun hv hl hc => (segRead_within hd hv hl .fetch).trans (if_neg (ne_true_of_eq_false hc)),
    fun hv hl hc => (segRead_within hd hv hl .fetch).trans (if_pos hc),
    fun hv hl hw => (segWrite_within hd hv hl v).trans (if_neg (ne_true_of_eq_false hw)),
    fun hv hl hw => (segWrite_within hd hv hl v).trans (if_pos hw)⟩

/-- Settles O15: the addresses of a write are distinct, so that each of its bytes reads back. -/
theorem littleEndianAccess : Obligations.LittleEndianAccess := by
  intro s level lin n v hp hn
  refine ⟨_, memWrite_flat hp level lin n v, rfl, fun k hk kind l => memRead_written hp v hk (by omega) kind l,
    fun a ha => writeCells_read_other _ _ _ _ fun hmem => ?_⟩
  obtain ⟨k, hk, h⟩ := mem_linBytes.1 hmem
  exact ha k hk h

/-- Settles O16: within the first 104 bytes the addresses of a TSS access are those of the linear access. -/
theorem tssAccessIsMemoryAccess : Obligations.TssAccessIsMemoryAccess := by
  intro s base off n v hp hb
  have addrs := tss_lin s hp base off n hb
  exact ⟨by rw [tssRead, translate_flat hp, Res.ok_bind, addrs, sysRead, memRead_flat hp],
    by rw [tssWrite_flat hp, addrs, sysWrite, memWrite_flat hp]⟩

/-- Settles O17: one byte is written, the busy byte. -/
theorem setBusyWritesOneByte : Obligations.SetBusyWritesOneByte := by
  intro s sel b t hp ht
  refine ⟨_, setBusy_flat hp ht, rfl, ?_, fun a ha => Memory.read_write_other _ _ _ _ ha⟩
  rw [State.withMem_mem, Memory.read_write_self, busyByte_eq]

/-- Settles O18, for either value of G. -/
theorem effectiveLimit : Obligations.EffectiveLimit := by
  intro d raw
  refine ⟨descLimit_of_bytes, fun hg => ?_⟩
  have pages : (descLimit d).toNat = raw.toNat * 4096 + 4095 := descLimit_of_pages hg
  exact ⟨pages, by omega⟩

end Sys2Proof.Proofs
end

section
/-! The statements of 30_encoding.md: the decoder and the encoder against each other, the step at bytes that are
fetched or that cannot be, and the memory operands. -/

namespace Sys2Proof

/-! ### Decoding an encoding (30_encoding.md R122 to R136) -/

/-- The far pointer immediate reads back (R126). -/
theorem decodeFarPtr_bytes (f : Selector → Word → Instr) (sel : Selector) (off : Word) (rest : List Byte) :
    decodeFarPtr f ((leBytes 4 off.toNat ++ leBytes 2 sel.toNat) ++ rest) = .instr (f sel off) :=
  congrArg₂ (fun s o => Decoded.instr (f s o)) (leNat_leBytes_two sel) (leNat_leBytes_four off)

/-- The ModRM byte of an encoded memory-only operand, and what is decoded from it and the bytes after it. -/
theorem memOnly_fields (f : MemOp → Instr) {digit : Nat} (hd : digit < 8) {m : MemOp} (hm : m.wellFormed = true)
    (rest : List Byte) :
    ∃ b bs, encodeMem digit m ++ rest = b :: bs ∧ b.toNat / 8 % 8 = digit ∧
      decodeMemOnly f b.toNat bs = .instr (f m) := by
  obtain ⟨b, bs, hb, hdigit, h3, operand⟩ := mem_fields digit hd m hm rest
  exact ⟨b, bs ++ rest, hb, hdigit, by rw [decodeMemOnly, if_neg h3, operand, Decoded.ofOption]⟩

/-- `FF /5` is JMP (R129). -/
theorem decodeFF_encodeMem_five {m : MemOp} (hm : m.wellFormed = true) (rest : List Byte) :
    decodeFF (encodeMem 5 m ++ rest) = .instr (.jmpMem m) := by
  obtain ⟨b, bs, hb, digit, operand⟩ := memOnly_fields .jmpMem (digit := 5) (by decide) hm rest
  rw [hb, decodeFF, digit]
  exact operand

/-- `FF /3` is CALL (R131). -/
theorem decodeFF_encodeMem_three {m : MemOp} (hm : m.wellFormed = true) (rest : List Byte) :
    decodeFF (encodeMem 3 m ++ rest) = .instr (.callMem m) := by
  obtain ⟨b, bs, hb, digit, operand⟩ := memOnly_fields .callMem (digit := 3) (by decide) hm rest
  rw [hb, decodeFF, digit]
  exact operand

/-- `0F 00 /3` is LTR (R134). -/
theorem decode0F_encodeRegMem_three {rm : RegMem} (hrm : rm.wellFormed = true) (rest : List Byte) :
    decode0F (0x00#8 :: (encodeRegMem 3 rm ++ rest)) = .instr (.ltr rm) := by
  obtain ⟨b, bs, hb, digit, operand⟩ := reg_fields 3 (by decide) .ltr rm hrm rest
  rw [hb, decode0F, if_pos (by rfl), digit]
  exact operand

/-- `0F 00 /1` is STR (R135). -/
theorem decode0F_encodeRegMem_one {rm : RegMem} (hrm : rm.wellFormed = true) (rest : List Byte) :
    decode0F (0x00#8 :: (encodeRegMem 1 rm ++ rest)) = .instr (.str rm) := by
  obtain ⟨b, bs, hb, digit, operand⟩ := reg_fields 1 (by decide) .str rm hrm rest
  rw [hb, decode0F, if_pos (by rfl), digit]
  exact operand

theorem decode_encode_append {i : Instr} (hi : i.wellFormed = true) (rest : List Byte) :
    decode (encode i ++ rest) = .instr i := by
  cases i with
  | jmpPtr sel off => exact decodeFarPtr_bytes .jmpPtr sel off rest
  | jmpMem m => exact decodeFF_encodeMem_five hi rest
  | callPtr sel off => exact decodeFarPtr_bytes .callPtr sel off rest
  | callMem m => exact decodeFF_encodeMem_three hi rest
  | iret => rfl
  | intN n => rfl
  | ltr rm => exact decode0F_encodeRegMem_three hi rest
  | str rm => exact decode0F_encodeRegMem_one hi rest

theorem decode_encode {i : Instr} (hi : i.wellFormed = true) : decode (encode i) = .instr i := by
  rw [← List.append_nil (encode i), decode_encode_append hi]

/-! ### Encoding what was decoded -/

/-- After `FF`, an instruction is JMP with digit 5 or CALL with digit 3. -/
theorem decodeFF_instr {bs : List Byte} {i : Instr} (h : decodeFF bs = .instr i) :
    ∃ m, m.wellFormed = true ∧ ∃ rest,
      (i = .jmpMem m ∧ bs = encodeMem 5 m ++ rest) ∨ (i = .callMem m ∧ bs = encodeMem 3 m ++ rest) := by
  cases bs with
  | nil => cases h
  | cons b bs =>
    rw [decodeFF] at h
    split at h
    · next digit =>
      obtain ⟨m, rfl, hm, rest, hb⟩ := memOnly_inv digit h
      exact ⟨m, hm, rest, .inl ⟨rfl, hb⟩⟩
    · next digit =>
      obtain ⟨m, rfl, hm, rest, hb⟩ := memOnly_inv digit h
      exact ⟨m, hm, rest, .inr ⟨rfl, hb⟩⟩
    · cases h

/-- After `0F`, an instruction has the byte `00` and is LTR with digit 3 or STR with digit 1. -/
theorem decode0F_instr {bs : List Byte} {i : Instr} (h : decode0F bs = .instr i) :
    ∃ rm, rm.wellFormed = true ∧ ∃ rest,
      (i = .ltr rm ∧ bs = 0x00#8 :: (encodeRegMem 3 rm ++ rest)) ∨
        (i = .str rm ∧ bs = 0x00#8 :: (encodeRegMem 1 rm ++ rest)) := by
  cases bs with
  | nil => cases h
  | cons op bs =>
    by_cases h0 : op.toNat = 0
    · obtain rfl : op = 0x00#8 := byte_eq h0
      cases bs with
      | nil => cases h
      | cons b bs =>
        rw [decode0F, if_pos h0] at h
        split at h
        · next digit =>
          obtain ⟨rm, rfl, hrm, rest, hb⟩ := regMem_inv digit h
          exact ⟨rm, hrm, rest, .inl ⟨rfl, congrArg _ hb⟩⟩
        · next digit =>
          obtain ⟨rm, rfl, hrm, rest, hb⟩ := regMem_inv digit h
          exact ⟨rm, hrm, rest, .inr ⟨rfl, congrArg _ hb⟩⟩
        · cases h
    · simp [decode0F, h0] at h

/-- By its first byte: bytes that are an instruction begin with one of the six opcode bytes of the table. -/
theorem decode_cons_instr {b : Byte} {bs : List Byte} {i : Instr} (h : decode (b :: bs) = .instr i) :
    (b = 0xEA#8 ∧ decodeFarPtr .jmpPtr bs = .instr i) ∨ (b = 0x9A#8 ∧ decodeFarPtr .callPtr bs = .instr i) ∨
      (b = 0xCF#8 ∧ i = .iret) ∨ (b = 0xCD#8 ∧ decodeInt bs = .instr i) ∨
      (b = 0xFF#8 ∧ decodeFF bs = .instr i) ∨ (b = 0x0F#8 ∧ decode0F bs = .instr i) := by
  rw [decode] at h
  split at h
  · next hb => exact .inl ⟨byte_eq hb, h⟩
  split at h
  · next hb => exact .inr (.inl ⟨byte_eq hb, h⟩)
  split at h
  · next hb => cases h; exact .inr (.inr (.inl ⟨byte_eq hb, rfl⟩))
  split at h
  · next hb => exact .inr (.inr (.inr (.inl ⟨byte_eq hb, h⟩)))
  split at h
  · next hb => exact .inr (.inr (.inr (.inr (.inl ⟨byte_eq hb, h⟩))))
  split at h
  · next hb => exact .inr (.inr (.inr (.inr (.inr ⟨byte_eq hb, h⟩))))
  split at h
  · cases h
  · cases h

theorem encode_of_decode {bs : List Byte} {i : Instr} (h : decode bs = .instr i) :
    i.wellFormed = true ∧ ∃ rest, bs = encode i ++ rest := by
  cases bs with
  | nil => cases h
  | cons b bs =>
    rcases decode_cons_instr h with
      ⟨rfl, hj⟩ | ⟨rfl, hc⟩ | ⟨rfl, rfl⟩ | ⟨rfl, hn⟩ | ⟨rfl, hF⟩ | ⟨rfl, h0⟩
    · obtain ⟨sel, off, rest, rfl, rfl⟩ := farPtr_inv hj
      exact ⟨rfl, rest, rfl⟩
    · obtain ⟨sel, off, rest, rfl, rfl⟩ := farPtr_inv hc
      exact ⟨rfl, rest, rfl⟩
    · exact ⟨rfl, bs, rfl⟩
    · cases bs with
      | nil => cases hn
      | cons n rest => cases hn; exact ⟨rfl, rest, rfl⟩
    · obtain ⟨m, hm, rest, ⟨rfl, rfl⟩ | ⟨rfl, rfl⟩⟩ := decodeFF_instr hF
      · exact ⟨hm, rest, rfl⟩
      · exact ⟨hm, rest, rfl⟩
    · obtain ⟨rm, hrm, rest, ⟨rfl, rfl⟩ | ⟨rfl, rfl⟩⟩ := decode0F_instr h0
      · exact ⟨hrm, rest, rfl⟩
      · exact ⟨hrm, rest, rfl⟩

/-- An answer on a proper prefix would be the whole instruction, whose encoding does not fit (R136). -/
theorem decode_take_encode {i : Instr} {n : Nat} (hi : i.wellFormed = true) (hn : n < i.length) :
    decode ((encode i).take n) = .more := by
  by_contra answer
  have whole := decode_append ((encode i).drop n) answer
  rw [List.take_append_drop, decode_encode hi] at whole
  obtain ⟨-, rest, fits⟩ := encode_of_decode whole.symm
  have lengths := congrArg List.length fits
  rw [List.length_take, List.length_append, ← Instr.length] at lengths
  omega

/-- The illegal forms of R129 and R131. -/
theorem decode_illegal {m : Byte} (h3 : m.toNat / 64 = 3) (digit : m.toNat / 8 % 8 = 3 ∨ m.toNat / 8 % 8 = 5) :
    decode [0xFF, m] = .illegal := by
  show decodeFF [m] = .illegal
  rcases digit with digit | digit <;>
  · rw [decodeFF, digit]
    exact if_pos h3

end Sys2Proof

namespace Sys2Proof.Machine

open Sys2Proof.Safety

/-! ### A fetch that stops (30_encoding.md R136) -/

/-- While the decoder asks for more, the fetch goes on by one byte. -/
theorem fetchFrom_take_succ {s : State} {bs : List Byte} (h : FetchesBytes s bs) (hd : decode bs = .more) (n : Nat)
    {k : Nat} (hk : k < bs.length) : fetchFrom s (n + 1) (bs.take k) = fetchFrom s n (bs.take (k + 1)) := by
  have count : (bs.take k).length = k := List.length_take_of_le hk.le
  have extend : bs.take k ++ [bs[k]] = bs.take (k + 1) := List.take_append_getElem hk
  simp only [fetchFrom, decode_take_more k hd, count, h k hk, Res.ok_bind, BitVec.ofNat_toNat, BitVec.setWidth_eq,
    extend]

/-- A byte that cannot be fetched, after bytes that could, ends the fetch as its own read ends. -/
theorem fetchFrom_error {s : State} {bs : List Byte} {e : Stop} (h : FetchesBytes s bs) (hd : decode bs = .more)
    (he : segRead s .cs .fetch (s.eip + BitVec.ofNat 32 bs.length) 1 = .error e) (n k : Nat) (hk : k ≤ bs.length)
    (hn : bs.length < k + n) : fetchFrom s n (bs.take k) = .error e := by
  induction n generalizing k with
  | zero => omega
  | succ n ih =>
    rcases hk.lt_or_eq with hlt | rfl
    · rw [fetchFrom_take_succ h hd n hlt]
      exact ih (k + 1) hlt (by omega)
    · rw [List.take_length]
      simp only [fetchFrom, hd, he, Res.error_bind]

/-- An exception of the fetch is taken in the state of the instruction. -/
theorem step_of_fetch_raise {s : State} {bs : List Byte} {e : Exc} (hm : s.inProtectedMode = true)
    (h32 : (s.segs.cs.valid && !s.segs.cs.db) = false) (h : FetchesBytes s bs) (hd : decode bs = .more)
    (hn : bs.length < 15) (he : segRead s .cs .fetch (s.eip + BitVec.ofNat 32 bs.length) 1 = .error (.raise e)) :
    step s = takeException e s := by
  have failed : fetchInstr s = .error (.raise e) := fetchFrom_error h hd he 15 0 (Nat.zero_le _) (by omega)
  simp only [step, stepWith, nextAction, hm, if_true, dueInterrupt, fetchAction, h32, Bool.false_eq_true, if_false,
    failed]

theorem fetchesBytes_nil (s : State) : FetchesBytes s [] := fun _ hk => absurd hk (Nat.not_lt_zero _)

/-! ### The rights and the limit of the code segment (20_memory.md R67) -/

/-- Whichever check comes first, the fetch through a register that is no code segment raises `#GP(0)`. -/
theorem segRead_fetch_not_code {s : State} (hc : (s.seg .cs).isCode = false) (off : Word) (n : Nat) :
    segRead s .cs .fetch off n = raise (excCode .gp 0) := by
  refine segRead_of_segCheck_raise ?_
  have rights : (s.seg .cs).allows .fetch = false := hc
  rw [segCheck, rights]
  cases (s.seg .cs).valid
  · rfl
  · cases (s.seg .cs).within off n <;> rfl

/-- A code segment is not expand-down. -/
theorem SegReg.expandDown_of_isCode {r : SegReg} (hc : r.isCode = true) : r.expandDown = false := by
  obtain ⟨-, code⟩ := Bool.and_eq_true_iff.1 hc
  simp [SegReg.expandDown, SegReg.isData, code]

/-- Beyond the limit of a code segment, valid or not, the fetch of a byte raises `#GP(0)`. -/
theorem segRead_fetch_beyond {s : State} {off : Word} (hc : (s.seg .cs).isCode = true)
    (hl : (s.seg .cs).limit.toNat < off.toNat) : segRead s .cs .fetch off 1 = raise (excCode .gp 0) := by
  refine segRead_of_segCheck_raise ?_
  cases hv : (s.seg .cs).valid with
  | false => exact segCheck_invalid hv .fetch off 1
  | true => exact segCheck_beyond (SegReg.expandDown_of_isCode hc) hv (Nat.add_lt_add_right hl 1) .fetch

/-! ### Memory operands (30_encoding.md R123, R124, R127) -/

theorem scaledIndex_of_ne_esp {x : Reg} (hx : x ≠ .esp) (s : State) (sc : BitVec 2) :
    scaledIndex s sc x = s.gpr x <<< sc.toNat := by
  cases x with
  | esp => exact absurd rfl hx
  | eax | ecx | edx | ebx | ebp | esi | edi => rfl

theorem effAddr_sib_of_ne_esp {x : Reg} (hx : x ≠ .esp) (s : State) (sc : BitVec 2) (b : Reg) (e : Disp) :
    effAddr s (.sib sc x b e) = s.gpr b + (s.gpr x <<< sc.toNat) + dispValue e := by
  rw [effAddr, scaledIndex_of_ne_esp hx]

/-- Index 100b is no index. -/
theorem effAddr_sib_esp (s : State) (sc : BitVec 2) (b : Reg) (e : Disp) :
    effAddr s (.sib sc .esp b e) = s.gpr b + dispValue e := by
  rw [effAddr, scaledIndex, add_zero]

theorem baseSeg_eq (b : Reg) : baseSeg b = if b = .esp ∨ b = .ebp then .ss else .ds := by
  cases b <;> rfl

theorem leNat_pair (lo hi : Byte) : BitVec.ofNat 16 (leNat [lo, hi]) = hi ++ lo := by
  apply BitVec.eq_of_toNat_eq
  have hlo := lo.isLt
  have hhi := hi.isLt
  rw [BitVec.toNat_append, ← Nat.shiftLeft_add_eq_or_of_lt hlo, Nat.shiftLeft_eq]
  simp only [leNat, BitVec.toNat_ofNat]
  omega

/-- A read of `n` of the bytes of a memory operand, from byte `k` on, with paging off. -/
theorem readOperand_bytes {s : State} {m : MemOp} {bs : List Byte} {k n : Nat} (hp : s.paging = false)
    (hc : segCheck s (operandSeg m) .read (effAddr s m + BitVec.ofNat 32 k) n = .ok ())
    (hb : ∀ i (hi : i < bs.length),
      s.mem.read (segLinear s (operandSeg m) (effAddr s m) + BitVec.ofNat 32 i).toNat = some bs[i])
    (hn : k + n ≤ bs.length) :
    readOperand s m (BitVec.ofNat 32 k) n = .ok (leNat ((bs.drop k).take n)) := by
  have count : ((bs.drop k).take n).length = n := by
    rw [List.length_take, List.length_drop]
    omega
  have there := memRead_bytes hp .read s.cpl (segLinear s (operandSeg m) (effAddr s m + BitVec.ofNat 32 k))
    ((bs.drop k).take n) fun i hi => by
      rw [List.getElem_take, List.getElem_drop, ← hb, BitVec.ofNat_add, segLinear, segLinear, BitVec.add_assoc,
        BitVec.add_assoc, BitVec.add_assoc]
  rw [readOperand, segRead, hc, Res.ok_bind, ← there, count]

end Sys2Proof.Machine

namespace Sys2Proof.Proofs

open Sys2Proof.Machine Sys2Proof.Safety

/-- Settles O1: after its opcode bytes each row has its operand, and operands read back. -/
theorem encodeThenDecode : Obligations.EncodeThenDecode := fun _ rest hi => decode_encode_append hi rest

/-- Settles O2, by the first byte and the operand of each row. -/
theorem decodeThenEncode : Obligations.DecodeThenEncode := fun _ _ => encode_of_decode

/-- Settles O3: with O2, no proper prefix of an encoding can have an answer. -/
theorem decodeAsksForMore : Obligations.DecodeAsksForMore := fun _ _ => decode_take_encode

/-- Settles O4, by running the decoder on each word. -/
theorem specWordsDecode : Obligations.SpecWordsDecode := by
  unfold Obligations.SpecWordsDecode
  decide

/-- Settles O7: the fetch ends with the instruction that the encoding decodes to. -/
theorem stepRunsInstruction : Obligations.StepRunsInstruction := by
  intro s i hr hi hf
  have hd := decode_encode hi
  rw [step_of hr hf (fun more => nomatch hd.symm.trans more) (length_le i), hd]

/-- Settles O8: the decoder calls the two bytes illegal. -/
theorem illegalFormRaisesUd : Obligations.IllegalFormRaisesUd := by
  intro s m hr h3 digit hf
  have hd := decode_illegal h3 digit
  rw [step_of hr hf (fun more => nomatch hd.symm.trans more) (by simp), hd]

/-- Settles O10: the first byte is fetched after none, and every later one after those before it. -/
theorem fetchFaultRaisesGp : Obligations.FetchFaultRaisesGp := by
  intro s hm
  have code32 (hdb : s.segs.cs.db = true) : (s.segs.cs.valid && !s.segs.cs.db) = false := by simp [hdb]
  have first (h32 : (s.segs.cs.valid && !s.segs.cs.db) = false)
      (he : segRead s .cs .fetch s.eip 1 = raise (excCode .gp 0)) : step s = takeException (excCode .gp 0) s :=
    step_of_fetch_raise hm h32 (fetchesBytes_nil s) rfl (by decide) (by simpa [raise] using he)
  refine ⟨?_, fun bs hdb hn hf hd => ⟨fun hc hl => ?_, fun e he => ?_⟩⟩
  · rintro (hv | ⟨hdb, hk⟩ | ⟨hdb, hc, hl⟩)
    · exact first (by simp [hv]) (segRead_of_segCheck_raise (segCheck_invalid (seg := .cs) hv .fetch s.eip 1))
    · exact first (code32 hdb) (segRead_fetch_not_code (Bool.and_eq_false_iff.2 hk) s.eip 1)
    · exact first (code32 hdb) (segRead_fetch_beyond hc hl)
  · exact step_of_fetch_raise hm (code32 hdb) hf hd hn (segRead_fetch_beyond hc hl)
  · exact step_of_fetch_raise hm (code32 hdb) hf hd hn he

/-- Settles O12, by the form of the operand and the index. -/
theorem effectiveAddressForms : Obligations.EffectiveAddressForms := by
  intro s b x sc v d
  have indexed (hx : x ≠ .esp) := effAddr_sib_of_ne_esp hx s sc b
  have unindexed := effAddr_sib_esp s sc b
  exact ⟨BitVec.add_zero _, rfl, rfl, rfl,
    fun hx => indexed hx (.d32 d), fun hx => indexed hx (.d8 v),
    fun hx => (indexed hx .none).trans (BitVec.add_zero _),
    (unindexed .none).trans (BitVec.add_zero _), unindexed (.d8 v), unindexed (.d32 d),
    fun hx => congrArg (d + ·) (scaledIndex_of_ne_esp hx s sc), BitVec.add_zero d,
    fun e => ⟨baseSeg_eq b, baseSeg_eq b⟩, rfl, rfl⟩

/-- Settles O13: the selector's two bytes follow the four of the offset, which are read before them. -/
theorem farPointerInMemory : Obligations.FarPointerInMemory := by
  intro s m b0 b1 b2 b3 b4 b5 hp hoff hsel hb
  have part (k n : Nat) := readOperand_bytes (m := m) (bs := [b0, b1, b2, b3, b4, b5]) (k := k) (n := n) hp
  have offset : readOperand s m 0 4 = .ok (leNat [b0, b1, b2, b3]) :=
    part 0 4 (by rwa [BitVec.add_zero]) hb (by simp)
  have selector : readOperand s m 4 2 = .ok (leNat [b4, b5]) := part 4 2 hsel hb (by simp)
  rw [readFarPtr, offset, Res.ok_bind, selector, Res.ok_bind, leNat_pair]

end Sys2Proof.Proofs
end

section
/-! The statements of 40_task_register.md: STR to a register and to memory, LTR of a task and what it rejects, and the
memory operands that trap. -/

namespace Sys2Proof.Machine

open Sys2Proof.Safety

theorem requireProtected_pass {s : State} (hm : s.inProtectedMode = true) : requireProtected s = .ok () :=
  requireProtected_ok.2 hm

/-! ### STR (R151) -/

/-- The destination written, STR moves EIP past itself. -/
theorem exec_str_of_write {s t : State} {rm : RegMem} (hm : s.inProtectedMode = true)
    (h : writeRegMem16 s s.tr.selector rm = .ok t) :
    exec (.str rm) s = .next (t.withEip (s.nextEip (.str rm))) := by
  rw [exec_str, strOp, requireProtected_pass hm, Res.ok_bind, h, Res.ok_bind, finish_done]

theorem exec_str_of_write_error {s : State} {rm : RegMem} {x : Stop} (hm : s.inProtectedMode = true)
    (h : writeRegMem16 s s.tr.selector rm = .error x) : exec (.str rm) s = finish s (.error x) := by
  rw [exec_str, strOp, requireProtected_pass hm, Res.ok_bind, h, Res.error_bind]

/-- A write through a segment register that passes its checks, paging off. -/
theorem segWrite_flat {s : State} {seg : SegName} {off : Word} {n : Nat} (hp : s.paging = false)
    (hc : segCheck s seg .write off n = .ok ()) (v : Nat) :
    segWrite s seg off n v = .ok (s.withMem (writeCells s.mem (linBytes (segLinear s seg off) n) (leBytes n v))) := by
  rw [segWrite, hc, Res.ok_bind, memWrite_flat hp]

/-- The two bytes of a 16-bit value, the low one first (20_memory.md R65). -/
theorem leBytes_two (v : BitVec 16) : leBytes 2 v.toNat = [v.extractLsb' 0 8, v.extractLsb' 8 8] := by
  have low : BitVec.ofNat 8 v.toNat = v.extractLsb' 0 8 := BitVec.eq_of_toNat_eq (by simp)
  have high : BitVec.ofNat 8 (v.toNat / 256) = v.extractLsb' 8 8 :=
    BitVec.eq_of_toNat_eq (by simp [Nat.shiftRight_eq_div_pow])
  rw [leBytes, leBytes, leBytes, low, high]

/-- Memory after a 16-bit value is written at a linear address: its two bytes there, the low one first, and the rest
as before. -/
theorem read_writeCells_two (m : Memory) (lin : Word) (v : BitVec 16) :
    let w := writeCells m (linBytes lin 2) (leBytes 2 v.toNat)
    w.read lin.toNat = some (v.extractLsb' 0 8) ∧ w.read (lin + 1).toNat = some (v.extractLsb' 8 8) ∧
      ∀ a, a ≠ lin.toNat → a ≠ (lin + 1).toNat → w.read a = m.read a := by
  intro w
  have back : (linBytes lin 2).map w.read = (leBytes 2 v.toNat).map some :=
    writeCells_read_back _ _ m (linBytes_nodup lin 2 (by decide)) (by simp)
  rw [leBytes_two] at back
  obtain ⟨low, high⟩ : w.read lin.toNat = some (v.extractLsb' 0 8) ∧
      w.read (lin + 1).toNat = some (v.extractLsb' 8 8) := by simpa [linBytes] using back
  exact ⟨low, high, fun a hlo hhi => writeCells_read_other _ _ m a (by
    simp only [linBytes, List.mem_cons, List.not_mem_nil, or_false, not_or]
    exact ⟨hlo, hhi⟩)⟩

/-! ### The descriptor of an available task (20_memory.md R76, R77, R82) -/

/-- An available 32-bit TSS by its bits (20_memory.md R82): S = 0 and the type 1001B, whose bit 1 is the busy flag. -/
theorem available_of_bits {d : Desc} (hs : d.getLsbD 44 = false) (ht : d.extractLsb' 40 4 = 0b1001#4) :
    isTss32 d = true ∧ descBusy d = false := by
  have hS : descS d = false := hs
  have hT : descType d = 9#4 := ht
  have busy : (descType d).getLsbD 1 = descBusy d := by simp [descType, descBusy]
  exact ⟨by simp [isTss32, hS, hT], by rw [← busy, hT]; rfl⟩

/-- TR as LTR caches a present TSS, by the bits of its descriptor. -/
theorem taskReg_of_present (sel : Selector) {d : Desc} (hp : d.getLsbD 47 = true) :
    taskReg sel d =
      { selector := sel, base := baseBits d, limit := descLimit d
        attr := { type := 0b1011#4, dpl := d.extractLsb' 45 2, p := true, g := d.getLsbD 55 } } := by
  rw [taskReg, descAttr, descBase_bits, descP, hp]; rfl

/-- Marking a descriptor busy sets bit 1 of its byte 5 (20_memory.md R76). -/
theorem busyByte_true (t : Byte) : busyByte t true = t ||| 2#8 := by
  have others : 0xFD#8 = ~~~2#8 := rfl
  rw [busyByte, if_pos rfl, others]
  ext i hi
  rw [BitVec.getElem_or, BitVec.getElem_and, BitVec.getElem_not, BitVec.getElem_or]
  cases t[i] <;> simp

/-! ### The checks of LTR (R150) -/

section
variable {s : State} {sel : Selector} {d : Desc}

theorem ltrDesc_null (h0 : selNull sel = true) : ltrDesc s sel = raise (excCode .gp 0) := by
  rw [ltrDesc, h0]; rfl

/-- A selector of the LDT or beyond the GDT. -/
theorem ltrDesc_outside (h0 : selNull sel = false) (h : selTi sel = true ∨ inGdt s sel = false) :
    ltrDesc s sel = raise (excCode .gp (selCode sel false)) := by
  rw [ltrDesc, h0]
  cases ht : selTi sel with
  | true => rfl
  | false =>
    have hg : inGdt s sel = false := h.resolve_left (by simp [ht])
    rw [hg]; rfl

/-- What is left to check once the descriptor is found: its type with the busy flag, then present. -/
theorem ltrDesc_found (h0 : selNull sel = false) (ht : selTi sel = false) (hg : inGdt s sel = true)
    (hd : readDescAt s (gdtAddr s sel) = .ok d) :
    ltrDesc s sel =
      if isTss16 d then refuse .sixteenBitTss
      else (do
        require (isTss32 d && !descBusy d) (excCode .gp (selCode sel false))
        require (descP d) (excCode .np (selCode sel false))
        .ok d) := by
  rw [ltrDesc, h0, ht, hg, hd]; rfl

theorem ltrDesc_available (h0 : selNull sel = false) (ht : selTi sel = false) (hg : inGdt s sel = true)
    (hd : readDescAt s (gdtAddr s sel) = .ok d) (h32 : isTss32 d = true) (hb : descBusy d = false)
    (hp : descP d = true) : ltrDesc s sel = .ok d := by
  obtain ⟨-, h16, -, -⟩ := tss32_facts h32
  rw [ltrDesc_found h0 ht hg hd, h16, h32, hb, hp]; rfl

end

/-! ### LTR (R150) -/

theorem exec_ltr_user {s : State} (hm : s.inProtectedMode = true) (hc : s.cpl ≠ 0) (rm : RegMem) :
    exec (.ltr rm) s = takeException (excCode .gp 0) s := by
  rw [exec_ltr, ltrOp, requireProtected_pass hm, Res.ok_bind, beq_false_of_ne hc]; rfl

section
variable {s : State} {rm : RegMem} {sel : Selector} (hm : s.inProtectedMode = true) (hc : s.cpl = 0)
include hm hc

/-- At CPL 0 the operand is read, its descriptor checked and marked busy, and TR loaded. -/
theorem ltrOp_supervisor : ltrOp rm s = (do
    let sel ← readRegMem16 s rm
    let d ← ltrDesc s sel
    let t ← setBusy s sel true
    .ok (done ((t.withTr (taskReg sel d)).withEip (s.nextEip (.ltr rm))))) := by
  rw [ltrOp, requireProtected_pass hm, Res.ok_bind, hc]; rfl

theorem exec_ltr_of_read_error {x : Stop} (hr : readRegMem16 s rm = .error x) :
    exec (.ltr rm) s = finish s (.error x) := by
  rw [exec_ltr, ltrOp_supervisor hm hc, hr, Res.error_bind]

theorem exec_ltr_of_desc_error {x : Stop} (hr : readRegMem16 s rm = .ok sel) (hd : ltrDesc s sel = .error x) :
    exec (.ltr rm) s = finish s (.error x) := by
  rw [exec_ltr, ltrOp_supervisor hm hc, hr, Res.ok_bind, hd, Res.error_bind]

theorem exec_ltr_of_desc {t : State} {d : Desc} (hr : readRegMem16 s rm = .ok sel) (hd : ltrDesc s sel = .ok d)
    (ht : setBusy s sel true = .ok t) :
    exec (.ltr rm) s = .next ((t.withTr (taskReg sel d)).withEip (s.nextEip (.ltr rm))) := by
  rw [exec_ltr, ltrOp_supervisor hm hc, hr, Res.ok_bind, hd, Res.ok_bind, ht, Res.ok_bind, finish_done]

end

/-! ### The far pointer in memory (30_encoding.md R127) -/

theorem readOperand_zero (s : State) (m : MemOp) (n : Nat) :
    readOperand s m 0 n = segRead s (operandSeg m) .read (effAddr s m) n := by
  have start : effAddr s m + 0 = effAddr s m := BitVec.add_zero _
  rw [readOperand, start]

/-- A far transfer whose pointer cannot be read stops as the read does. -/
theorem exec_of_readFarPtr_error {s : State} {i : Instr} {m : MemOp} {x : Stop} (hm : s.inProtectedMode = true)
    (hi : i = .jmpMem m ∨ i = .callMem m) (h : readFarPtr s m = .error x) : exec i s = finish s (.error x) := by
  have stops (init : Initiator) (ret : Word) : farMemOp init m ret s = .error x := by
    rw [farMemOp, requireProtected_pass hm, Res.ok_bind, h, Res.error_bind]
  rcases hi with rfl | rfl <;> exact congrArg (finish s) (stops _ _)

end Sys2Proof.Machine

namespace Sys2Proof.Proofs

open Sys2Proof.Machine Sys2Proof.Safety

/-- Settles O22: the write passes its checks, and its two bytes are apart. -/
theorem strToMemory : Obligations.StrToMemory := by
  intro s m hm hp hc lo hi
  exact ⟨_, exec_str_of_write hm (segWrite_flat hp hc s.tr.selector.toNat), rfl,
    read_writeCells_two s.mem (segLinear s (operandSeg m) (effAddr s m)) s.tr.selector⟩

/-- Settles O24: every check of LTR passes, and the byte marked busy is byte 5 of the descriptor that was read. -/
theorem ltrLoadsTask : Obligations.LtrLoadsTask := by
  intro s rm sel d hm hp hc hr h0 ht hg hd hs htype hP
  obtain ⟨h32, hb⟩ := available_of_bits hs htype
  have marked := setBusy_flat (b := true) hp (busy_listed hp hd)
  refine ⟨_, exec_ltr_of_desc hm hc hr (ltrDesc_available h0 ht hg hd h32 hb hP) marked,
    by rw [taskReg_of_present sel hP]; rfl, ?_, fun a ha => Memory.read_write_other s.mem _ a _ ha⟩
  exact (Memory.read_write_self ..).trans (congrArg some (busyByte_true _))

/-- Settles O26, by the checks of LTR in their order. -/
theorem ltrRejects : Obligations.LtrRejects := by
  intro s rm sel hm hc hr
  have raises {e : Exc} (h : ltrDesc s sel = raise e) : exec (.ltr rm) s = takeException e s :=
    exec_ltr_of_desc_error hm hc hr h
  have refuses {r : Refusal} (h : ltrDesc s sel = refuse r) : exec (.ltr rm) s = .refused r :=
    exec_ltr_of_desc_error hm hc hr h
  refine ⟨fun h0 => raises (ltrDesc_null h0), fun h0 h => raises (ltrDesc_outside h0 h), fun d h0 ht hg hd => ?_⟩
  have found := ltrDesc_found h0 ht hg hd
  refine ⟨fun h16 => refuses ?_, fun h16 h => raises ?_, fun h32 hb hP => raises ?_⟩
  · rw [found, h16]; rfl
  · have unavailable : (isTss32 d && !descBusy d) = false := by
      rcases h with h | h <;> simp [h]
    rw [found, h16, unavailable]; rfl
  · obtain ⟨-, h16, -, -⟩ := tss32_facts h32
    rw [found, h16, h32, hb, hP]; rfl

/-- Settles O21: a general register can always be written. -/
theorem strToRegister : Obligations.StrToRegister := fun _ r hm => exec_str_of_write (rm := .reg r) hm rfl

/-- Settles O23: each access is the first that can fail once those before it have not. -/
theorem memoryOperandTraps : Obligations.MemoryOperandTraps := by
  intro s m e hm
  refine ⟨fun hw => exec_str_of_write_error (rm := .mem m) hm hw, fun hc hr => ?_,
    fun i hi => ⟨fun hoff => ?_, fun v hoff hsel => ?_⟩⟩
  · exact exec_ltr_of_read_error (rm := .mem m) hm hc (by rw [readRegMem16, readOperand_zero, hr, Res.error_bind])
  · exact exec_of_readFarPtr_error hm hi (by rw [readFarPtr, readOperand_zero, hoff, Res.error_bind])
  · exact exec_of_readFarPtr_error hm hi
      (by rw [readFarPtr, readOperand_zero, hoff, Res.ok_bind, readOperand, hsel, Res.error_bind])

/-- Settles O25: the CPL is checked before the operand is read. -/
theorem ltrIsPrivileged : Obligations.LtrIsPrivileged := fun _ rm hm hc => exec_ltr_user hm hc rm

end Sys2Proof.Proofs
end

section
/-! The statements of 41_task_dispatch.md: the instructions and events that enter a task, the push of an error code, and
where each of them traps or is refused. -/

namespace Sys2Proof.Machine

open Sys2Proof.Safety

/-! ### How an instruction or an exception ends (60_exceptions.md R256) -/

@[simp] theorem finish_raise (s : State) (e : Exc) : finish s (raise e) = takeException e s := rfl

@[simp] theorem finish_refuse (s : State) (r : Refusal) : finish s (refuse r) = .refused r := rfl

theorem takeException_of_deliver_done {s t : State} {e : Exc}
    (h : deliverEvent (vectorOf e.name) .exception e.code s.eip s = .ok (done t)) : takeException e s = .next t := by
  simp only [takeException, h, done]

theorem takeException_of_deliver_raise {s : State} {e x : Exc}
    (h : deliverEvent (vectorOf e.name) .exception e.code s.eip s = raise x) :
    takeException e s = .fault .nestedFault := by
  simp only [takeException, h, raise]

theorem takeException_of_deliver_pending {s u : State} {e x : Exc}
    (h : deliverEvent (vectorOf e.name) .exception e.code s.eip s = .ok { state := u, pending := some x }) :
    takeException e s = .fault .nestedFault := by
  simp only [takeException, h]

theorem takeException_of_deliver_refuse {s : State} {e : Exc} {r : Refusal}
    (h : deliverEvent (vectorOf e.name) .exception e.code s.eip s = refuse r) : takeException e s = .refused r := by
  simp only [takeException, h, refuse]

/-! ### The new task's context (42_task_switch.md R219, R230, R232, R236, R238) -/

/-- NT of the new task: set by an initiator that nests, else as in its TSS (R219); no reserved bit is NT. -/
theorem eflagsNt_loaded (init : Initiator) (f : Word) :
    eflagsNt (maskEflags (incomingEflags init f)) = (nests init || eflagsNt f) := by
  have keeps : eflagsNt (maskEflags (incomingEflags init f)) = eflagsNt (incomingEflags init f) :=
    maskEflags_getLsbD _ 14
  rw [keeps, incomingEflags]
  cases nests init with
  | false => rfl
  | true => simp [eflagsNt, setNt]

@[simp] theorem segOf_selector (r : SegReg) (d : Option Desc) : (segOf r d).selector = r.selector := by
  cases d <;> rfl

@[simp] theorem ldtrOf_selector (r : LdtReg) (d : Option Desc) : (ldtrOf r d).selector = r.selector := by
  cases d <;> rfl

theorem entered_loaded (init : Initiator) (img : TaskImage) (segs : NewSegs) (s : State) :
    TaskLoaded init img segs (entered init img segs s) where
  gprs := rfl
  eip := rfl
  eflags := rfl
  nt := eflagsNt_loaded init img.eflags
  selectors := ⟨segOf_selector _ _, rfl, rfl, segOf_selector _ _, segOf_selector _ _, segOf_selector _ _⟩
  ldtr := ldtrOf_selector _ _
  cpl := rfl
  cs := hiddenPart_load _ _
  ss := hiddenPart_load _ _
  ds := hiddenOrNull_segOf _ _
  es := hiddenOrNull_segOf _ _
  fs := hiddenOrNull_segOf _ _
  gs := hiddenOrNull_segOf _ _
  ldt := ldtPart_ldtrOf _ _

/-- Whatever ends as a switch that completes ends in the new task. -/
theorem finish_completes {init : Initiator} {nsel : Selector} {nd : Desc} {ret : Word} {s s1 : State} {img : TaskImage}
    {segs : NewSegs} (hc : Completes init nsel nd ret s s1 img segs) (ext : Bool) :
    finish s (taskSwitch init nsel nd ret ext [] s) = .next (entered init img segs s1) ∧
      TaskLoaded init img segs (entered init img segs s1) ∧ SwitchFrame init nsel nd s (entered init img segs s1) :=
  ⟨by rw [switch_done hc, finish_done], entered_loaded .., entered_frame hc.commits hc.loads⟩

/-! ### The checks of a switch (42_task_switch.md R205) -/

/-- A switch with failing checks of its own or of its caller raises one of them. -/
theorem taskSwitch_raises {init : Initiator} {nsel : Selector} {nd : Desc} {ret : Word} {ext : Bool} {front : List Exc}
    {s : State} (h : front ++ switchFailures init nsel nd ext s ≠ []) :
    ∃ e ∈ front ++ switchFailures init nsel nd ext s, taskSwitch init nsel nd ret ext front s = raise e := by
  obtain ⟨e, he, hr⟩ := requireNone_error (init := init) h
  exact ⟨e, he, by rw [taskSwitch, hr]; rfl⟩

/-- The exception of the checks of phase 1 when all that fail have the same. -/
theorem taskSwitch_raise_of_only {init : Initiator} {nsel : Selector} {nd : Desc} {ret : Word} {ext : Bool} {s : State}
    {e : Exc} (he : SwitchFails init nsel nd ext s e) (only : ∀ x, SwitchFails init nsel nd ext s x → x = e) :
    taskSwitch init nsel nd ret ext [] s = raise e := by
  obtain ⟨x, hx, hr⟩ := taskSwitch_raises (ret := ret) (front := []) (List.ne_nil_of_mem (fails_iff.2 he))
  rw [hr, only x (fails_iff.1 hx)]

/-- The one failing check of the caller is the one reported when those of phase 1 pass. -/
theorem taskSwitch_front_single {init : Initiator} {nsel : Selector} {nd : Desc} {s : State}
    (hc : ChecksPass init nsel nd s) (ret : Word) (ext : Bool) (e : Exc) :
    taskSwitch init nsel nd ret ext [e] s = raise e :=
  switch_front hc (fun _ => List.mem_singleton.1) (List.cons_ne_nil e [])

/-! ### The target of a task gate (41_task_dispatch.md R179) -/

theorem inGdt_eq_false {s : State} {sel : Selector} :
    inGdt s sel = false ↔ s.gdtr.limit.toNat < 8 * (sel.toNat / 8) + 7 := by
  rw [inGdt, decide_eq_false_iff_not, Nat.not_le, selIndex]

section
variable {s : State} {tsel : Selector} {d : Desc}

theorem gateTarget_outside (h : selTi tsel = true ∨ inGdt s tsel = false) (ext : Bool) :
    gateTarget s tsel ext = raise (excCode .gp (selCode tsel ext)) := by
  rw [gateTarget]
  cases ht : selTi tsel with
  | true => rfl
  | false =>
    have hg : inGdt s tsel = false := h.resolve_left (by simp [ht])
    rw [hg]; rfl

/-- What is left to check once the descriptor is found: its type. -/
theorem gateTarget_found (ht : selTi tsel = false) (hg : inGdt s tsel = true)
    (hd : readDescAt s (gdtAddr s tsel) = .ok d) (ext : Bool) :
    gateTarget s tsel ext =
      if isTss16 d then refuse .sixteenBitTss
      else (do
        require (isTss32 d) (excCode .gp (selCode tsel ext))
        .ok d) := by
  rw [gateTarget, ht, hg, hd]; rfl

end

section
variable {init : Initiator} {g : Desc} {ret : Word} {ext : Bool} {front : List Exc} {s : State}

/-- A rejected target is reported, if the gate's own checks pass. -/
theorem switchViaGate_target_raise {e : Exc} (h : gateTarget s (gateSel g) ext = .error (.raise e)) :
    switchViaGate init g ret ext [] s = raise e := by
  simp only [switchViaGate, h]; rfl

/-- With a rejected target some exception is raised, be it the target's or the gate's own. -/
theorem switchViaGate_raises_of_target {e : Exc} (h : gateTarget s (gateSel g) ext = .error (.raise e)) :
    ∃ x, switchViaGate init g ret ext front s = raise x := by
  obtain ⟨x, -, hx⟩ := requireNone_error (init := init) (fails := front ++ [e]) (by simp)
  exact ⟨x, by simp only [switchViaGate, h, hx]; rfl⟩

/-- With a failing check of the gate itself some exception is raised, whatever the target. -/
theorem switchViaGate_raises_of_front (h : front ≠ []) : ∃ x, switchViaGate init g ret ext front s = raise x := by
  obtain ⟨x, -, hx⟩ := requireNone_error (init := init) h
  cases ht : gateTarget s (gateSel g) ext with
  | ok td =>
    obtain ⟨y, -, hy⟩ := taskSwitch_raises (init := init) (nsel := gateSel g) (nd := td) (ret := ret) (ext := ext)
      (s := s) (List.append_ne_nil_of_left_ne_nil h _)
    exact ⟨y, by simp only [switchViaGate, ht, hy]⟩
  | error stop =>
    cases stop with
    | raise e => exact switchViaGate_raises_of_target ht
    | fault f => exact ⟨x, by simp only [switchViaGate, ht, hx]; rfl⟩
    | refused r => exact ⟨x, by simp only [switchViaGate, ht, hx]; rfl⟩

end

/-! ### The dispatch of a far transfer (R177) -/

section
variable {s : State} {sel : Selector} {d : Desc}

theorem farPrivilege_eq_true : farPrivilege s sel d = true ↔ s.cpl ≤ descDpl d ∧ selRpl sel ≤ descDpl d := by
  rw [farPrivilege, Bool.and_eq_true, decide_eq_true_eq, decide_eq_true_eq]

theorem farPrivilege_eq_false : farPrivilege s sel d = false ↔ descDpl d < s.cpl ∨ descDpl d < selRpl sel := by
  rw [farPrivilege, Bool.and_eq_false_iff, decide_eq_false_iff_not, decide_eq_false_iff_not, BitVec.not_le,
    BitVec.not_le]

variable {init : Initiator} {ret : Word}

theorem farTaskTransfer_null (h0 : selNull sel = true) : farTaskTransfer init sel ret s = raise (excCode .gp 0) := by
  rw [farTaskTransfer, h0]; rfl

theorem farTaskTransfer_outOfTable (h0 : selNull sel = false) (hd : readDesc s sel = .ok none) :
    farTaskTransfer init sel ret s = raise (excCode .gp (selCode sel false)) := by
  rw [farTaskTransfer, h0, hd]; rfl

theorem farTaskTransfer_segment (h0 : selNull sel = false) (hd : readDesc s sel = .ok (some d)) (hs : descS d = true) :
    farTaskTransfer init sel ret s = refuse .farTransferNotModelled := by
  simp [farTaskTransfer, h0, hd, hs]

section
variable (h0 : selNull sel = false) (hd : readDesc s sel = .ok (some d)) (hs : descS d = false)
include h0 hd hs

theorem farTaskTransfer_tss16 (h16 : isTss16 d = true) :
    farTaskTransfer init sel ret s = refuse .sixteenBitTss := by
  simp [farTaskTransfer, h0, hd, hs, h16]

theorem farTaskTransfer_callGate (h16 : isTss16 d = false) (hc : isCallGate d = true) :
    farTaskTransfer init sel ret s = refuse .gateNotModelled := by
  simp [farTaskTransfer, h0, hd, hs, h16, hc]

theorem farTaskTransfer_other (h16 : isTss16 d = false) (hc : isCallGate d = false) (h32 : isTss32 d = false)
    (hg : isTaskGate d = false) : farTaskTransfer init sel ret s = raise (excCode .gp (selCode sel false)) := by
  simp [farTaskTransfer, h0, hd, hs, h16, hc, h32, hg]

end

end

/-- The kinds of system descriptors a far transfer tells apart, by their type alone (20_memory.md R79, R82, R92). -/
theorem systemKinds {d : Desc} (hs : descS d = false) :
    isTss16 d = decide (descType d ∈ [1#4, 3#4]) ∧ isCallGate d = decide (descType d ∈ [4#4, 12#4]) ∧
      isTss32 d = decide (descType d ∈ [9#4, 11#4]) ∧ isTaskGate d = decide (descType d ∈ [5#4]) := by
  simp [isTss16, isCallGate, isTss32, isTaskGate, hs, Bool.beq_eq_decide_eq]

/-! ### The delivery of an event (R183, R184) -/

theorem mem_idtGateFailures {v : Byte} {cls : EventClass} {g : Desc} {s : State} {x : Exc} :
    x ∈ idtGateFailures v cls g s ↔
      ((cls.checksDpl = true ∧ descDpl g < s.cpl) ∧ x = excCode .gp (vectorCode v cls.ext)) ∨
        (descP g = false ∧ x = excCode .np (vectorCode v cls.ext)) := by
  rw [idtGateFailures, List.mem_append, mem_check, mem_check, Bool.or_eq_false_iff, Bool.not_eq_false',
    decide_eq_false_iff_not, BitVec.not_le]

theorem idtGateFailures_pass {v : Byte} {cls : EventClass} {g : Desc} {s : State} (hp : descP g = true)
    (hd : cls.checksDpl = true → s.cpl ≤ descDpl g) : idtGateFailures v cls g s = [] := by
  refine List.eq_nil_iff_forall_not_mem.2 fun x hx => ?_
  rcases mem_idtGateFailures.1 hx with ⟨⟨hc, hl⟩, -⟩ | ⟨hn, -⟩
  · exact BitVec.not_lt.2 (hd hc) hl
  · exact Bool.false_ne_true (hn.symm.trans hp)

section
variable {s : State} {v : Byte} {cls : EventClass} {code : ErrorCode} {ret : Word} {g nd : Desc}

theorem deliverEvent_beyond (h : inIdt s v = false) :
    deliverEvent v cls code ret s = raise (excCode .gp (vectorCode v cls.ext)) := by
  rw [deliverEvent, h]; rfl

/-- Through a gate that names its task, an event without an error code is the switch to it. -/
theorem deliverEvent_none (h : IdtTarget s v cls g nd) :
    deliverEvent v cls .none ret s = taskSwitch .int (gateSel g) nd ret cls.ext [] s := by
  rw [deliver_gate h.inTable h.desc h.gate h.names, idt_front h]
  cases taskSwitch .int (gateSel g) nd ret cls.ext [] s with
  | error x => rfl
  | ok sw =>
    obtain ⟨u, pending⟩ := sw
    cases pending <;> rfl

variable (hv : inIdt s v = true) (hd : readDescAt s (idtAddr s v) = .ok g)
include hv hd

theorem deliverEvent_intGate (hi : isIntGate g = true) : deliverEvent v cls code ret s = refuse .gateNotModelled := by
  rw [deliverEvent, hv, hd, require_true, Res.ok_bind, Res.ok_bind, if_pos hi]

theorem deliverEvent_noGate (hi : isIntGate g = false) (hg : isTaskGate g = false) :
    deliverEvent v cls code ret s = raise (excCode .gp (vectorCode v cls.ext)) := by
  rw [deliverEvent, hv, hd, require_true, Res.ok_bind, Res.ok_bind, hi, hg]; rfl

/-- A task gate that cannot be gone through ends the delivery. -/
theorem deliverEvent_gate_raise (hg : isTaskGate g = true) {x : Exc}
    (hx : switchViaGate .int g ret cls.ext (idtGateFailures v cls g s) s = raise x) :
    deliverEvent v cls code ret s = raise x := by
  obtain ⟨-, -, -, -, hi⟩ := gate_facts hg
  rw [deliverEvent, hv, hd, require_true, Res.ok_bind, Res.ok_bind, hi, hg, hx]; rfl

theorem deliverEvent_dpl (hg : isTaskGate g = true) (hn : GateNames s g nd) (hc : ChecksPass .int (gateSel g) nd s)
    (hcls : cls.checksDpl = true) (hp : descP g = true) (hl : descDpl g < s.cpl) :
    deliverEvent v cls code ret s = raise (excCode .gp (vectorCode v cls.ext)) := by
  refine deliverEvent_gate_raise hv hd hg ?_
  rw [switchViaGate_names hn]
  refine switch_front hc (fun x hx => ?_) (List.ne_nil_of_mem (mem_idtGateFailures.2 (.inl ⟨⟨hcls, hl⟩, rfl⟩)))
  rcases mem_idtGateFailures.1 hx with ⟨-, rfl⟩ | ⟨hp', -⟩
  · rfl
  · exact absurd (hp'.symm.trans hp) Bool.false_ne_true

theorem deliverEvent_notPresent (hg : isTaskGate g = true) (hn : GateNames s g nd)
    (hc : ChecksPass .int (gateSel g) nd s) (hp : descP g = false) (hl : cls.checksDpl = true → s.cpl ≤ descDpl g) :
    deliverEvent v cls code ret s = raise (excCode .np (vectorCode v cls.ext)) := by
  refine deliverEvent_gate_raise hv hd hg ?_
  rw [switchViaGate_names hn]
  refine switch_front hc (fun x hx => ?_) (List.ne_nil_of_mem (mem_idtGateFailures.2 (.inr ⟨hp, rfl⟩)))
  rcases mem_idtGateFailures.1 hx with ⟨⟨hcls, hlt⟩, -⟩ | ⟨-, rfl⟩
  · exact absurd hlt (BitVec.not_lt.2 (hl hcls))
  · rfl

theorem deliverEvent_target_raise (hg : isTaskGate g = true) (hp : descP g = true)
    (hl : cls.checksDpl = true → s.cpl ≤ descDpl g) {e : Exc}
    (he : gateTarget s (gateSel g) cls.ext = .error (.raise e)) : deliverEvent v cls code ret s = raise e := by
  refine deliverEvent_gate_raise hv hd hg ?_
  rw [idtGateFailures_pass hp hl, switchViaGate_target_raise he]

end

/-! ### The return from a nested task (R180) -/

theorem exec_iret_nested {s : State} (hm : s.inProtectedMode = true) (hn : s.eflags.getLsbD 14 = true) :
    exec .iret s = finish s (returnFromTask (s.eip + 1) s) := by
  have hnt : eflagsNt s.eflags = true := hn
  show finish s (iretOp s) = _
  rw [iretOp, requireProtected_pass hm, Res.ok_bind, if_pos hnt]; rfl

theorem exec_iret_flat {s : State} (hm : s.inProtectedMode = true) (hn : s.eflags.getLsbD 14 = false) :
    exec .iret s = .refused .iretWithoutNtNotModelled := by
  have hnt : eflagsNt s.eflags = false := hn
  show finish s (iretOp s) = _
  rw [iretOp, requireProtected_pass hm, hnt]; rfl

section
variable {s : State} {link : Selector} {ret : Word} (hlink : tssHalf s s.tr.base 0 = .ok link)
include hlink

theorem link_reads : ∃ v, tssRead s s.tr.base 0 2 = .ok v ∧ link = BitVec.ofNat 16 v := by
  obtain ⟨v, hv, h⟩ := Res.bind_eq_ok.1 hlink
  exact ⟨v, hv, (Except.ok.inj h).symm⟩

theorem returnFromTask_outside (h : selTi link = true ∨ inGdt s link = false) :
    returnFromTask ret s = raise (excCode .ts (selCode link false)) := by
  obtain ⟨v, hv, rfl⟩ := link_reads hlink
  rw [returnFromTask, hv, Res.ok_bind]
  cases ht : selTi (BitVec.ofNat 16 v) with
  | true => simp only [ht]; rfl
  | false =>
    have hg : inGdt s (BitVec.ofNat 16 v) = false := h.resolve_left (by simp [ht])
    simp only [ht, hg]; rfl

/-- What is left to do once the descriptor is found: its type is checked, and the switch made. -/
theorem returnFromTask_found {d : Desc} (ht : selTi link = false) (hg : inGdt s link = true)
    (hd : readDescAt s (gdtAddr s link) = .ok d) :
    returnFromTask ret s =
      if isTss16 d then refuse .sixteenBitTss
      else (do
        require (isTss32 d) (excCode .ts (selCode link false))
        taskSwitch .iret link d ret false [] s) := by
  obtain ⟨v, hv, rfl⟩ := link_reads hlink
  rw [returnFromTask, hv, Res.ok_bind]
  simp only [ht, hg, hd]; rfl

end

/-! ### The push of an error code (R185, 60_exceptions.md R255) -/

/-- What is pushed for an error code: the code itself, or for a page fault a free value, whose draw is counted. -/
theorem pushErrorCode_eq_push32 {c : ErrorCode} (hc : c ≠ .none) (ext : Bool) (s : State) :
    ∃ v k, pushErrorCode c ext s = push32 v ext (s.withDraws k) ∧
      ∀ x, c = .value x → v.toNat = x.toNat ∧ k = s.draws := by
  cases c with
  | none => exact absurd rfl hc
  | value x =>
    refine ⟨x.setWidth 32, s.draws, rfl, fun y hy => ⟨?_, rfl⟩⟩
    cases hy
    have hx := x.isLt
    rw [BitVec.toNat_setWidth, Nat.mod_eq_of_lt (by omega)]
  | pageFault => exact ⟨Config.pageFaultCode s.draws, s.draws + 1, rfl, fun x hx => by cases hx⟩

/-- Whether a write through a segment register succeeds does not depend on the value or on the free values drawn. -/
theorem segWrite_ok_any {s w0 : State} {seg : SegName} {off : Word} {n v0 : Nat}
    (h : segWrite s seg off n v0 = .ok w0) :
    ∃ pas, ∀ k v, segWrite (s.withDraws k) seg off n v =
      .ok ((s.withDraws k).withMem (writeCells s.mem pas (leBytes n v))) := by
  refine (segWrite_cases s seg off n).resolve_left ?_
  rintro ⟨x, hx⟩
  cases h.symm.trans (hx s.draws v0)

theorem segWrite_error_any {s : State} {seg : SegName} {off : Word} {n v0 : Nat} {x : Stop}
    (h : segWrite s seg off n v0 = .error x) (k v : Nat) : segWrite (s.withDraws k) seg off n v = .error x := by
  rcases segWrite_cases s seg off n with ⟨y, hy⟩ | ⟨pas, hok⟩
  · rw [hy k v, ← hy s.draws v0]
    exact h
  · cases h.symm.trans (hok s.draws v0)

theorem push32_of_segWrite {s w : State} {v : Word} {ext : Bool}
    (h : segWrite s .ss (s.gprs.esp - 4) 4 v.toNat = .ok w) :
    push32 v ext s = .ok (w.withGpr .esp (s.gprs.esp - 4)) := by
  simp only [push32, h]; rfl

theorem push32_of_segWrite_raise {s : State} {v : Word} {ext : Bool} {x : Exc}
    (h : segWrite s .ss (s.gprs.esp - 4) 4 v.toNat = .error (.raise x)) : ∃ y, push32 v ext s = raise y :=
  ⟨if x == excCode .ss 0 then excCode .ss (extCode ext) else x, by simp only [push32, h]; rfl⟩

/-- What a push whose write does not fail changes: ESP, the bytes written and the counter of free values. -/
theorem pushErrorCode_of_segWrite {c : ErrorCode} {s w0 : State} (hc : c ≠ .none)
    (h : segWrite s .ss (s.gprs.esp - 4) 4 0 = .ok w0) (ext : Bool) :
    ∃ (t w : State) (v : Word), pushErrorCode c ext s = .ok t ∧ segWrite s .ss (s.gprs.esp - 4) 4 v.toNat = .ok w ∧
      t = { s with gprs := { s.gprs with esp := s.gprs.esp - 4 }, mem := w.mem, draws := t.draws } ∧
      ∀ x, c = .value x → v.toNat = x.toNat ∧ t.draws = s.draws := by
  obtain ⟨v, k, hpush, hval⟩ := pushErrorCode_eq_push32 hc ext s
  obtain ⟨pas, hw⟩ := segWrite_ok_any h
  exact ⟨_, _, v, hpush.trans (push32_of_segWrite (hw k v.toNat)), hw s.draws v.toNat, rfl, hval⟩

theorem pushErrorCode_of_segWrite_raise {c : ErrorCode} {s : State} {x : Exc} (hc : c ≠ .none)
    (h : segWrite s .ss (s.gprs.esp - 4) 4 0 = .error (.raise x)) (ext : Bool) :
    ∃ y, pushErrorCode c ext s = raise y := by
  obtain ⟨v, k, hpush, -⟩ := pushErrorCode_eq_push32 hc ext s
  rw [hpush]
  exact push32_of_segWrite_raise (segWrite_error_any h k v.toNat)

/-- The stack segment of a new task passes the checks of a write that is within it (42_task_switch.md R236). -/
theorem segCheck_entered_ss {init : Initiator} {img : TaskImage} {segs : NewSegs} {s : State}
    (hq : Qualifies init img segs s) {off : Word} {n : Nat}
    (hw : (entered init img segs s).segs.ss.within off n = true) :
    segCheck (entered init img segs s) .ss .write off n = .ok () := by
  obtain ⟨-, -, hkind, -, -⟩ := hq.segs .ss
  have writable : ((entered init img segs s).seg .ss).allows .write = true := by
    have h43 : (descType segs.ss).getLsbD 3 = segs.ss.getLsbD 43 := by simp [descType]
    have h41 : (descType segs.ss).getLsbD 1 = segs.ss.getLsbD 41 := by simp [descType]
    show (descS segs.ss && !(descType segs.ss).getLsbD 3 && (descType segs.ss).getLsbD 1) = true
    rw [h43, h41]
    exact hkind
  have inside : ((entered init img segs s).seg .ss).within off n = true := hw
  have valid : ((entered init img segs s).seg .ss).valid = true := rfl
  rw [segCheck, valid, inside, writable]; rfl

/-- The delivery of an exception with an error code whose handler is entered: what is left is the push. -/
theorem takeException_of_push {s s1 t : State} {e : Exc} {g nd : Desc} {img : TaskImage} {segs : NewSegs}
    (hi : IdtTarget s (vectorOf e.name) .exception g nd) (hc : Completes .int (gateSel g) nd s.eip s s1 img segs)
    (h : pushErrorCode e.code true (entered .int img segs s1) = .ok t) : takeException e s = .next t := by
  refine takeException_of_deliver_done ?_
  rw [deliver_done hi hc]
  simp only [EventClass.ext, h, Res.ok_bind]

end Sys2Proof.Machine

namespace Sys2Proof.Proofs

open Sys2Proof.Machine Sys2Proof.Safety

/-- Settles O36: the transfer is the switch to the descriptor its pointer names. -/
theorem jmpEntersTask : Obligations.JmpEntersTask := by
  intro s s1 i sel nd img segs hm hf ht hc
  rw [far_exec hm hf, far_direct ht]
  exact finish_completes hc false

/-- Settles O37: the transfer is the switch to the descriptor the gate names. -/
theorem jmpThroughGateEntersTask : Obligations.JmpThroughGateEntersTask := by
  intro s s1 i sel g nd img segs hm hf ht hc
  rw [far_exec hm hf, far_gated ht]
  exact finish_completes hc false

/-- Settles O38, as O36. -/
theorem callEntersTask : Obligations.CallEntersTask := by
  intro s s1 i sel nd img segs hm hf ht hc
  rw [far_exec hm hf, far_direct ht]
  exact finish_completes hc false

/-- Settles O39, as O37. -/
theorem callThroughGateEntersTask : Obligations.CallThroughGateEntersTask := by
  intro s s1 i sel g nd img segs hm hf ht hc
  rw [far_exec hm hf, far_gated ht]
  exact finish_completes hc false

/-- Settles O40: an event without an error code is the switch to its handler. -/
theorem intEntersHandler : Obligations.IntEntersHandler := by
  intro s s1 n g nd img segs hm hi hc
  rw [int_exec hm, deliverEvent_none hi]
  exact finish_completes hc false

/-- Settles O41: the return is the switch to the task the link names. -/
theorem iretReturnsToTask : Obligations.IretReturnsToTask := by
  intro s s1 link nd img segs hm hn hl hc
  rw [iret_exec hm hn hl]
  exact finish_completes hc false

/-- Settles O43: the switch completes, and whether the push then fails does not depend on the value. With paging off the
bytes written are those from the new SS:ESP, so that the second clause follows from the first. -/
theorem exceptionPushesErrorCode : Obligations.ExceptionPushesErrorCode := by
  intro s s1 e g nd img segs hcode hi hc t0 sp lin
  have frame : SwitchFrame .int (gateSel g) nd s t0 := entered_frame hc.commits hc.loads
  have pushed : ∀ w0, segWrite t0 .ss sp 4 0 = .ok w0 →
      ∃ (t w : State) (v : Word), takeException e s = .next t ∧ segWrite t0 .ss sp 4 v.toNat = .ok w ∧
        t = { t0 with gprs := { t0.gprs with esp := sp }, mem := w.mem, draws := t.draws } ∧
        ∀ c, e.code = .value c → v.toNat = c.toNat ∧ t.draws = t0.draws := by
    intro w0 hw0
    obtain ⟨t, w, v, ht, rest⟩ := pushErrorCode_of_segWrite hcode hw0 true
    exact ⟨t, w, v, takeException_of_push hi hc ht, rest⟩
  refine ⟨entered_loaded .., frame, pushed, fun hp hw => ?_⟩
  have flat : t0.paging = false := by
    rw [State.paging, frame.cr0, paging_setTs]
    exact hp
  have written (v : Nat) := segWrite_flat flat (segCheck_entered_ss hc.loads.qualifies hw) v
  obtain ⟨t, w, v, ht, hwv, heq, hval⟩ := pushed _ (written 0)
  obtain rfl : t0.withMem (writeCells t0.mem (linBytes lin 4) (leBytes 4 v.toNat)) = w :=
    Except.ok.inj ((written v.toNat).symm.trans hwv)
  refine ⟨t, ht, by rw [heq], fun c hcv => ?_, fun a ha => ?_⟩
  · obtain ⟨hv, hdraws⟩ := hval c hcv
    refine ⟨?_, hdraws⟩
    have back := memRead_written (s := { t0 with gprs := { t0.gprs with esp := sp }, draws := t.draws }) flat
      (lin := lin) v.toNat (Nat.le_refl 4) (by decide) .read 0
    rw [heq, ← hv]
    exact back.trans (congrArg Except.ok (Nat.mod_eq_of_lt v.isLt))
  · rw [heq]
    refine writeCells_read_other _ _ t0.mem a fun hmem => ?_
    obtain ⟨k, hk, hak⟩ := mem_linBytes.1 hmem
    exact ha k hk hak

/-- Settles O45, by the branches of the dispatch; a system descriptor goes by its type. -/
theorem farTransferRejects : Obligations.FarTransferRejects := by
  intro s i init sel hm hf
  rw [far_exec hm hf]
  refine ⟨fun h0 => ?_, fun h0 hd => ?_, fun d h0 hd => ⟨fun hs => ?_, fun hs => ?_⟩⟩
  · rw [farTaskTransfer_null h0, finish_raise]
  · rw [farTaskTransfer_outOfTable h0 hd, finish_raise]
  · rw [farTaskTransfer_segment h0 hd hs, finish_refuse]
  · obtain ⟨k16, kcall, k32, kgate⟩ := systemKinds hs
    refine ⟨fun ht => ?_, fun ht => ?_, fun ht => ?_⟩
    · rw [farTaskTransfer_tss16 h0 hd hs (k16.trans (decide_eq_true ht)), finish_refuse]
    · have not16 : ∀ t ∈ [4#4, 12#4], t ∉ [1#4, 3#4] := by decide
      rw [farTaskTransfer_callGate h0 hd hs (k16.trans (decide_eq_false (not16 _ ht)))
        (kcall.trans (decide_eq_true ht)), finish_refuse]
    · have noTask : ∀ t ∈ [0#4, 2#4, 6#4, 7#4, 8#4, 10#4, 13#4, 14#4, 15#4],
          t ∉ [1#4, 3#4] ∧ t ∉ [4#4, 12#4] ∧ t ∉ [9#4, 11#4] ∧ t ∉ [5#4] := by decide
      obtain ⟨n16, ncall, n32, ngate⟩ := noTask _ ht
      rw [farTaskTransfer_other h0 hd hs (k16.trans (decide_eq_false n16)) (kcall.trans (decide_eq_false ncall))
        (k32.trans (decide_eq_false n32)) (kgate.trans (decide_eq_false ngate)), finish_raise]

/-- Settles O46: every check that fails, TI or privilege, has the same exception. -/
theorem farPrivilegeRaisesGp : Obligations.FarPrivilegeRaisesGp := by
  intro s i init sel nd hm hf h0 hd h32 hc hbad
  rw [far_exec hm hf, far_tss h0 hd h32, switch_front hc (e := excCode .gp (selCode sel false)), finish_raise]
  · intro x hx
    exact (List.mem_append.1 hx).elim (fun h => (mem_check.1 h).2) (fun h => (mem_check.1 h).2)
  · intro hnil
    obtain ⟨hti, hpriv⟩ := List.append_eq_nil_iff.1 hnil
    have ti : selTi sel = false := by simpa using check_eq_nil.1 hti
    have low := farPrivilege_eq_false.2 (hbad.resolve_left (by simp [ti]))
    exact Bool.false_ne_true (low.symm.trans (check_eq_nil.1 hpriv))

/-- Settles O47: the list of the gate's failing checks is one exception, or empty and the target's is the one. -/
theorem gateChecksRaise : Obligations.GateChecksRaise := by
  intro s i init sel g hm hf h0 hd hg
  rw [far_exec hm hf, far_gate h0 hd hg]
  refine ⟨fun nd hn hc => ⟨fun hp hlow => ?_, fun hp hcpl hrpl => ?_⟩, fun e hp hcpl hrpl he => ?_⟩
  · rw [farPrivilege_eq_false.2 hlow, hp, switchViaGate_names hn]
    exact congrArg (finish s) (taskSwitch_front_single hc _ false _)
  · rw [farPrivilege_eq_true.2 ⟨hcpl, hrpl⟩, hp, switchViaGate_names hn]
    exact congrArg (finish s) (taskSwitch_front_single hc _ false _)
  · rw [farPrivilege_eq_true.2 ⟨hcpl, hrpl⟩, hp]
    exact congrArg (finish s) (switchViaGate_target_raise he)

/-- Settles O48, by the checks in their order. -/
theorem gateTargetRejects : Obligations.GateTargetRejects := by
  intro s tsel ext
  refine ⟨fun ht => gateTarget_outside (.inl ht) ext, fun _ hg => gateTarget_outside (.inr (inGdt_eq_false.2 hg)) ext,
    fun d ht hg hd => ?_⟩
  have found := gateTarget_found ht (decide_eq_true hg) hd ext
  refine ⟨fun h16 => ?_, fun h16 h32 => ?_, fun h32 => ?_⟩
  · rw [found, if_pos h16]
  · rw [found, h16, h32]; rfl
  · obtain ⟨-, h16, -, -⟩ := tss32_facts h32
    rw [found, h16, h32]; rfl

/-- Settles O50: `INT n` and an external interrupt are one delivery, in two classes that differ in EXT and in the
check of the DPL. -/
theorem interruptRejects : Obligations.InterruptRejects := by
  intro s n hm
  rw [int_exec hm, takeInterrupt]
  refine ⟨fun hv => ?_, fun g hv hd => ⟨fun hi => ?_, fun hi hg => ?_, fun nd hg hn hc => ⟨fun hp hl => ?_,
    fun hp hl => ?_, fun hp => ?_⟩, fun e hg hp => ⟨fun hl he => ?_, fun he => ?_⟩⟩⟩
  · rw [deliverEvent_beyond hv, deliverEvent_beyond hv]; exact ⟨rfl, rfl⟩
  · rw [deliverEvent_intGate hv hd hi, deliverEvent_intGate hv hd hi]; exact ⟨rfl, rfl⟩
  · rw [deliverEvent_noGate hv hd hi hg, deliverEvent_noGate hv hd hi hg]; exact ⟨rfl, rfl⟩
  · rw [deliverEvent_dpl hv hd hg hn hc rfl hp hl]; rfl
  · rw [deliverEvent_notPresent hv hd hg hn hc hp fun _ => hl]; rfl
  · rw [deliverEvent_notPresent (cls := .extInt) hv hd hg hn hc hp (fun h => nomatch h)]; rfl
  · rw [deliverEvent_target_raise (cls := .softInt) hv hd hg hp (fun _ => hl) he, finish_raise]
  · rw [deliverEvent_target_raise (cls := .extInt) hv hd hg hp (fun h => nomatch h) he, finish_raise]

/-- Settles O51, by the checks of the link in their order; that the task is busy is a check of the switch. -/
theorem iretRejects : Obligations.IretRejects := by
  intro s hm
  refine ⟨exec_iret_flat hm, fun link hn hlink => ?_⟩
  rw [exec_iret_nested hm hn]
  refine ⟨fun hout => ?_, fun d ht hg hd => ?_⟩
  · rw [returnFromTask_outside hlink hout, finish_raise]
  rw [returnFromTask_found hlink ht hg hd]
  refine ⟨fun h16 => ?_, fun h16 h32 => ?_, fun h32 hb hp hlim hpaged => ?_⟩
  · rw [if_pos h16, finish_refuse]
  · rw [h16, h32]; rfl
  · obtain ⟨-, h16, -, -⟩ := tss32_facts h32
    have only : ∀ x, SwitchFails .iret link d false s x → x = excCode .ts (selCode link false) := by
      intro x hx
      cases hx with
      | notPresent h => exact absurd (h.symm.trans hp) Bool.false_ne_true
      | limit h => rfl
      | busy hi _ => exact absurd rfl hi
      | notBusy _ _ => rfl
      | notPaged h => exact absurd (h.symm.trans hpaged) Bool.false_ne_true
    rw [h16, h32]
    exact congrArg (finish s) (taskSwitch_raise_of_only (.notBusy rfl hb) only)

/-- Settles O52: each of these raises inside the delivery, or leaves an exception pending, which is a nested fault. -/
theorem nestedException : Obligations.NestedException := by
  intro s e
  refine ⟨fun hv => takeException_of_deliver_raise (deliverEvent_beyond hv), fun g hv hd =>
    ⟨fun hi => takeException_of_deliver_refuse (deliverEvent_intGate hv hd hi),
      fun hi hg => takeException_of_deliver_raise (deliverEvent_noGate hv hd hi hg), fun hg hp => ?_,
      fun x hg hx => ?_⟩, fun g nd hi => ⟨fun x hx => ?_, fun u x hu => ?_, fun u x hu hc hw => ?_⟩⟩
  · obtain ⟨y, hy⟩ := switchViaGate_raises_of_front (init := .int) (g := g) (ret := s.eip) (ext := true) (s := s)
      (List.ne_nil_of_mem (mem_idtGateFailures (cls := .exception).2 (.inr ⟨hp, rfl⟩)))
    exact takeException_of_deliver_raise (deliverEvent_gate_raise hv hd hg hy)
  · obtain ⟨y, hy⟩ := switchViaGate_raises_of_target (init := .int) (ret := s.eip) hx
    exact takeException_of_deliver_raise (deliverEvent_gate_raise hv hd hg hy)
  · obtain ⟨y, -, hy⟩ := taskSwitch_raises (ret := s.eip) (front := []) (List.ne_nil_of_mem (fails_iff.2 hx))
    exact takeException_of_deliver_raise ((deliver_switch hi e.code s.eip).1 _ hy)
  · exact takeException_of_deliver_pending ((deliver_switch hi e.code s.eip).2 u x hu)
  · obtain ⟨y, hy⟩ := pushErrorCode_of_segWrite_raise hc hw true
    refine takeException_of_deliver_raise (x := y) ?_
    rw [deliver_gate hi.inTable hi.desc hi.gate hi.names, idt_front hi]
    simp only [EventClass.ext, hu, hy, Res.ok_bind]; rfl

/-- Settles O59: the instruction has the same length whatever the offset. -/
theorem farOffsetIgnored : Obligations.FarOffsetIgnored := by
  intro s sel off off'
  have jmp : (Instr.jmpPtr sel off).length = (Instr.jmpPtr sel off').length := rfl
  have call : (Instr.callPtr sel off).length = (Instr.callPtr sel off').length := rfl
  exact ⟨by simp only [exec, execJmpPtr, State.nextEip, jmp], by simp only [exec, execCallPtr, State.nextEip, call]⟩

end Sys2Proof.Proofs
end

section
/-! The statements of 42_task_switch.md: the checks of a switch, what its commit leaves in memory, what it loads of the
new task, and the exceptions pending there. -/

namespace Sys2Proof.Machine

open Sys2Proof.Safety

/-! ### The checks of phase 1 (42_task_switch.md R203 to R207) -/

section
variable {init : Initiator} {nd : Desc} {code : BitVec 16}

theorem busyCheck_pass (h : descBusy nd = (init == .iret)) : busyCheck init code nd = [] := by
  cases init <;> exact check_eq_nil.2 (by simp [h])

theorem busyCheck_busy (hi : init ≠ .iret) (h : descBusy nd = true) : busyCheck init code nd = [excCode .gp code] := by
  cases init with
  | iret => exact absurd rfl hi
  | jmp | call | int => simp [busyCheck, check, h]

theorem busyCheck_notBusy (h : descBusy nd = false) : busyCheck .iret code nd = [excCode .ts code] := by
  simp [busyCheck, check, h]

end

section
variable {init : Initiator} {nsel : Selector} {nd : Desc} {ret : Word} {ext : Bool} {s : State}

/-- One failing check is the one reported. -/
theorem taskSwitch_single {e : Exc} (h : switchFailures init nsel nd ext s = [e]) :
    taskSwitch init nsel nd ret ext [] s = raise e := by
  rw [taskSwitch, h]; rfl

/-- A present task with its limit in order and paged in has only its busy flag to fail by. -/
theorem switchFailures_busyCheck (hp : descP nd = true) (hl : 0x67 ≤ (descLimit nd).toNat)
    (hg : pagedIn init nsel nd s = true) :
    switchFailures init nsel nd ext s = busyCheck init (selCode nsel ext) nd := by
  simp [switchFailures, check, hp, hl, hg]

theorem taskSwitch_busy (hi : init ≠ .iret) (hb : descBusy nd = true) (hp : descP nd = true)
    (hl : 0x67 ≤ (descLimit nd).toNat) (hg : pagedIn init nsel nd s = true) :
    taskSwitch init nsel nd ret ext [] s = raise (excCode .gp (selCode nsel ext)) :=
  taskSwitch_single ((switchFailures_busyCheck hp hl hg).trans (busyCheck_busy hi hb))

/-- Whatever makes a switch that raises takes the exception from the state it began in (R208, R266). -/
theorem switchOf_raise {e : Exc} {r : Result} (h : taskSwitch init nsel nd ret ext [] s = raise e)
    (hr : SwitchOf s r init nsel nd ret ext) : r = takeException e s :=
  (switchOf_ends hr).1 _ h

theorem switchOf_busy {r : Result} (hr : SwitchOf s r init nsel nd ret ext) (hi : init ≠ .iret)
    (hb : descBusy nd = true) (hp : descP nd = true) (hl : 0x67 ≤ (descLimit nd).toNat)
    (hg : pagedIn init nsel nd s = true) : r = takeException (excCode .gp (selCode nsel ext)) s :=
  switchOf_raise (taskSwitch_busy hi hb hp hl hg) hr

end

/-! ### The fields of a TSS after the commit (R215 to R222) -/

theorem tssWord_of_read {s : State} {base : Word} {off : Nat} {v : Word}
    (h : tssRead s base off 4 = .ok (v.toNat % 256 ^ 4)) : tssWord s base off = .ok v := by
  have fits : v.toNat % 256 ^ 4 = v.toNat := Nat.mod_eq_of_lt v.isLt
  rw [tssWord, h, Res.ok_bind, fits, BitVec.ofNat_toNat, BitVec.setWidth_eq]

theorem tssHalf_of_read {s : State} {base : Word} {off : Nat} {v : Selector}
    (h : tssRead s base off 2 = .ok (v.toNat % 256 ^ 2)) : tssHalf s base off = .ok v := by
  have fits : v.toNat % 256 ^ 2 = v.toNat := Nat.mod_eq_of_lt v.isLt
  rw [tssHalf, h, Res.ok_bind, fits, BitVec.ofNat_toNat, BitVec.setWidth_eq]

theorem commitSwitch_paging {init : Initiator} {nsel : Selector} {nd : Desc} {ret : Word} {s s1 : State}
    (h : commitSwitch init nsel nd ret s = .ok s1) : s1.paging = s.paging := by
  obtain ⟨m, rfl, -⟩ := commitSwitch_ok h
  exact paging_setTs s.cr0

/-- What step 8 wrote is read back after the commit, when the later writes lie elsewhere (R216). -/
theorem commitSwitch_saved {init : Initiator} {nsel : Selector} {nd : Desc} {ret : Word} {s s1 : State}
    (hp : s.paging = false) (ha : Apart nsel nd s) (h : commitSwitch init nsel nd ret s = .ok s1) :
    ∀ e ∈ savedFields ret (savedEflags init s.eflags) s,
      tssRead s1 s.tr.base e.1 e.2.1 = .ok (e.2.2 % 256 ^ e.2.1) := by
  intro e he
  obtain ⟨m1, m2, m3, -, -, hsave, -, hmark, -, hlink, -⟩ := commit_bytes hp h
  obtain ⟨hapart, hrange⟩ := saved_range (ret := ret) (img := savedEflags init s.eflags) (s := s)
  have flat1 : s1.paging = false := (commitSwitch_paging h).trans hp
  have later : ∀ a ∈ tssBytes s.tr.base e.1 e.2.1, s1.mem.read a = m2.read a := by
    intro a hin
    obtain ⟨hlow, hhigh⟩ := hrange e he
    have inSaved : a ∈ tssBytes s.tr.base 32 64 := sub_saved hlow hhigh hin
    rw [hlink a fun _ hl => ha.link a hl inSaved, hmark a fun _ hb => ha.new (hb ▸ inSaved)]
  rw [tssRead_congr (s := s.withMem m2) hp flat1 later]
  refine tssWriteAll_read (u := s.withMem m1) hp hapart (fun f hf => ?_) hsave e he
  have := (hrange f hf).2
  omega

/-! ### Phases 2 and 12 answer with paging off (R208, R234) -/

/-- A write of phase 2: paging and the GDTR as before, and no byte lost from memory. -/
structure KeepsListed (s t : State) : Prop where
  paging : t.paging = s.paging
  gdtr : t.gdtr = s.gdtr
  listed : ∀ a, s.mem.read a ≠ none → t.mem.read a ≠ none

theorem KeepsListed.refl (s : State) : KeepsListed s s := ⟨rfl, rfl, fun _ h => h⟩

theorem KeepsListed.trans {s t u : State} (h : KeepsListed s t) (h' : KeepsListed t u) : KeepsListed s u :=
  ⟨h'.paging.trans h.paging, h'.gdtr.trans h.gdtr, fun a ha => h'.listed a (h.listed a ha)⟩

theorem KeepsListed.busyAddr {s t : State} (h : KeepsListed s t) (sel : Selector) :
    busyAddr t sel = busyAddr s sel := by
  simp only [Safety.busyAddr, gdtAddr, h.gdtr]

theorem Memory.read_write_ne_none (m : Memory) (b : Nat) (v : Byte) {a : Nat} (h : m.read a ≠ none) :
    (m.write b v).read a ≠ none := by
  by_cases hab : a = b
  · subst hab; simp
  · rwa [Memory.read_write_other m b a v hab]

theorem writeCells_read_ne_none (pas : List Nat) (vs : List Byte) (m : Memory) {a : Nat} (h : m.read a ≠ none) :
    (writeCells m pas vs).read a ≠ none := by
  induction pas generalizing m vs with
  | nil => exact h
  | cons pa pas ih =>
    cases vs with
    | nil => exact h
    | cons v vs => exact ih vs _ (m.read_write_ne_none pa v h)

theorem setBusy_answers {s : State} (hp : s.paging = false) {sel : Selector} (b : Bool)
    (h : s.mem.read (busyAddr s sel) ≠ none) : ∃ t, setBusy s sel b = .ok t ∧ KeepsListed s t := by
  obtain ⟨x, hx⟩ := Option.ne_none_iff_exists'.1 h
  exact ⟨_, setBusy_flat hp hx, rfl, rfl, fun _ ha => s.mem.read_write_ne_none _ _ ha⟩

theorem tssWrite_answers {s : State} (hp : s.paging = false) (base : Word) (off n v : Nat) :
    ∃ t, tssWrite s base off n v = .ok t ∧ KeepsListed s t :=
  ⟨_, tssWrite_flat hp base off n v, rfl, rfl, fun _ ha => writeCells_read_ne_none _ _ _ ha⟩

theorem tssWriteAll_answers {s : State} (hp : s.paging = false) (base : Word) (es : List (Nat × Nat × Nat)) :
    ∃ t, tssWriteAll s base es = .ok t ∧ KeepsListed s t := by
  induction es generalizing s with
  | nil => exact ⟨s, rfl, .refl s⟩
  | cons e es ih =>
    obtain ⟨t, ht, kt⟩ := tssWrite_answers hp base e.1 e.2.1 e.2.2
    obtain ⟨u, hu, ku⟩ := ih (kt.paging.trans hp)
    exact ⟨u, by rw [tssWriteAll, ht, Res.ok_bind, hu], kt.trans ku⟩

theorem saveTask_answers {s : State} (hp : s.paging = false) (ret img : Word) :
    ∃ t, saveTask ret img s = .ok t ∧ KeepsListed s t := by
  obtain ⟨t, ht, kt⟩ := tssWriteAll_answers hp s.tr.base (savedFields ret img s)
  exact ⟨t.withDraws (s.draws + 6), by rw [saveTask, ht, Res.ok_bind], kt.paging, kt.gdtr, kt.listed⟩

theorem applyIf_answers {c : Bool} {f : State → Res State} {s : State}
    (h : c = true → ∃ t, f s = .ok t ∧ KeepsListed s t) : ∃ t, applyIf c f s = .ok t ∧ KeepsListed s t := by
  cases c with
  | false => exact ⟨s, rfl, .refl s⟩
  | true => exact h rfl

/-- Phase 2 commits when the bytes with the busy flags it writes are listed. -/
theorem commitSwitch_answers {init : Initiator} {nsel : Selector} (nd : Desc) (ret : Word) {s : State}
    (hp : s.paging = false) (hold : leavesOld init = true → s.mem.read (busyAddr s s.tr.selector) ≠ none)
    (hnew : marksNew init = true → s.mem.read (busyAddr s nsel) ≠ none) :
    ∃ t, commitSwitch init nsel nd ret s = .ok t ∧ KeepsListed s t := by
  obtain ⟨s1, h1, k1⟩ := applyIf_answers (f := fun u => setBusy u s.tr.selector false)
    fun hc => setBusy_answers hp false (hold hc)
  obtain ⟨s2, h2, k2⟩ := saveTask_answers (k1.paging.trans hp) ret (savedEflags init s.eflags)
  have k12 := k1.trans k2
  obtain ⟨s3, h3, k3⟩ := applyIf_answers (f := fun u => setBusy u nsel true)
    fun hc => setBusy_answers (k12.paging.trans hp) true (by rw [k12.busyAddr]; exact k12.listed _ (hnew hc))
  have k13 := k12.trans k3
  obtain ⟨s4, h4, k4⟩ := applyIf_answers (f := fun u => tssWrite u (descBase nd) 0 2 s.tr.selector.toNat)
    fun (_ : nests init = true) => tssWrite_answers (k13.paging.trans hp) (descBase nd) 0 2 s.tr.selector.toNat
  have k14 := k13.trans k4
  refine ⟨(s4.withTr (taskReg nsel nd)).withCr0 (setTs s4.cr0), ?_, ?_, k14.gdtr, k14.listed⟩
  · simp only [commitSwitch, h1, h2, h3, h4, Res.ok_bind]
  · exact (paging_setTs s4.cr0).trans k14.paging

/-- An operation that ends with a value. -/
def Answers (x : Res α) : Prop := ∃ a, x = .ok a

theorem Answers.bind {x : Res α} {f : α → Res β} (hx : Answers x) (hf : ∀ a, Answers (f a)) : Answers (x >>= f) := by
  obtain ⟨a, rfl⟩ := hx
  exact hf a

theorem tssRead_answers {s : State} (hp : s.paging = false) {base : Word}
    (h : ∀ a ∈ tssBytes base 0 104, s.mem.read a ≠ none) {off n : Nat} (hn : off + n ≤ 104) :
    Answers (tssRead s base off n) := by
  refine tssRead_listed hp fun a ha => h a ?_
  simp only [tssBytes, List.mem_map, List.mem_range] at ha ⊢
  obtain ⟨i, hi, rfl⟩ := ha
  exact ⟨off + i, by omega, by congr 1; omega⟩

/-- The new TSS can be read when its 104 bytes are listed (20_memory.md R95). -/
theorem readTask_answers {s : State} (hp : s.paging = false) {base : Word}
    (h : ∀ a ∈ tssBytes base 0 104, s.mem.read a ≠ none) : Answers (readTask s base) := by
  have word (off : Nat) (hn : off + 4 ≤ 104) : Answers (tssWord s base off) :=
    (tssRead_answers hp h hn).bind fun _ => ⟨_, rfl⟩
  have half (off : Nat) (hn : off + 2 ≤ 104) : Answers (tssHalf s base off) :=
    (tssRead_answers hp h hn).bind fun _ => ⟨_, rfl⟩
  have cr3 : Answers (tssCr3 s base) := ⟨s.cr3, by simp [tssCr3, hp]⟩
  exact (half 96 (by decide)).bind fun _ => cr3.bind fun _ => (word 36 (by decide)).bind fun _ =>
    (word 32 (by decide)).bind fun _ => (word 40 (by decide)).bind fun _ => (word 44 (by decide)).bind fun _ =>
    (word 48 (by decide)).bind fun _ => (word 52 (by decide)).bind fun _ => (word 56 (by decide)).bind fun _ =>
    (word 60 (by decide)).bind fun _ => (word 64 (by decide)).bind fun _ => (word 68 (by decide)).bind fun _ =>
    (half 72 (by decide)).bind fun _ => (half 76 (by decide)).bind fun _ => (half 80 (by decide)).bind fun _ =>
    (half 84 (by decide)).bind fun _ => (half 88 (by decide)).bind fun _ => (half 92 (by decide)).bind fun _ =>
    (half 100 (by decide)).bind fun _ => ⟨_, rfl⟩

/-! ### What phase 3 loads (R219, R223, R229, R232) -/

theorem setTs_getLsbD (c : Word) (n : Nat) : (setTs c).getLsbD n = (decide (n = 3) || c.getLsbD n) := by
  have bit3 : (0x00000008#32).getLsbD n = decide (n = 3) := by
    rw [show 0x00000008#32 = BitVec.twoPow 32 3 from rfl, BitVec.getLsbD_twoPow]
    simp [eq_comm]
  rw [setTs, BitVec.getLsbD_or, bit3, Bool.or_comm]

theorem taskReg_bits (sel : Selector) (d : Desc) : taskReg sel d =
    { selector := sel, base := baseBits d, limit := descLimit d
      attr := { type := 0b1011#4, dpl := d.extractLsb' 45 2, p := d.getLsbD 47, g := d.getLsbD 55 } } := by
  rw [taskReg, descBase_bits]; rfl

theorem incomingEflags_eq (init : Initiator) (f : Word) :
    incomingEflags init f = if init = .call ∨ init = .int then f ||| 0x00004000#32 else f := by
  cases init <;> rfl

theorem nests_iff {init : Initiator} : nests init = true ↔ init = .call ∨ init = .int := by
  cases init <;> decide

theorem not_nests_iff {init : Initiator} : nests init = false ↔ init = .jmp ∨ init = .iret := by
  cases init <;> decide

section
variable {init : Initiator} {nsel : Selector} {nd : Desc} {ret : Word} {ext : Bool} {s s1 : State} {img : TaskImage}

/-- A switch to a task with VM = 1 stops at step 12 (R232). -/
theorem taskSwitch_virtual (hc : ChecksPass init nsel nd s) (h1 : commitSwitch init nsel nd ret s = .ok s1)
    (h2 : readTask s1 (descBase nd) = .ok img) (hv : img.eflags.getLsbD 17 = true) :
    taskSwitch init nsel nd ret ext [] s = refuse .v86NotModelled := by
  have base : s1.tr.base = descBase nd := by
    obtain ⟨m, rfl, -⟩ := commitSwitch_ok h1
    rfl
  have vm : eflagsVm (incomingEflags init img.eflags) = true := (eflagsVm_incoming init img.eflags).trans hv
  rw [taskSwitch, List.nil_append, switchFailures_eq_nil.2 hc, requireNone_nil, Res.ok_bind, h1, Res.ok_bind,
    startTask, base, h2]
  simp only [inStep12, Res.ok_bind, vm, if_true]

/-! ### A failure of step 13 or of the new EIP, pending in the new task (R237, R239, R241) -/

/-- A failure found once step 13 is done is pending there, or with the T flag is the model fault of R239. -/
theorem leavesPending_of_startFailure (hc : ChecksPass init nsel nd s)
    (h1 : commitSwitch init nsel nd ret s = .ok s1) (h2 : readTask s1 (descBase nd) = .ok img)
    (hv : img.eflags.getLsbD 17 = false) {q : Qualifying} (hq : qualifyAll (loadTask init img s1) ext = .ok q) {e : Exc}
    (he : startFailure init ext q = some e) : LeavesPending init nsel nd ret ext s img.trap e q.state := by
  have start : taskSwitch init nsel nd ret ext [] s = finishStart init ext img.trap q := by
    rw [switch_to_start hc h1 h2 hv, hq, Res.ok_bind]
  refine ⟨fun ht => ?_, fun ht => ?_⟩
  · have h : taskSwitch init nsel nd ret ext [] s = .ok { state := q.state, pending := some e } := by
      simp [start, finishStart, he, ht]
    exact ⟨h, fun r hr => (switchOf_ends hr).2 _ _ h⟩
  · have h : taskSwitch init nsel nd ret ext [] s = .error (.fault .debugTrapWithSwitchFault) := by
      simp [start, finishStart, he, ht]
    exact ⟨h, fun r hr => (switchOf_ends hr).1 _ h⟩

/-- Of the rows that failed, one is reported. -/
theorem startFailure_of_fails {q : Qualifying} (h : q.fails ≠ []) :
    ∃ e ∈ q.fails, startFailure init ext q = some e := by
  cases he : reported init q.fails with
  | none => exact absurd (reported_eq_none.1 he) h
  | some e => exact ⟨e, reported_mem he, by simp [startFailure, he]⟩

end

/-! ### Step 13 with a register that fails (R236, R237) -/

theorem Segs.ext_get {g g' : Segs} (h : ∀ n, g.get n = g'.get n) : g = g' := by
  cases g
  cases g'
  rw [Segs.mk.injEq]
  exact ⟨h .cs, h .ss, h .ds, h .es, h .fs, h .gs⟩

/-- What step 12 leaves of each segment register (R230). -/
theorem loadTask_seg (init : Initiator) (img : TaskImage) (s : State) (n : SegName) :
    ((loadTask init img s).seg n).selector = imageSel img n ∧ ((loadTask init img s).seg n).valid = false := by
  cases n <;> exact ⟨rfl, rfl⟩

theorem mem_qualifyOrder (n : SegName) : n ∈ qualifyOrder := by cases n <;> decide

/-- The first register of the order of R236 that has a property; those before it are those of lower rank. -/
theorem qualifyOrder_split {P : SegName → Prop} (h : ∃ n, P n) : ∃ pre n post, qualifyOrder = pre ++ n :: post ∧
    P n ∧ (∀ m ∈ pre, ¬ P m) ∧ ∀ m, m ∈ pre ↔ loadRank m < loadRank n := by
  classical
  obtain ⟨k, hk⟩ := h
  obtain ⟨n, hn⟩ := Option.isSome_iff_exists.1 (List.find?_isSome (p := fun m => decide (P m)).2
    ⟨k, mem_qualifyOrder k, decide_eq_true hk⟩)
  obtain ⟨hP, pre, post, hsplit, hpre⟩ := List.find?_eq_some_iff_append.1 hn
  have sorted : qualifyOrder.Pairwise fun m n => loadRank m < loadRank n := by decide
  rw [hsplit, List.pairwise_append, List.pairwise_cons] at sorted
  obtain ⟨-, ⟨hpost, -⟩, hcross⟩ := sorted
  refine ⟨pre, n, post, hsplit, of_decide_eq_true hP, fun m hm => by simpa using hpre m hm, fun m =>
    ⟨fun hm => hcross m hm n (List.mem_cons_self ..), fun hlt => ?_⟩⟩
  have hm : m ∈ pre ++ n :: post := hsplit ▸ mem_qualifyOrder m
  rcases List.mem_append.1 hm with hm | hm
  · exact hm
  · rcases List.mem_cons.1 hm with rfl | hm
    · exact absurd hlt (Nat.lt_irrefl _)
    · exact absurd hlt (Nat.not_lt.2 (Nat.le_of_lt (hpost m hm)))

/-- The rows of R236 hold for a segment register of the new task. -/
abbrev RowsHold (img : TaskImage) (segs : NewSegs) (s : State) (n : SegName) : Prop :=
  SegQualifies s (selRpl img.cs) n (imageSel img n) (segs.get n)

/-- A row of R236 fails for a segment register of the new task, with this exception. -/
abbrev RowFails (img : TaskImage) (ext : Bool) (s : State) (n : SegName) (e : Exc) : Prop :=
  SegRowFails s (selRpl img.cs) ext n (imageSel img n) e

/-- The segment registers `g` after step 13 when `n` is the first to fail: those before it are loaded, it and the later
ones are as step 12 left them in `g0`. -/
structure StopsAt (img : TaskImage) (segs : NewSegs) (ext : Bool) (u : State) (g0 : Segs) (n : SegName) (g : Segs) :
    Prop where
  fails : ∃ e, RowFails img ext u n e
  selector : ∀ m, (g.get m).selector = imageSel img m
  before : ∀ m, loadRank m < loadRank n → RowsHold img segs u m ∧ HiddenOrNull (g.get m) (segs.get m)
  after : ∀ m, loadRank n ≤ loadRank m → g.get m = g0.get m

section
variable {init : Initiator} {img : TaskImage} {segs : NewSegs} {ext : Bool} {s : State}

/-- Step 13 once the LDTR qualifies, and some segment register does not. -/
theorem qualifyAll_stopsAt (hl : LdtQualifies (loadTask init img s) img.ldt segs.ldt)
    (hall : ∀ n, RowsHold img segs (withNewLdtr init img segs s) n ∨
      ∃ e, RowFails img ext (withNewLdtr init img segs s) n e)
    (hsome : ∃ n e, RowFails img ext (withNewLdtr init img segs s) n e) :
    ∃ n g fs, qualifyAll (loadTask init img s) ext =
        .ok { state := (withNewLdtr init img segs s).withSegs g, fails := fs } ∧ fs ≠ [] ∧
      (∀ e ∈ fs, ∃ m, RowFails img ext (withNewLdtr init img segs s) m e) ∧
      StopsAt img segs ext (withNewLdtr init img segs s) (loadTask init img s).segs n g := by
  obtain ⟨pre, n, post, hsplit, ⟨e, he⟩, hpre, hrank⟩ := qualifyOrder_split hsome
  have holds : ∀ m ∈ pre, RowsHold img segs (withNewLdtr init img segs s) m :=
    fun m hm => (hall m).resolve_right (hpre m hm)
  have nodup : pre.Nodup := by
    have : qualifyOrder.Nodup := by decide
    rw [hsplit] at this
    exact (List.nodup_append.1 this).1
  obtain ⟨g, fs, hq, hne, hfs, hsel, hloaded, hkept⟩ := qualifySegs_fails (loadTask_selectors init img s) pre n post nodup
    holds he fun m _ => hall m
  refine ⟨n, g, fs, ?_, hne, hfs, ⟨e, he⟩, hsel, fun m hm => ?_, fun m hm => ?_⟩
  · rw [qualifyAll, qualifyLdtr_loaded (s := loadTask init img s) hl, take_loaded, Res.ok_bind, hsplit]
    exact hq
  · refine ⟨holds m ((hrank m).2 hm), ?_⟩
    rw [hloaded m ((hrank m).2 hm)]
    exact hiddenOrNull_segOf _ _
  · exact hkept m fun hin => Nat.not_le.2 ((hrank m).1 hin) hm

/-- Step 13 when the LDTR fails: nothing is loaded. -/
theorem qualifyAll_ldtr_fails (hl : ∃ e, LdtRowFails (loadTask init img s) ext img.ldt e)
    (hall : ∀ n, RowsHold img segs (loadTask init img s) n ∨ ∃ e, RowFails img ext (loadTask init img s) n e) :
    ∃ fs, qualifyAll (loadTask init img s) ext = .ok { state := loadTask init img s, fails := fs } ∧ fs ≠ [] ∧
      ∀ e ∈ fs, LdtRowFails (loadTask init img s) ext img.ldt e ∨ ∃ n, RowFails img ext (loadTask init img s) n e := by
  obtain ⟨e, he⟩ := hl
  obtain ⟨es, hes, hne, hldt⟩ := qualifyLdtr_failed (s := loadTask init img s) he
  obtain ⟨f, fs, rfl⟩ := List.exists_cons_of_ne_nil hne
  obtain ⟨late, hlate, hseg⟩ := qualifySegs_late (u := loadTask init img s) (loadTask_selectors init img s) qualifyOrder f
    fs fun n _ => hall n
  refine ⟨f :: fs ++ late, ?_, by simp, fun x hx => ?_⟩
  · rw [qualifyAll, hes, take_failed, Res.ok_bind]
    exact hlate
  · rcases List.mem_append.1 hx with hx | hx
    · exact .inl (hldt x hx)
    · obtain ⟨n, -, hn⟩ := hseg x hx
      exact .inr ⟨n, hn⟩

end

end Sys2Proof.Machine

namespace Sys2Proof.Proofs

open Sys2Proof.Machine Sys2Proof.Safety

/-- Settles O27: with the other checks passing, the list of failing ones has one entry. -/
theorem switchChecks : Obligations.SwitchChecks := by
  intro init nsel nd ret ext s hg
  refine ⟨fun hp hl hb => ?_, fun hp hl hb => ?_, fun hp hl hb hi => taskSwitch_busy hi hb hp hl hg,
    fun hp hl hb hi => ?_⟩
  · exact taskSwitch_single (by simp [switchFailures, check, busyCheck_pass hb, hp, hl, hg])
  · exact taskSwitch_single (by simp [switchFailures, check, busyCheck_pass hb, hp, Nat.not_le.2 hl, hg])
  · subst hi
    exact taskSwitch_single ((switchFailures_busyCheck hp hl hg).trans (busyCheck_notBusy hb))

/-- Settles O28: the exception reported is one of the list, which is that of `SwitchFails`. -/
theorem anyFailingCheckReported : Obligations.AnyFailingCheckReported := by
  rintro init nsel nd ret ext s ⟨x, hx⟩
  obtain ⟨e, he, hr⟩ := taskSwitch_raises (ret := ret) (front := []) (List.ne_nil_of_mem (fails_iff.2 hx))
  exact ⟨e, fails_iff.1 he, hr, fun _ hs => switchOf_raise hr hs⟩

/-- Settles O29: every field saved is read back. -/
theorem switchSavesOldTask : Obligations.SwitchSavesOldTask := by
  intro init nsel nd ret s s1 hp ha h
  have image : (if init = .iret then s.eflags &&& 0xFFFFBFFF#32 else s.eflags) = savedEflags init s.eflags := by
    cases init <;> rfl
  have saved := commitSwitch_saved hp ha h
  have word (off : Nat) (v : Word) (hm : (off, 4, v.toNat) ∈ savedFields ret (savedEflags init s.eflags) s) :
      tssWord s1 s.tr.base off = .ok v := tssWord_of_read (saved _ hm)
  have half (off : Nat) (v : Selector) (hm : (off, 2, v.toNat) ∈ savedFields ret (savedEflags init s.eflags) s) :
      tssHalf s1 s.tr.base off = .ok v := tssHalf_of_read (saved _ hm)
  rw [image]
  constructor
  case es | cs | ss | ds | fs | gs => exact half _ _ (by simp [savedFields])
  all_goals exact word _ _ (by simp [savedFields])

/-- Settles O30, byte by byte through the stages of phase 2. -/
theorem switchMovesBusyFlags : Obligations.SwitchMovesBusyFlags := by
  intro init nsel nd ret s s1 hp ha h
  obtain ⟨m1, m2, m3, hother, hleft, -, hsave, hmark, hmarked, hlink, -⟩ := commit_bytes hp h
  have old : s1.mem.read (busyAddr s s.tr.selector) = m1.read (busyAddr s s.tr.selector) := by
    rw [hlink _ fun _ => ha.oldLink, hmark _ fun _ => ha.busy.symm, hsave _ ha.old]
  have new : s1.mem.read (busyAddr s nsel) = m3.read (busyAddr s nsel) := hlink _ fun _ => ha.newLink
  have before : m2.read (busyAddr s nsel) = s.mem.read (busyAddr s nsel) := by
    rw [hsave _ ha.new, hother _ fun _ => ha.busy]
  rw [old, new]
  refine ⟨?_, ?_⟩
  · cases init with
    | jmp | iret => exact hleft rfl
    | call | int => exact hother _ (fun hl => nomatch hl)
  · rw [← before]
    cases init with
    | jmp | call | int => exact hmarked rfl
    | iret => exact hmark _ (fun hl => nomatch hl)

/-- Settles O31: the link is the last write, and of the others none lies in it. -/
theorem switchLinksNewTask : Obligations.SwitchLinksNewTask := by
  intro init nsel nd ret s s1 hp ha h
  obtain ⟨m1, m2, m3, hother, -, -, hsave, hmark, -, hlink, hlinked⟩ := commit_bytes hp h
  refine ⟨fun hi => hlinked ?_, fun hi a hin => ?_⟩
  · rcases hi with rfl | rfl <;> rfl
  · have noLink : nests init ≠ true := by rcases hi with rfl | rfl <;> decide
    have notNew : a ≠ busyAddr s nsel := fun heq => ha.newLink (heq ▸ hin)
    have notOld : a ≠ busyAddr s s.tr.selector := fun heq => ha.oldLink (heq ▸ hin)
    rw [hlink a fun hn => absurd hn noLink, hmark a fun _ => notNew, hsave a (ha.link a hin), hother a fun _ => notOld]

/-- Settles O32: TR and CR0 are those of the commit, which phase 3 keeps. -/
theorem switchLoadsTr : Obligations.SwitchLoadsTr := by
  intro init nsel nd ret ext s sw h
  obtain ⟨s1, img, -, -, -, ⟨g, l, hstate, -, -⟩, m, rfl⟩ := switch_ok h
  rw [hstate]
  exact ⟨taskReg_bits nsel nd, setTs_getLsbD s.cr0⟩

/-- Settles O33: the image loaded is that of the committed state. -/
theorem switchLoadsEflags : Obligations.SwitchLoadsEflags := by
  intro init nsel nd ret ext s sw h
  obtain ⟨s1, img, h1, himg, hv, ⟨g, l, hstate, -, -⟩, -⟩ := switch_ok h
  have eflags : sw.state.eflags = maskEflags (incomingEflags init img.eflags) := by rw [hstate]; rfl
  have nt : sw.state.eflags.getLsbD 14 = (nests init || eflagsNt img.eflags) := by
    rw [eflags]
    exact eflagsNt_loaded init img.eflags
  refine ⟨s1, img.eflags, h1, (readTask_fields himg).eflags, (eflagsVm_incoming init img.eflags).symm.trans hv,
    by rw [hstate]; rfl, by rw [eflags, incomingEflags_eq]; rfl, fun hi => ?_, fun hi => ?_⟩
  · rw [nt, nests_iff.2 hi, Bool.true_or]
  · rw [nt, not_nests_iff.2 hi]; rfl

/-- Settles O34: step 13 keeps what step 12 loaded but for the hidden parts. -/
theorem switchLoadsContext : Obligations.SwitchLoadsContext := by
  refine ⟨fun s nb img => readTask_fields, fun init nsel nd ret ext s sw h => ?_⟩
  obtain ⟨s1, img, h1, himg, -, ⟨g, l, hstate, hsel, hldt⟩, m, hs1⟩ := switch_ok h
  have fields : TaskFields s1 (baseBits nd) img := descBase_bits nd ▸ readTask_fields himg
  have paging : s1.paging = s.paging := commitSwitch_paging h1
  have cr3 : sw.state.cr3 = img.cr3 := by rw [hstate]; rfl
  have sel (n : SegName) : (sw.state.seg n).selector = imageSel img n := by
    rw [hstate]
    exact (hsel n).trans (loadTask_seg init img s1 n).1
  refine ⟨s1, img, h1, fields, by rw [hstate]; rfl, by rw [hstate]; rfl, sel .es, sel .cs, sel .ss, sel .ds, sel .fs,
    sel .gs, by rw [hstate]; exact hldt, ?_, fun hp => ?_, fun hp => ?_⟩
  · exact (congrArg (BitVec.setWidth 2) (sel .cs)).trans (BitVec.setWidth_eq_extractLsb' (by decide))
  · rw [cr3, readTask_cr3 (paging.trans hp) himg, hs1]; rfl
  · rw [cr3]
    have := fields.cr3
    rwa [if_pos (paging.trans hp)] at this

/-- Settles O35: the switch stops at step 12, and with it whatever makes it. -/
theorem virtualTaskRefused : Obligations.VirtualTaskRefused := by
  intro init nsel nd ret ext s s1 img hc h1 h2 hv
  have h := taskSwitch_virtual (ext := ext) hc h1 h2 hv
  exact ⟨h, fun r hr => (switchOf_ends hr).1 _ h⟩

/-- Settles O49: the busy flag is the only check to fail, whatever makes the switch. -/
theorem busyTargetRaisesGp : Obligations.BusyTargetRaisesGp := by
  intro s nd hm hb hp hl
  refine ⟨fun i init sel hf ht hg => ?_, fun i init sel g hf ht hg => ?_, fun n g ht hg => ?_, fun v g ht hg => ?_⟩
  · exact switchOf_busy (.direct i init sel nd hm hf ht) (far_ne hf) hb hp hl hg
  · exact switchOf_busy (.gated i init sel g nd hm hf ht) (far_ne hf) hb hp hl hg
  · exact switchOf_busy (.intN n g nd hm ht) (by decide) hb hp hl hg
  · exact switchOf_busy (.extInt v g nd ht) (by decide) hb hp hl hg

/-- Settles O53: step 13 stops loading at the first register that fails, and reports a row of its list. -/
theorem failingSelectorFault : Obligations.FailingSelectorFault := by
  intro init nsel nd ret ext s s1 img segs hc h1 h2 hv w u holds fails pending
  have pends (q : Qualifying) (hq : qualifyAll w ext = .ok q) (hne : q.fails ≠ []) :
      ∃ e ∈ q.fails, pending e q.state := by
    obtain ⟨e, he, hs⟩ := startFailure_of_fails (init := init) (ext := ext) hne
    exact ⟨e, he, leavesPending_of_startFailure hc h1 h2 hv hq hs⟩
  refine ⟨fun hl hall hsome => ?_, fun hl hall => ?_, fun hl hnull hrest => ?_, ldtPart_ldtrOf .., rfl, fun x hx => ?_⟩
  · obtain ⟨n, g, fs, hq, hne, hfs, stops⟩ := qualifyAll_stopsAt hl hall hsome
    obtain ⟨e, he, hp⟩ := pends _ hq hne
    obtain ⟨k, hk⟩ := stops.fails
    refine ⟨e, g, hfs e he, hp, fun m => ⟨stops.selector m, fun hupto => ?_, fun m' e' hle hf => ?_⟩⟩
    · refine (stops.before m (Nat.lt_of_not_le fun hle => ?_)).2
      exact not_fails_of_qualifies (hupto n hle) hk
    · have notBefore : ¬ loadRank m' < loadRank n := fun hlt => not_fails_of_qualifies (stops.before m' hlt).1 hf
      rw [stops.after m (by omega)]
      exact (loadTask_seg init img s1 m).2
  · obtain ⟨fs, hq, hne, hfs⟩ := qualifyAll_ldtr_fails hl hall
    obtain ⟨e, he, hp⟩ := pends _ hq hne
    exact ⟨e, hfs e he, hp⟩
  · have hcs : fails u .cs (excCode .ts (selCode img.cs ext)) := .null (.inl rfl) hnull
    have onlyCs : ∀ m e, fails u m e → m = .cs := fun m e hf =>
      by_contra fun hm => not_fails_of_qualifies (hrest m hm) hf
    obtain ⟨n, g, fs, hq, hne, hfs, stops⟩ := qualifyAll_stopsAt (ext := ext) hl
      (fun n => (Classical.em (n = .cs)).symm.imp (hrest n) fun hn => ⟨_, hn ▸ hcs⟩) ⟨_, _, hcs⟩
    obtain ⟨e, he, hp⟩ := pends _ hq hne
    have first : n = .cs := stops.fails.elim fun k hk => onlyCs n k hk
    have kept : g = w.segs := Segs.ext_get fun m => stops.after m (by rw [first]; exact Nat.zero_le _)
    obtain ⟨m, hm⟩ := hfs e he
    obtain rfl := onlyCs m e hm
    have code : e = excCode .ts (selCode img.cs ext) := by
      have notNull : selNull (imageSel img .cs) ≠ false := fun h => Bool.false_ne_true (h.symm.trans hnull)
      cases hm with
      | null => rfl
      | outOfTable h0 | kind _ h0 | privilege _ h0 | notPresent _ h0 | lookup _ h0 => exact absurd h0 notNull
    rw [code, kept] at hp
    exact hp
  · obtain ⟨m, hm, -⟩ := commitSwitch_ok h1
    have tr : s1.tr = taskReg nsel nd := by rw [hm]; rfl
    rcases hx with rfl | rfl
    · exact ⟨tr, rfl, rfl, rfl, loadTask_seg init img s1⟩
    · exact ⟨tr, rfl, rfl, ldtrOf_selector _ _, loadTask_seg init img s1⟩

/-- Settles O54: step 13 loads every register, and the check of EIP follows it. -/
theorem eipBeyondCodeLimit : Obligations.EipBeyondCodeLimit := by
  intro init nsel nd ret ext s s1 img segs hc h1 h2 hv hq heip
  have beyond : ¬ img.eip.toNat ≤ (descLimit segs.cs).toNat := by rw [descLimit_bits]; exact Nat.not_le.2 heip
  exact leavesPending_of_startFailure hc h1 h2 hv (qualifyAll_entered hq) (if_neg beyond)

/-- Settles O55: the switch ends in the new task with `#DB` pending. -/
theorem debugTrapOfNewTask : Obligations.DebugTrapOfNewTask := by
  intro init nsel nd ret ext s s1 img segs hc h1 hl ht
  have h := taskSwitch_entered (ext := ext) hc h1 hl
  rw [ht, if_pos rfl] at h
  exact ⟨h, fun r hr => (switchOf_ends hr).2 _ _ h, rfl, rfl⟩

/-- Settles O60: no write of phase 2 takes a byte away, so what was listed can be read to the end. -/
theorem switchPhasesAnswer : Obligations.SwitchPhasesAnswer := by
  intro init nsel nd ret s hp hl
  obtain ⟨s1, h1, k1⟩ := commitSwitch_answers (init := init) (nsel := nsel) nd ret hp hl.old hl.new
  obtain ⟨img, himg⟩ := readTask_answers (k1.paging.trans hp) fun a ha => k1.listed a (hl.tss a ha)
  exact ⟨s1, img, h1, himg⟩

end Sys2Proof.Proofs
end

section
/-! The statements of 60_exceptions.md: the format of an error code, when an external interrupt is taken, and the events
without an error code that enter their handler task. -/

namespace Sys2Proof.Machine

open Sys2Proof.Safety

/-! ### Error codes (60_exceptions.md R258) -/

/-- Clearing the RPL bits of a selector leaves the multiple of 4 below it. -/
theorem clearRpl_toNat (sel : Selector) : (sel &&& 0xFFFC#16).toNat = sel.toNat / 4 * 4 := by
  have shifts : sel &&& 0xFFFC#16 = sel >>> 2 <<< 2 := by
    ext i hi
    interval_cases i <;> simp
  rw [shifts, BitVec.toNat_shiftLeft, BitVec.toNat_ushiftRight, Nat.shiftLeft_eq, Nat.shiftRight_eq_div_pow]
  omega

theorem selCode_toNat (sel : Selector) (ext : Bool) : (selCode sel ext).toNat = sel.toNat / 4 * 4 + ext.toNat := by
  have bit0 : (if ext then 1#16 else 0#16).toNat = ext.toNat := by cases ext <;> rfl
  have below : ext.toNat < 2 ^ 2 := Nat.lt_of_le_of_lt ext.toNat_le (by decide)
  rw [selCode, BitVec.toNat_or, clearRpl_toNat, bit0, Nat.mul_comm]
  exact (Nat.two_pow_add_eq_or_of_lt below _).symm

theorem vectorCode_toNat (v : Byte) (ext : Bool) : (vectorCode v ext).toNat = 8 * v.toNat + 2 + ext.toNat := by
  have hv := v.isLt
  have he := ext.toNat_le
  have bit0 : (if ext then 1 else 0) = ext.toNat := by cases ext <;> rfl
  rw [vectorCode, BitVec.toNat_ofNat, bit0]
  exact Nat.mod_eq_of_lt (by omega)

/-! ### When an external interrupt is taken (R262) -/

theorem dueInterrupt_eq_some {s : State} {v : Byte} (hif : eflagsIf s.eflags = true) (hv : 32 ≤ v.toNat) :
    dueInterrupt (some v) s = some v :=
  if_pos (by rw [hif, decide_eq_true hv]; rfl)

theorem dueInterrupt_eq_none {s : State} {v : Byte} (h : eflagsIf s.eflags = false ∨ v.toNat < 32) :
    dueInterrupt (some v) s = none := by
  refine if_neg fun due => ?_
  obtain ⟨hif, hv⟩ := Bool.and_eq_true_iff.1 due
  rcases h with masked | small
  · exact Bool.false_ne_true (masked.symm.trans hif)
  · exact Nat.not_le.2 small (of_decide_eq_true hv)

theorem stepWith_of_due {offer : Option Byte} {s : State} {v : Byte} (hm : s.inProtectedMode = true)
    (h : dueInterrupt offer s = some v) : stepWith offer s = takeInterrupt v s := by
  simp only [stepWith, nextAction, hm, if_true, h]

/-- An offer that is not taken leaves no trace in the step. -/
theorem stepWith_of_not_due {offer : Option Byte} {s : State} (h : dueInterrupt offer s = none) :
    stepWith offer s = step s := by
  have noOffer : dueInterrupt none s = none := rfl
  simp only [step, stepWith, nextAction, h, noOffer]

/-! ### The events without an error code (R256, R262) -/

/-- Through a gate that names its task, an exception whose switch succeeds ends where the switch does. -/
theorem takeException_of_switch {s t : State} {e : Exc} {g nd : Desc} (hcode : e.code = .none)
    (hi : IdtTarget s (vectorOf e.name) .exception g nd)
    (h : taskSwitch .int (gateSel g) nd s.eip true [] s = .ok (done t)) : takeException e s = .next t := by
  refine takeException_of_deliver_done ?_
  rw [hcode, deliverEvent_none hi]
  exact h

/-- Through a gate that names its task, an external interrupt ends as the switch does. -/
theorem takeInterrupt_eq_finish_switch {s : State} {v : Byte} {g nd : Desc} (hi : IdtTarget s v .extInt g nd) :
    takeInterrupt v s = finish s (taskSwitch .int (gateSel g) nd s.eip true [] s) := by
  rw [takeInterrupt, deliverEvent_none hi]; rfl

end Sys2Proof.Machine

namespace Sys2Proof.Proofs

open Sys2Proof.Machine Sys2Proof.Safety

/-- Settles O42: the delivery of an exception without an error code is the switch to its handler. -/
theorem exceptionEntersHandler : Obligations.ExceptionEntersHandler := by
  refine ⟨⟨rfl, rfl, rfl, rfl, rfl, rfl, rfl, rfl, rfl⟩, ?_⟩
  intro s s1 e g nd img segs hcode hi hc
  exact ⟨takeException_of_switch hcode hi (switch_done hc), entered_loaded .., entered_frame hc.commits hc.loads⟩

/-- Settles O44: the delivery of an external interrupt is the switch to its handler. -/
theorem externalInterruptEntersHandler : Obligations.ExternalInterruptEntersHandler := by
  intro s s1 v g nd img segs hi hc
  rw [takeInterrupt_eq_finish_switch hi]
  exact finish_completes hc true

/-- Settles O11: whether the offered interrupt is due decides the step. -/
theorem stepTakesExternalInterrupt : Obligations.StepTakesExternalInterrupt := by
  intro s v hm
  exact ⟨fun ⟨hif, hv⟩ => stepWith_of_due hm (dueInterrupt_eq_some hif hv),
    fun h => stepWith_of_not_due (dueInterrupt_eq_none h), rfl⟩

/-- Settles O19: EXT is added below the selector's index and TI, or below the vector's number and IDT. -/
theorem errorCodeFormat : Obligations.ErrorCodeFormat :=
  fun sel v ext => ⟨selCode_toNat sel ext, vectorCode_toNat v ext⟩

end Sys2Proof.Proofs
end

section
/-! The statements of 70_reset_and_hazards.md: the task register at reset, and the invariant of every step at reset. -/

namespace Sys2Proof.Proofs

open Sys2Proof.Machine Sys2Proof.Safety

/-- Settles O5: the three fields are what the definition of the reset state gives TR (R300). -/
theorem resetTaskRegister : Obligations.ResetTaskRegister := ⟨rfl, rfl, rfl⟩

/-- Settles O6: no memory cell is listed, EFLAGS has its always-one bit alone, and TR caches type 11. -/
theorem resetMeetsInvariant : Obligations.ResetMeetsInvariant where
  mem := List.Pairwise.nil
  eflags := by unfold EflagsOk; decide
  tr := rfl

end Sys2Proof.Proofs
end
